-- ==== Sys2Proof/Word.lean ====
section
/-! DEFINITION. The widths of the block's values (rules R10 and R13 of spec/00_scope.md): bytes on the
wire, 16-bit coordinates, extents and colours, and 32-bit pixel counters. Every value is unsigned. -/

namespace Sys2Proof

/-- One byte on the wire. -/
abbrev Byte := BitVec 8

/-- A coordinate or an extent at the request interface, `COORD_BITS` wide (R10). -/
abbrev Coord := BitVec 16

/-- A pixel colour: 16 opaque bits (R59 of spec/20_memory.md). -/
abbrev Pixel := BitVec 16

/-- The pixel counter and the stream index, `CNT_BITS` wide (R10). -/
abbrev Cnt := BitVec 32

/-- The 84-bit request descriptor (R88 of spec/30_encoding.md). -/
abbrev Descriptor := BitVec 84

end Sys2Proof
end

