-- ==== Sys2Proof/Config.lean ====
section
/-! DEFINITION. The implementation parameters of spec/00_scope.md section 4. The spec makes every parameter
"an argument of the model"; the machine's fixed types leave no place for an argument, so the parameters are
one record that the state carries and that no step writes (log 2). What the spec leaves OPEN with no default
is an opaque constant (log 3). -/

namespace Sys2Proof

/-- `RESET_DELAY_PLACEMENT` (R11, R192). -/
inductive DelayPlacement where
  | between
  | afterEdges
  deriving DecidableEq, Repr

/-- `BITMAP_CLIP_MODE` (R11, R172). The first constructor is the spec's `prefix`. -/
inductive ClipMode where
  | fromFront
  | strided
  deriving DecidableEq, Repr

/-- The pin-level parameters (R12): a `true` level is electrically high. They are OPEN, and no rule of the
spec reads them; only the pin view of Machine/Ports.lean does. -/
structure PinParams where
  csActiveHigh : Bool
  dcCommandHigh : Bool
  rstActiveHigh : Bool
  blOnHigh : Bool
  msbFirst : Bool
  spiMode : Fin 4
  deriving DecidableEq, Repr, Inhabited

/-- Every parameter of R6 to R9, R11 and R12. -/
structure Params where
  /-- `WIDTH`; R6 bounds it by 65535, which 16 bits say. -/
  width : Coord
  /-- `HEIGHT`. -/
  height : Coord
  opcSlpout : Byte
  opcDispon : Byte
  opcCaset : Byte
  opcRaset : Byte
  opcRamwr : Byte
  opcMadctl : Byte
  opcColmod : Byte
  parColmod16bpp : Byte
  parMadctlNorot : Byte
  /-- `T_RST_1`, in milliseconds. -/
  tRst1 : Nat
  tRst2 : Nat
  tSlpout : Nat
  tDispon : Nat
  placement : DelayPlacement
  clipMode : ClipMode
  pins : PinParams
  deriving DecidableEq, Repr

/-- `T_RST_1` has no value in the spec (R9): free. -/
opaque Config.tRst1 : Nat
/-- `T_RST_2` (R9): free. -/
opaque Config.tRst2 : Nat
/-- `T_SLPOUT` (R9): free. -/
opaque Config.tSlpout : Nat
/-- `T_DISPON` (R9): free. -/
opaque Config.tDispon : Nat
/-- The six pin-level parameters (R12): free. -/
opaque Config.pins : PinParams

/-- The parameters at the values "this spec takes": 320 by 240 (R6), the default opcodes and parameter bytes
(R7, R8), `between` and `prefix` (R11); the rest is free. PRESUMED for the opcodes and parameter bytes, which the
spec marks as general knowledge (log 2). -/
def Config.params : Params where
  width := 320
  height := 240
  opcSlpout := 0x11
  opcDispon := 0x29
  opcCaset := 0x2A
  opcRaset := 0x2B
  opcRamwr := 0x2C
  opcMadctl := 0x36
  opcColmod := 0x3A
  parColmod16bpp := 0x55
  parMadctlNorot := 0x00
  tRst1 := Config.tRst1
  tRst2 := Config.tRst2
  tSlpout := Config.tSlpout
  tDispon := Config.tDispon
  placement := .between
  clipMode := .fromFront
  pins := Config.pins

/-- The seven opcodes in the order of R7's table. -/
def Params.opcodes (p : Params) : List Byte :=
  [p.opcSlpout, p.opcDispon, p.opcCaset, p.opcRaset, p.opcRamwr, p.opcMadctl, p.opcColmod]

end Sys2Proof
end

