-- ==== Sys2Proof/Syntax.lean ====
section
/-! DEFINITION. The instructions: the twenty-four rows of spec/opcode_table.json, seventeen operations and
seven wire commands (R92 of spec/30_encoding.md). -/

namespace Sys2Proof

/-- The two framings of a bus session (R24): `C` command, `D` data. -/
inductive Framing where
  | C
  | D
  deriving DecidableEq, Repr

/-- The two logical levels of the panel reset line (R25). -/
inductive RstLevel where
  | inactive
  | active
  deriving DecidableEq, Repr

/-- One constructor per row of the opcode table. A request carries every field of its descriptor, the ignored ones
too, because acceptance latches all of them (R88). -/
inductive Instr where
  -- internal operations (uop 0x0 to 0xC)
  | select
  | deselect
  | setCmdFraming
  | setDataFraming
  | write (bytes : List Byte)
  | sleepMs (d : Nat)
  | cfgOut
  | rstSet (l : RstLevel)
  | blEnable
  | sendCmd (op : Byte)
  | sendData (bytes : List Byte)
  | setWindow (x0 y0 x1 y1 : Coord)
  | clip (x y w h : Coord)
  -- requests (op 0x0 to 0x3)
  | initPanel (x y w h : Coord) (color : Pixel)
  | fillRect (x y w h : Coord) (color : Pixel)
  | fillScreen (x y w h : Coord) (color : Pixel)
  | drawBitmap (x y w h : Coord) (color : Pixel)
  -- wire commands
  | slpout
  | dispon
  | caset (x0 x1 : Coord)
  | raset (y0 y1 : Coord)
  | ramwr
  | madctl
  | colmod
  deriving DecidableEq, Repr

end Sys2Proof
end

