-- ==== Sys2Proof/WellFormed.lean ====
section
/-! DEFINITION. What makes a set of parameters and an instruction well formed. Every combination of operand values
is a legal request (R90 of spec/30_encoding.md) and the operand types hold the widths of R10, so the checks are about
the parameters: the geometry (R6) and the opcodes (R7). -/

namespace Sys2Proof

/-- R6: `WIDTH` and `HEIGHT` are positive (their 16 bits bound them by 65535); R7: the opcodes are pairwise distinct. -/
def Params.wf (p : Params) : Bool :=
  p.width != 0 && p.height != 0 && decide p.opcodes.Nodup

/-- The opcode byte with which an instruction is a wire command, if it is one (R93). -/
def Instr.wireOpcode (p : Params) : Instr → Option Byte
  | .slpout => some p.opcSlpout
  | .dispon => some p.opcDispon
  | .caset _ _ => some p.opcCaset
  | .raset _ _ => some p.opcRaset
  | .ramwr => some p.opcRamwr
  | .madctl => some p.opcMadctl
  | .colmod => some p.opcColmod
  | .select | .deselect | .setCmdFraming | .setDataFraming | .write _ | .sleepMs _ | .cfgOut | .rstSet _
  | .blEnable | .sendCmd _ | .sendData _ | .setWindow _ _ _ _ | .clip _ _ _ _
  | .initPanel _ _ _ _ _ | .fillRect _ _ _ _ _ | .fillScreen _ _ _ _ _ | .drawBitmap _ _ _ _ _ => none

/-- An instruction is well formed for parameters `p`: a wire command names its own opcode and no other's, which the
distinct opcodes of R7 give. Every other instruction is well formed whatever its operands (R90). -/
def Instr.wf (p : Params) (i : Instr) : Bool :=
  match i.wireOpcode p with
  | none => true
  | some b => p.opcodes.count b == 1

end Sys2Proof
end

