-- ==== Sys2Proof/Decode.lean ====
section
/-! DEFINITION. Decoding and encoding (spec/30_encoding.md). The request descriptor is the spec's (R88 to R91). A wire
command is its opcode byte and, for CASET and RASET, its ADDR4 block (R84, R93). An internal operation has "no bit
encoding in hardware" (R92): it is its uop number with operand bytes whose layout is the model's (DESIGN CHOICE, log 1). -/

namespace Sys2Proof

/-! ### Byte order (R13, R59) -/

/-- `hi8(v) = v[15:8]`. -/
def hi8 (v : BitVec 16) : Byte := v.extractLsb' 8 8

/-- `lo8(v) = v[7:0]`. -/
def lo8 (v : BitVec 16) : Byte := v.extractLsb' 0 8

/-- `{hi, lo}`: the first byte of a pair is the high one. -/
def be16 (hi lo : Byte) : BitVec 16 := hi ++ lo

/-- Format ADDR4 (R84): a start and an end, each high byte first. -/
def addr4 (s e : Coord) : List Byte := [hi8 s, lo8 s, hi8 e, lo8 e]

/-- Big-endian bytes of a natural, none for 0. -/
def natBytes (n : Nat) : List Byte := go n n
where
  /-- `fuel` bounds the number of digits. -/
  go : Nat → Nat → List Byte
    | 0, _ => []
    | fuel + 1, m => if m = 0 then [] else go fuel (m / 256) ++ [BitVec.ofNat 8 m]

/-- The natural that big-endian bytes stand for. -/
def bytesNat (bs : List Byte) : Nat := bs.foldl (fun n b => n * 256 + b.toNat) 0

/-! ### What can be presented -/

/-- One word at the block's ports. -/
inductive PortWord where
  /-- `REQ[83:0]` at the request port (R33, R88). -/
  | request (d : Descriptor)
  /-- A uop number with its operand bytes: a direct use of an internal operation. -/
  | internal (code : BitVec 4) (operands : List Byte)
  /-- A wire command's opcode byte with its parameter block: a direct use of a wire command. -/
  | wire (opcode : Byte) (operands : List Byte)
  deriving DecidableEq, Repr

/-- Why a word names no instruction. -/
inductive DecodeError where
  /-- Request code 0x4 to 0xF (R91). -/
  | reservedRequest (op : BitVec 4)
  /-- uop 0xD to 0xF: R92's list ends at 0xC. -/
  | noInternalOperation (code : BitVec 4)
  /-- A byte that is none of the seven opcodes (R93). -/
  | noWireCommand (opcode : Byte)
  /-- Operand bytes that do not have the shape the operation's operands have. -/
  | malformedOperands
  deriving DecidableEq, Repr

/-! ### The request descriptor (R88, R89) -/

def Descriptor.op (d : Descriptor) : BitVec 4 := d.extractLsb' 80 4
def Descriptor.x (d : Descriptor) : Coord := d.extractLsb' 64 16
def Descriptor.y (d : Descriptor) : Coord := d.extractLsb' 48 16
def Descriptor.w (d : Descriptor) : Coord := d.extractLsb' 32 16
def Descriptor.h (d : Descriptor) : Coord := d.extractLsb' 16 16
def Descriptor.color (d : Descriptor) : Pixel := d.extractLsb' 0 16

/-- Six fields joined, `op` most significant. -/
def Descriptor.make (op : BitVec 4) (x y w h : Coord) (color : Pixel) : Descriptor :=
  (((((op ++ x) ++ y) ++ w) ++ h) ++ color : BitVec (4 + 16 + 16 + 16 + 16 + 16))

/-- R89, R90: `op` selects the operation; 0x4 to 0xF are reserved (R91). -/
def decodeRequest (d : Descriptor) : Except DecodeError Instr :=
  match d.op.toNat with
  | 0 => .ok (.initPanel d.x d.y d.w d.h d.color)
  | 1 => .ok (.fillRect d.x d.y d.w d.h d.color)
  | 2 => .ok (.fillScreen d.x d.y d.w d.h d.color)
  | 3 => .ok (.drawBitmap d.x d.y d.w d.h d.color)
  | _ => .error (.reservedRequest d.op)

/-! ### Internal operations (R92) -/

/-- An operation without operands takes no operand bytes. -/
def noOperands (i : Instr) : List Byte → Except DecodeError Instr
  | [] => .ok i
  | _ :: _ => .error .malformedOperands

/-- The level operand of RST_SET: 0 `inactive`, 1 `active`. -/
def decodeRstSet : List Byte → Except DecodeError Instr
  | [b] =>
    if b = 0 then .ok (.rstSet .inactive) else if b = 1 then .ok (.rstSet .active) else .error .malformedOperands
  | _ => .error .malformedOperands

/-- One opcode byte. -/
def decodeSendCmd : List Byte → Except DecodeError Instr
  | [b] => .ok (.sendCmd b)
  | _ => .error .malformedOperands

/-- Four 16-bit operands, each high byte first. -/
def decodeFour (mk : Coord → Coord → Coord → Coord → Instr) : List Byte → Except DecodeError Instr
  | [a, b, c, d, e, f, g, h] => .ok (mk (be16 a b) (be16 c d) (be16 e f) (be16 g h))
  | _ => .error .malformedOperands

/-- R92: the uop number selects the operation. -/
def decodeInternal (code : BitVec 4) (ops : List Byte) : Except DecodeError Instr :=
  match code.toNat with
  | 0x0 => noOperands .select ops
  | 0x1 => noOperands .deselect ops
  | 0x2 => noOperands .setCmdFraming ops
  | 0x3 => noOperands .setDataFraming ops
  | 0x4 => .ok (.write ops)
  | 0x5 => .ok (.sleepMs (bytesNat ops))
  | 0x6 => noOperands .cfgOut ops
  | 0x7 => decodeRstSet ops
  | 0x8 => noOperands .blEnable ops
  | 0x9 => decodeSendCmd ops
  | 0xA => .ok (.sendData ops)
  | 0xB => decodeFour .setWindow ops
  | 0xC => decodeFour .clip ops
  | _ => .error (.noInternalOperation code)

/-! ### Wire commands (R93) -/

/-- The ADDR4 block of CASET or RASET (R84). -/
def decodeAddr4 (mk : Coord → Coord → Instr) : List Byte → Except DecodeError Instr
  | [a, b, c, d] => .ok (mk (be16 a b) (be16 c d))
  | _ => .error .malformedOperands

/-- R93: the opcode byte selects the command. -/
def decodeWire (p : Params) (b : Byte) (ops : List Byte) : Except DecodeError Instr :=
  if b = p.opcSlpout then noOperands .slpout ops
  else if b = p.opcDispon then noOperands .dispon ops
  else if b = p.opcCaset then decodeAddr4 .caset ops
  else if b = p.opcRaset then decodeAddr4 .raset ops
  else if b = p.opcRamwr then noOperands .ramwr ops
  else if b = p.opcMadctl then noOperands .madctl ops
  else if b = p.opcColmod then noOperands .colmod ops
  else .error (.noWireCommand b)

/-- Decoding is total: every word is an instruction or is rejected by name. -/
def decode (p : Params) : PortWord → Except DecodeError Instr
  | .request d => decodeRequest d
  | .internal code ops => decodeInternal code ops
  | .wire b ops => decodeWire p b ops

/-! ### Encoding -/

/-- The level byte of RST_SET. -/
def rstLevelByte : RstLevel → Byte
  | .inactive => 0
  | .active => 1

/-- The word of an instruction, from R88, R89, R92, R93 and R84. -/
def encode (p : Params) : Instr → PortWord
  | .select => .internal 0x0 []
  | .deselect => .internal 0x1 []
  | .setCmdFraming => .internal 0x2 []
  | .setDataFraming => .internal 0x3 []
  | .write bs => .internal 0x4 bs
  | .sleepMs d => .internal 0x5 (natBytes d)
  | .cfgOut => .internal 0x6 []
  | .rstSet l => .internal 0x7 [rstLevelByte l]
  | .blEnable => .internal 0x8 []
  | .sendCmd op => .internal 0x9 [op]
  | .sendData bs => .internal 0xA bs
  | .setWindow x0 y0 x1 y1 => .internal 0xB (addr4 x0 y0 ++ addr4 x1 y1)
  | .clip x y w h => .internal 0xC (addr4 x y ++ addr4 w h)
  | .initPanel x y w h c => .request (Descriptor.make 0x0 x y w h c)
  | .fillRect x y w h c => .request (Descriptor.make 0x1 x y w h c)
  | .fillScreen x y w h c => .request (Descriptor.make 0x2 x y w h c)
  | .drawBitmap x y w h c => .request (Descriptor.make 0x3 x y w h c)
  | .slpout => .wire p.opcSlpout []
  | .dispon => .wire p.opcDispon []
  | .caset x0 x1 => .wire p.opcCaset (addr4 x0 x1)
  | .raset y0 y1 => .wire p.opcRaset (addr4 y0 y1)
  | .ramwr => .wire p.opcRamwr []
  | .madctl => .wire p.opcMadctl []
  | .colmod => .wire p.opcColmod []

/-! ### Words as the opcode table numbers their bits -/

/-- How many operand bytes of zeros stand above an internal operation's table word: a list operand has none, and
SLEEP_MS reads no bytes as 0. -/
def internalOperandBytes (code : BitVec 4) : Nat :=
  match code.toNat with
  | 0x7 | 0x9 => 1
  | 0xB | 0xC => 8
  | _ => 0

/-- How many operand bytes of zeros stand above a wire command's opcode byte. -/
def wireOperandBytes (p : Params) (b : Byte) : Nat :=
  if b = p.opcCaset ∨ b = p.opcRaset then 4 else 0

/-- The port word whose bits are `w`: a table row of at most one byte is an internal operation when its upper four bits
are 0 and a wire command otherwise; a longer one is a request descriptor. -/
def tableWord (p : Params) (nbits w : Nat) : PortWord :=
  if nbits ≤ 8 then
    if w % 256 < 16 then
      .internal (BitVec.ofNat 4 w) (List.replicate (internalOperandBytes (BitVec.ofNat 4 w)) 0)
    else .wire (BitVec.ofNat 8 w) (List.replicate (wireOperandBytes p (BitVec.ofNat 8 w)) 0)
  else .request (BitVec.ofNat 84 w)

/-- What the decoder reads from a word of the opcode table, at the table's own opcodes. -/
def decodeTableWord (nbits w : Nat) : Option Instr :=
  match decode Config.params (tableWord Config.params nbits w) with
  | .ok i => some i
  | .error _ => none

end Sys2Proof
end

