-- ==== Sys2Proof/Machine/State.lean ====
section
/-! DEFINITION. The state: the elements of R20 (spec/10_state.md), the panel reference model's elements of R51
(spec/20_memory.md), what the caller holds at the ports (R33, R34), and the parameters. -/

namespace Sys2Proof.Machine

/-- The trace alphabet (R14 of spec/00_scope.md). -/
inductive Event where
  | cfgOut
  | rst (l : RstLevel)
  /-- `BL(on)`. -/
  | bl
  | sel
  | desel
  | frm (f : Framing)
  | byte (b : Byte)
  | sleep (d : Nat)
  deriving DecidableEq, Repr

/-- One item of `PLAN`: it emits exactly one event. The bytes of a bitmap are not known when the plan is made (R27), and the
streamer's registers move with certain events (R166, R170), so an item says where its byte comes from (log 15). -/
inductive PlanItem where
  /-- Emit this event. -/
  | ev (e : Event)
  /-- The SEL of the pixel session: `REM <- n; SIDX <- 0`. -/
  | openStream (n : Cnt)
  /-- The low byte of a fill pixel, which ends it: `REM <- REM - 1; SIDX <- SIDX + 1`. -/
  | fillLow (b : Byte)
  /-- Read the bitmap entry of position `SIDX` and emit its high byte (R171). -/
  | bitmapHigh
  /-- Emit the low byte of the entry read, which ends the pixel. -/
  | bitmapLow
  deriving DecidableEq, Repr

/-- `INIT_STATE` (R21). -/
inductive InitState where
  | notRun
  | running
  | done
  deriving DecidableEq, Repr

/-- The line-state registers (R22 to R26). `none` is the spec's `unknown`. -/
structure Lines where
  /-- `DIR` -/
  dir : Bool
  /-- `CS_SEL` -/
  csSel : Bool
  /-- `DC_FRM` -/
  dcFrm : Option Framing
  /-- `SESS_DIRTY` -/
  sessDirty : Bool
  /-- `RST_LVL` -/
  rstLvl : Option RstLevel
  /-- `BL_ON` -/
  blOn : Bool
  deriving DecidableEq, Repr

/-- The operand registers `OP`, `RX`, `RY`, `RW`, `RH`, `RCOLOR` (R28). -/
structure ReqRegs where
  op : BitVec 4
  rx : Coord
  ry : Coord
  rw : Coord
  rh : Coord
  rcolor : Pixel
  deriving DecidableEq, Repr

/-- The working registers (R29). -/
structure WorkRegs where
  wx0 : Coord
  wy0 : Coord
  wx1 : Coord
  wy1 : Coord
  weff : Coord
  heff : Coord
  rem : Cnt
  sidx : Cnt
  deriving DecidableEq, Repr

/-- Progress of the panel's reset pulse, which R53 speaks of (log 10). -/
inductive Pulse where
  /-- No `RST(active)` since power-on. -/
  | waiting
  /-- The line is held active. -/
  | held
  /-- `RST(active)` has been followed by `RST(inactive)`. -/
  | released
  deriving DecidableEq, Repr

/-- `P_ADDR` (R51). -/
inductive PanelAddr where
  | undef
  | rows (ys ye : Coord)
  | rowsCols (ys ye xs xe : Coord)
  | writing (xs xe ys ye c r : Coord)
  | exhausted (xs xe ys ye : Coord)
  deriving DecidableEq, Repr

/-- `GRAM`: the known cells, keyed by `cellKey` of Machine/Gram.lean, keys strictly rising; an unlisted cell is `unknown`
(R51; log 13). -/
abbrev Gram := List (Nat × Pixel)

/-- The panel reference model (R51). -/
structure Panel where
  gram : Gram
  /-- `P_READY` -/
  ready : Bool
  /-- `P_ADDR` -/
  addr : PanelAddr
  /-- `P_CMD` -/
  cmd : Option (Byte × List Byte)
  /-- `P_HALF` -/
  half : Option Byte
  /-- `P_FRM` -/
  frm : Option Framing
  /-- `P_SEL` -/
  sel : Bool
  /-- `P_BAD` -/
  bad : Bool
  pulse : Pulse
  /-- How many bytes of the INITIALIZE plan have arrived in order (R53; log 10). -/
  initGot : Nat
  deriving DecidableEq, Repr

/-- The panel at power-on: the last column of R51's table. -/
def Panel.powerOn : Panel where
  gram := []
  ready := false
  addr := .undef
  cmd := none
  half := none
  frm := none
  sel := false
  bad := false
  pulse := .waiting
  initGot := 0

/-- What the caller presents: a word at a port and the bitmap source it holds at the source port while the word is
executed (R33, R34, R63; log 6). -/
structure Presented where
  word : PortWord
  src : List Pixel
  deriving DecidableEq, Repr

/-- The model faults of R203 (spec/60_exceptions.md). Each stands for a use the source calls undefined or whose
precondition the source leaves to the caller; stopping is safe (D16 to D18, D20 of spec/92_eei_decisions.md). -/
inductive Fault where
  /-- FILL_RECT, FILL_SCREEN, DRAW_BITMAP with `INIT_STATE != DONE` (R205). Safe. -/
  | useBeforeInit
  /-- INITIALIZE with `INIT_STATE != NOT_RUN` (R194). Safe. -/
  | initTwice
  /-- SELECT, and every operation that begins with it, with `CS_SEL = 1` (R111); a drawing request that draws is one of them
  (R166, R239). Safe. -/
  | nestedSession
  /-- DESELECT with `CS_SEL = 0` (R112). Safe. -/
  | unpairedDeselect
  /-- SET_CMD_FRAMING or SET_DATA_FRAMING after a byte of the session under the other framing (R113, R114). Safe. -/
  | framingChangeInSession
  /-- WRITE with no session open or no framing ever set (R115). Safe. -/
  | writeOutsideSession
  /-- SET_WINDOW with a window that is reversed or not inside the panel (R152). Safe. -/
  | badWindow (x0 y0 x1 y1 : Coord)
  deriving DecidableEq, Repr

/-- Words the machine gives no meaning. Each is raised by the decoder in `step`; stopping is safe. -/
inductive Refusal where
  /-- An instruction that has no meaning yet; raised by no arm of this model. Safe. -/
  | notModelled (mnemonic : String)
  /-- `ReservedRequest` of R203: a request code 0x4 to 0xF (R91). Safe. -/
  | reservedRequest (op : BitVec 4)
  /-- A uop number R92 does not list. Safe. -/
  | noInternalOperation (code : BitVec 4)
  /-- An opcode byte R93 does not list. Safe. -/
  | noWireCommand (opcode : Byte)
  /-- Operand bytes of a direct use that do not have the operation's shape (log 1). Safe. -/
  | malformedOperands
  deriving DecidableEq, Repr

/-- The state of the machine. -/
structure State where
  /-- The implementation parameters; no step writes them (log 2). -/
  params : Params
  /-- `INIT_STATE` -/
  initState : InitState
  lines : Lines
  /-- `BUSY` -/
  busy : Bool
  req : ReqRegs
  work : WorkRegs
  /-- `p` of R170: the bitmap entry sampled for the pixel being sent (log 14). -/
  pix : Pixel
  /-- `PLAN` -/
  plan : List PlanItem
  /-- `SEQ` -/
  seq : Nat
  /-- `TRACE` -/
  trace : List Event
  /-- `FAULT` -/
  fault : Option Fault
  /-- What the caller presents and the block has not taken yet, first the next (R41). -/
  port : List Presented
  /-- The bitmap source at the source port. -/
  src : List Pixel
  panel : Panel
  deriving DecidableEq, Repr

/-- The outcome of a meaning. -/
abbrev Result := Host.Outcome State Fault Refusal

/-- The power cycle (R40, R230): the values of R40, the panel's of R51, nothing presented. The registers R40 leaves
unspecified are 0 (DESIGN CHOICE, log 4), and so is `pix` (log 14). -/
def State.reset : State where
  params := Config.params
  initState := .notRun
  lines := { dir := false, csSel := false, dcFrm := none, sessDirty := false, rstLvl := none, blOn := false }
  busy := false
  req := { op := 0, rx := 0, ry := 0, rw := 0, rh := 0, rcolor := 0 }
  work := { wx0 := 0, wy0 := 0, wx1 := 0, wy1 := 0, weff := 0, heff := 0, rem := 0, sidx := 0 }
  pix := 0
  plan := []
  seq := 0
  trace := []
  fault := none
  port := []
  src := []
  panel := Panel.powerOn

end Sys2Proof.Machine
end

