-- ==== Sys2Proof/Machine/Gram.lean ====
section
/-! DEFINITION. The panel's pixel memory `GRAM` (R50, R51 of spec/20_memory.md): one 16-bit cell for each pair of
column and row, `unknown` until written. The memory is a list in one canonical form, so equal memories are equal lists
(log 13). -/

namespace Sys2Proof.Machine

/-- The key of the cell at column `c`, row `r`: rows of 65536, so no two cells share one whatever the geometry, and keys
rise in row-major order. -/
def cellKey (c r : Coord) : Nat := r.toNat * 65536 + c.toNat

/-- What an unlisted cell holds: `unknown` (R51). -/
def Gram.unlisted : Option Pixel := none

/-- The cell with this key. -/
def Gram.lookup : Gram → Nat → Option Pixel
  | [], _ => Gram.unlisted
  | (k, v) :: m, a => if a = k then some v else Gram.lookup m a

/-- Set the cell with this key, keeping the keys strictly rising. -/
def Gram.insert : Gram → Nat → Pixel → Gram
  | [], a, v => [(a, v)]
  | (k, u) :: m, a, v =>
    if a < k then (a, v) :: (k, u) :: m
    else if a = k then (a, v) :: m
    else (k, u) :: Gram.insert m a v

/-- `GRAM[c][r]`, `none` for `unknown`. -/
def Gram.read (m : Gram) (c r : Coord) : Option Pixel := Gram.lookup m (cellKey c r)

/-- `MemWrite((c, r), 1, v)` (R56). -/
def Gram.write (m : Gram) (c r : Coord) (v : Pixel) : Gram := Gram.insert m (cellKey c r) v

/-- The canonical form: keys strictly rising. No entry equals what an unlisted cell reads as, because an entry is a known
pixel. -/
def Gram.wf : Gram → Bool
  | [] => true
  | [_] => true
  | (k, _) :: (k', v') :: m => decide (k < k') && Gram.wf ((k', v') :: m)

end Sys2Proof.Machine
end

