-- ==== Sys2Proof/Machine/Panel.lean ====
section
/-! DEFINITION. The panel reference model: what each event does (R53 to R58, R61 of spec/20_memory.md). -/

namespace Sys2Proof.Machine

/-- `P_BAD <- 1`: sticky, and every cell is `unknown` from then on (R61). -/
def Panel.poison (P : Panel) : Panel := { P with bad := true, gram := [] }

/-- `P_ADDR <- a`. -/
def Panel.setAddr (a : PanelAddr) (P : Panel) : Panel := { P with addr := a }

/-- `P_CMD <- c`. -/
def Panel.setCmd (c : Option (Byte × List Byte)) (P : Panel) : Panel := { P with cmd := c }

/-- `P_HALF <- h`. -/
def Panel.setHalf (h : Option Byte) (P : Panel) : Panel := { P with half := h }

/-- `P_SEL <- v`. -/
def Panel.setSel (v : Bool) (P : Panel) : Panel := { P with sel := v }

/-- `P_FRM <- f`. -/
def Panel.setFrm (f : Framing) (P : Panel) : Panel := { P with frm := some f }

/-- `MemWrite` on the panel: once `P_BAD` is set every cell stays `unknown` (R61). -/
def Panel.store (P : Panel) (c r : Coord) (v : Pixel) : Panel :=
  if P.bad then P else { P with gram := P.gram.write c r v }

/-- The bytes of the INITIALIZE plan with their framing, in order (R53, R191). -/
def initBytes (p : Params) : List (Framing × Byte) :=
  [(.C, p.opcSlpout), (.C, p.opcColmod), (.D, p.parColmod16bpp), (.C, p.opcMadctl), (.D, p.parMadctlNorot),
   (.C, p.opcDispon)]

/-- A byte between the reset pulse and `P_READY = 1`: it is the next byte of the INITIALIZE plan, or the panel is
driven in a way the source calls undefined (R53). The last one sets `P_READY`. -/
def Panel.initByte (p : Params) (f : Framing) (b : Byte) (P : Panel) : Panel :=
  if (initBytes p)[P.initGot]? = some (f, b) then
    { P with initGot := P.initGot + 1, ready := decide (P.initGot + 1 = (initBytes p).length) }
  else P.poison

/-- A command byte once `P_READY = 1`: the pending half pixel is checked and dropped first (R54). -/
def Panel.dropHalf (P : Panel) : Panel :=
  Panel.setHalf none (if P.half.isSome then P.poison else P)

/-- A command byte that comes while address parameters are still missing: "address parameters of the wrong count" poison the
model (U26 of spec/93_implementation_defined.md, R61), beside what R54 does to `P_ADDR` and `P_CMD` (DESIGN CHOICE, log
25). -/
def Panel.endParameters (p : Params) (P : Panel) : Panel :=
  match P.cmd with
  | none => P
  | some (op, _) => if op = p.opcRaset ∨ op = p.opcCaset then P.poison else P

/-- R54, after the half pixel is dropped. A command outside the seven ends the window too, beside `P_BAD`: so say R54's "anything
else between them loses the window" and R62, while R54's pseudocode names only `P_BAD` there (DESIGN CHOICE, log 29). -/
def Panel.command (p : Params) (op : Byte) (P : Panel) : Panel :=
  if op = p.opcRaset then (P.setAddr .undef).setCmd (some (op, []))
  else if op = p.opcCaset then
    match P.addr, P.cmd with
    | .rows _ _, none => P.setCmd (some (op, []))
    | _, _ => (P.setAddr .undef).setCmd (some (op, []))
  else if op = p.opcRamwr then
    match P.addr, P.cmd with
    | .rowsCols ys ye xs xe, none => P.setAddr (.writing xs xe ys ye xs ys)
    | _, _ => (P.setAddr .undef).setCmd none
  else if op = p.opcColmod ∨ op = p.opcMadctl then (P.setAddr .undef).setCmd (some (op, []))
  else if op = p.opcSlpout ∨ op = p.opcDispon then (P.setAddr .undef).setCmd none
  else (P.setAddr .undef).poison

/-- R54. -/
def Panel.commandByte (p : Params) (op : Byte) (P : Panel) : Panel := (P.dropHalf.endParameters p).command p op

/-- The row range has arrived (R55). -/
def Panel.setRows (p : Params) (s e : Coord) (P : Panel) : Panel :=
  if s ≤ e ∧ e < p.height then P.setAddr (.rows s e) else P.poison

/-- The column range has arrived (R55). Where no row range stands before it `P_ADDR` stays UNDEF, and a range with its end
before its start or outside the panel poisons the model there too: so say R55's last sentence, R61 and U26, while R55's
pseudocode names no poison in that branch (DESIGN CHOICE, log 26). -/
def Panel.setCols (p : Params) (s e : Coord) (P : Panel) : Panel :=
  match P.addr with
  | .rows ys ye => if s ≤ e ∧ e < p.width then P.setAddr (.rowsCols ys ye s e) else P.poison
  | .undef => if s ≤ e ∧ e < p.width then P else P.poison
  | .rowsCols _ _ _ _ => P.poison
  | .writing _ _ _ _ _ _ => P.poison
  | .exhausted _ _ _ _ => P.poison

/-- The 16-bit value at byte `k` of a parameter block, high byte first (R55, R84). -/
def wordAt (k : Nat) (bs : List Byte) : Coord := be16 (bs.getD k 0) (bs.getD (k + 1) 0)

/-- A parameter byte of the command `op`, of which `bs` have arrived (R55): the fourth byte of an address completes it, and so
does the first byte of the one-byte parameters. -/
def Panel.parameterByte (p : Params) (op : Byte) (bs : List Byte) (b : Byte) (P : Panel) : Panel :=
  if op = p.opcRaset ∧ bs.length = 3 then
    (P.setRows p (wordAt 0 (bs ++ [b])) (wordAt 2 (bs ++ [b]))).setCmd none
  else if op = p.opcCaset ∧ bs.length = 3 then
    (P.setCols p (wordAt 0 (bs ++ [b])) (wordAt 2 (bs ++ [b]))).setCmd none
  else if (op = p.opcColmod ∨ op = p.opcMadctl) ∧ bs = [] then P.setCmd none
  else P.setCmd (some (op, bs ++ [b]))

/-- The pointer after the cell at `(c, r)` of the window: row-major, the column moving first (R56). -/
def PanelAddr.afterCell (xs xe ys ye c r : Coord) : PanelAddr :=
  if c < xe then .writing xs xe ys ye (c + 1) r
  else if r < ye then .writing xs xe ys ye xs (r + 1)
  else .exhausted xs xe ys ye

/-- A pixel byte at the write pointer (R56): the first byte of a pair is the high one. -/
def Panel.pixelByte (xs xe ys ye c r : Coord) (b : Byte) (P : Panel) : Panel :=
  match P.half with
  | none => P.setHalf (some b)
  | some hi => ((P.store c r (be16 hi b)).setHalf none).setAddr (.afterCell xs xe ys ye c r)

/-- R55. -/
def Panel.dataByte (p : Params) (b : Byte) (P : Panel) : Panel :=
  match P.cmd with
  | some (op, bs) => P.parameterByte p op bs b
  | none =>
    match P.addr with
    | .writing xs xe ys ye c r => P.pixelByte xs xe ys ye c r b
    | _ => P.poison

/-- A byte in an open session under framing `f` (R53). -/
def Panel.framedByte (p : Params) (f : Framing) (b : Byte) (P : Panel) : Panel :=
  if P.pulse ≠ .released then P.poison
  else if P.ready = false then P.initByte p f b
  else
    match f with
    | .C => P.commandByte p b
    | .D => P.dataByte p b

/-- R53: what the panel does with each event. -/
def Panel.onEvent (p : Params) (P : Panel) : Event → Panel
  | .sel => P.setSel true
  | .desel => (if P.half.isSome then P.poison else P).setSel false
  | .frm f => P.setFrm f
  | .byte b =>
    match P.sel, P.frm with
    | true, some f => P.framedByte p f b
    | _, _ => P.poison
  | .rst .active => { Panel.powerOn with bad := P.bad, pulse := .held }
  | .rst .inactive => { P with pulse := if P.pulse = .held then .released else P.pulse }
  | .sleep _ => P
  | .cfgOut => P
  | .bl => P

/-- The events that reach the panel through a line the block drives. -/
def Event.onPanelLine : Event → Bool
  | .sel => true
  | .desel => true
  | .frm _ => true
  | .byte _ => true
  | .rst _ => true
  | .sleep _ => false
  | .cfgOut => false
  | .bl => false

/-- The panel sees an event through lines that are driven or not. R22: with `DIR = 0` "the levels the panel sees on them
are unspecified", so such an event also poisons the model (DEDUCED, log 11). -/
def Panel.see (p : Params) (driven : Bool) (P : Panel) (e : Event) : Panel :=
  if driven || !e.onPanelLine then P.onEvent p e else (P.onEvent p e).poison

/-- R58: a cell as the display shows it, which is observable only while no session is open. -/
def Panel.shown (P : Panel) (c r : Coord) : Option (Option Pixel) :=
  if P.sel then none else some (P.gram.read c r)

end Sys2Proof.Machine
end

