-- ==== Sys2Proof/Machine/Flags.lean ====
section
/-! DEFINITION. The status of the block has no condition codes (R38 of spec/10_state.md); what an instruction changes beside
its result are the line-state registers, and each event's effect on each of them is R30's. -/

namespace Sys2Proof.Machine

/-- `DIR` after an event: set by `CFG_OUT`, never cleared (R22). -/
def dirAfter : Event → Bool → Bool
  | .cfgOut, _ => true
  | _, v => v

/-- `CS_SEL` after an event. -/
def csSelAfter : Event → Bool → Bool
  | .cfgOut, _ => false
  | .sel, _ => true
  | .desel, _ => false
  | _, v => v

/-- `DC_FRM` after an event: it keeps its value except at `FRM` (R24). -/
def dcFrmAfter : Event → Option Framing → Option Framing
  | .frm f, _ => some f
  | _, v => v

/-- `SESS_DIRTY` after an event (R26). -/
def sessDirtyAfter : Event → Bool → Bool
  | .sel, _ => false
  | .desel, _ => false
  | .byte _, _ => true
  | _, v => v

/-- `RST_LVL` after an event. -/
def rstLvlAfter : Event → Option RstLevel → Option RstLevel
  | .rst l, _ => some l
  | _, v => v

/-- `BL_ON` after an event: never cleared (R25). -/
def blOnAfter : Event → Bool → Bool
  | .bl, _ => true
  | _, v => v

/-- The line-state registers after an event (R30). -/
def Lines.after (e : Event) (l : Lines) : Lines where
  dir := dirAfter e l.dir
  csSel := csSelAfter e l.csSel
  dcFrm := dcFrmAfter e l.dcFrm
  sessDirty := sessDirtyAfter e l.sessDirty
  rstLvl := rstLvlAfter e l.rstLvl
  blOn := blOnAfter e l.blOn

/-- The registers that move when a pixel has been sent: `REM <- REM - 1; SIDX <- SIDX + 1` (R166, R170). -/
def WorkRegs.pixelSent (w : WorkRegs) : WorkRegs := { w with rem := w.rem - 1, sidx := w.sidx + 1 }

/-- The registers at the start of the pixel session: `REM <- w' * h'; SIDX <- 0`. -/
def WorkRegs.streamStart (n : Cnt) (w : WorkRegs) : WorkRegs := { w with rem := n, sidx := 0 }

end Sys2Proof.Machine
end

