-- ==== Sys2Proof/Machine/Operands.lean ====
section
/-! DEFINITION. The operands of the instructions: the latched descriptor (R28, R88), the clipped rectangle (R161), and the
bitmap entry of a pixel position (R63, R171, R172). -/

namespace Sys2Proof.Machine

/-- The operand registers of a descriptor with operation code `op` (R88): every field is latched, the ignored ones too. -/
def latched (op : BitVec 4) (x y w h : Coord) (color : Pixel) : ReqRegs :=
  { op := op, rx := x, ry := y, rw := w, rh := h, rcolor := color }

/-- The two outcomes of clipping (R160). -/
inductive Clipped where
  | nothing
  | window (x y w h : Coord)
  deriving DecidableEq, Repr

/-- One axis of R161: the extent truncated to the panel's edge, the sum taken without wrap-around (R163). -/
def clipExtent (origin extent size : Coord) : Coord :=
  if origin.toNat + extent.toNat > size.toNat then size - origin else extent

/-- CLIP (R161). -/
def clip (p : Params) (x y w h : Coord) : Clipped :=
  if x ≥ p.width ∨ y ≥ p.height then .nothing
  else if clipExtent x w p.width = 0 ∨ clipExtent y h p.height = 0 then .nothing
  else .window x y (clipExtent x w p.width) (clipExtent y h p.height)

/-- What CLIP leaves in the working registers for the rectangle it returns (R161). -/
def WorkRegs.clipped (x y w h : Coord) (r : WorkRegs) : WorkRegs :=
  { r with wx0 := x, wy0 := y, weff := w, heff := h, wx1 := x + w - 1, wy1 := y + h - 1 }

/-- The pixel count `w' * h'` (R163: it fits `CNT_BITS`). -/
def pixelCount (w h : Coord) : Nat := w.toNat * h.toNat

/-- Which bitmap entry feeds position `i` (R172); `w'` the clipped width, `w` the requested one. -/
def bitmapIndex (mode : ClipMode) (w' w : Coord) (i : Nat) : Nat :=
  match mode with
  | .fromFront => i
  | .strided => i / w'.toNat * w.toNat + i % w'.toNat

/-- The entry that position `SIDX` of the request in progress needs: `idx(SIDX)`. -/
def State.entryIndex (s : State) : Nat :=
  bitmapIndex s.params.clipMode s.work.weff s.req.rw s.work.sidx.toNat

/-- `MemRead(src, i, 1)` (R63): an entry the caller does not have is never answered (R65). -/
def State.memRead (s : State) (i : Nat) : Option Pixel := s.src[i]?

end Sys2Proof.Machine
end

