-- ==== Sys2Proof/Machine/Ops.lean ====
section
/-! DEFINITION. The operations the meanings share: emitting an event (R30), raising a model fault (R203), running one
operation after another, and the transport primitives of R111 to R115. -/

namespace Sys2Proof.Machine

/-- `emit(e)` (R16, R30): append to `TRACE`, apply the effect on the line-state registers; the panel sees the event (R53). -/
def State.emit (e : Event) (s : State) : State :=
  { s with
    lines := s.lines.after e
    trace := s.trace ++ [e]
    panel := s.panel.see s.params s.lines.dir e }

/-- `emit(l)` for a list: its events in order. -/
def State.emitAll : List Event → State → State
  | [], s => s
  | e :: es, s => State.emitAll es (s.emit e)

/-- `FAULT <- f` if `FAULT = none` (R203); it is never cleared (R31). -/
def State.recordFault (f : Fault) (s : State) : State :=
  { s with fault := some (s.fault.getD f) }

/-- `raise f` (R203): record the fault and stop with what `FAULT` then holds. The block has no trap entry and no return
(R209, R210): the first fault ends the run and no state is reached (R31; log 8). -/
def raise (f : Fault) (s : State) : Result :=
  match (s.recordFault f).fault with
  | some g => .fault g
  | none => .fault f

/-- Run `k` where the operation before it answered a next state. -/
def thenDo (r : Result) (k : State → Result) : Result :=
  match r with
  | .next s => k s
  | .fault f => .fault f
  | .refused q => .refused q

/-! ### Sessions (R15) -/

/-- `CmdSession(op)`. -/
def cmdSession (op : Byte) : List Event := [.sel, .frm .C, .byte op, .desel]

/-- `DataSession(bs)`. -/
def dataSession (bs : List Byte) : List Event := [.sel, .frm .D] ++ bs.map .byte ++ [.desel]

/-! ### Transport primitives (R111 to R115) -/

/-- SELECT (R111). -/
def selectOp (s : State) : Result :=
  if s.lines.csSel then raise .nestedSession s else .next (s.emit .sel)

/-- DESELECT (R112). -/
def deselectOp (s : State) : Result :=
  if s.lines.csSel then .next (s.emit .desel) else raise .unpairedDeselect s

/-- SET_CMD_FRAMING and SET_DATA_FRAMING (R113, R114). -/
def setFraming (f : Framing) (s : State) : Result :=
  if s.lines.csSel && s.lines.sessDirty && decide (s.lines.dcFrm ≠ some f) then raise .framingChangeInSession s
  else .next (s.emit (.frm f))

/-- WRITE (R115). -/
def writeOp (bs : List Byte) (s : State) : Result :=
  if !s.lines.csSel || s.lines.dcFrm.isNone then raise .writeOutsideSession s
  else .next (s.emitAll (bs.map .byte))

/-- SEND_CMD (R131): `SELECT(); SET_CMD_FRAMING(); WRITE([op]); DESELECT()`. -/
def sendCmdOp (op : Byte) (s : State) : Result :=
  thenDo (selectOp s) fun s => thenDo (setFraming .C s) fun s => thenDo (writeOp [op] s) deselectOp

/-- SEND_DATA (R132): `SELECT(); SET_DATA_FRAMING(); WRITE(bytes); DESELECT()`. -/
def sendDataOp (bs : List Byte) (s : State) : Result :=
  thenDo (selectOp s) fun s => thenDo (setFraming .D s) fun s => thenDo (writeOp bs s) deselectOp

/-! ### Requests (R27) -/

/-- `SEQ <- k` (R16): the sequencer moves to position `k` of the plan. -/
def State.goto (k : Nat) (s : State) : State := { s with seq := k }

/-- When `SEQ = len(PLAN)` the block sets `BUSY <- 0`, and INITIALIZE's `INIT_STATE <- DONE` comes after its last event
(R27, R190). -/
def State.finish (s : State) : State :=
  { s with busy := false, initState := if s.initState = .running then .done else s.initState }

/-- The request is complete as soon as its plan is exhausted (R27: an empty plan completes at once; log 5). -/
def State.settle (s : State) : State := if s.seq < s.plan.length then s else s.finish

/-- Acceptance (R27): `BUSY <- 1`, the plan is there, `SEQ <- 0`. -/
def State.load (plan : List PlanItem) (s : State) : State :=
  State.settle (State.goto 0 { s with busy := true, plan := plan })

/-- A request is accepted where `REQ_READY = not BUSY` holds; otherwise it has no effect (R33; log 19). -/
def whenReady (s : State) (k : Result) : Result := if s.busy then .next s else k

/-- The descriptor's fields are in the operand registers (R88). -/
def State.latch (r : ReqRegs) (s : State) : State := { s with req := r }

end Sys2Proof.Machine
end

