-- ==== Sys2Proof/Machine/Init.lean ====
section
/-! DEFINITION. The initialization sequencer (spec/44_init_sequencer.md). -/

namespace Sys2Proof.Machine

/-- The reset pulse with its two delays (R191, R192). -/
def resetPulse (p : Params) : List Event :=
  match p.placement with
  | .between => [.rst .inactive, .sleep p.tRst1, .rst .active, .sleep p.tRst2, .rst .inactive]
  | .afterEdges => [.rst .inactive, .rst .active, .sleep p.tRst1, .rst .inactive, .sleep p.tRst2]

/-- `InitPlan` (R191). -/
def initPlan (p : Params) : List Event :=
  [.cfgOut] ++ resetPulse p ++ [.bl]
    ++ cmdSession p.opcSlpout ++ [.sleep p.tSlpout]
    ++ cmdSession p.opcColmod ++ dataSession [p.parColmod16bpp]
    ++ cmdSession p.opcMadctl ++ dataSession [p.parMadctlNorot]
    ++ cmdSession p.opcDispon ++ [.sleep p.tDispon]

/-- INITIALIZE (R191): once per power cycle (R194); `INIT_STATE <- RUNNING` at acceptance (R190). -/
def execInitPanel (x y w h : Coord) (color : Pixel) (s : State) : Result :=
  whenReady s
    (if s.initState ≠ .notRun then raise .initTwice s
     else .next (State.load ((initPlan s.params).map .ev)
       { s.latch (latched 0x0 x y w h color) with initState := .running }))

end Sys2Proof.Machine
end

