-- ==== Sys2Proof/Machine/Protocol.lean ====
section
/-! DEFINITION. The command protocol and the seven wire commands (spec/41_command_protocol.md). A command and its
parameters are two sessions (R83). -/

namespace Sys2Proof.Machine

/-- SEND_CMD (R131): the opcode is not checked. -/
def execSendCmd (op : Byte) (s : State) : Result := sendCmdOp op s

/-- SEND_DATA (R132): the whole list in one session, the empty list too. -/
def execSendData (bytes : List Byte) (s : State) : Result := sendDataOp bytes s

/-- SLPOUT (R134). -/
def execSlpout (s : State) : Result := sendCmdOp s.params.opcSlpout s

/-- DISPON (R135). -/
def execDispon (s : State) : Result := sendCmdOp s.params.opcDispon s

/-- CASET (R136): the column range. -/
def execCaset (x0 x1 : Coord) (s : State) : Result :=
  thenDo (sendCmdOp s.params.opcCaset s) (sendDataOp (addr4 x0 x1))

/-- RASET (R137): the row range. -/
def execRaset (y0 y1 : Coord) (s : State) : Result :=
  thenDo (sendCmdOp s.params.opcRaset s) (sendDataOp (addr4 y0 y1))

/-- RAMWR (R138): no parameter; the pixel payload is not part of it. -/
def execRamwr (s : State) : Result := sendCmdOp s.params.opcRamwr s

/-- MADCTL (R139). -/
def execMadctl (s : State) : Result :=
  thenDo (sendCmdOp s.params.opcMadctl s) (sendDataOp [s.params.parMadctlNorot])

/-- COLMOD (R140). -/
def execColmod (s : State) : Result :=
  thenDo (sendCmdOp s.params.opcColmod s) (sendDataOp [s.params.parColmod16bpp])

end Sys2Proof.Machine
end

