-- ==== Sys2Proof/Machine/Window.lean ====
section
/-! DEFINITION. The addressing window engine (spec/42_window_engine.md). -/

namespace Sys2Proof.Machine

/-- The precondition of SET_WINDOW (R150). -/
def windowInside (p : Params) (x0 y0 x1 y1 : Coord) : Bool :=
  decide (x0 ≤ x1) && decide (x1 < p.width) && decide (y0 ≤ y1) && decide (y1 < p.height)

/-- `WindowPlan` (R151): rows first, columns second, memory-write last; the row command carries y, the column command x
(R153). -/
def windowPlan (p : Params) (x0 y0 x1 y1 : Coord) : List Event :=
  cmdSession p.opcRaset ++ dataSession (addr4 y0 y1) ++ cmdSession p.opcCaset ++ dataSession (addr4 x0 x1)
    ++ cmdSession p.opcRamwr

/-- SET_WINDOW (R151): a window that breaks the precondition raises `BadWindow` and emits nothing (R152). A direct use takes
its operands from the presented word and neither reads nor loads `WX0`, `WY0`, `WX1`, `WY1` (DESIGN CHOICE, log 28). -/
def execSetWindow (x0 y0 x1 y1 : Coord) (s : State) : Result :=
  if windowInside s.params x0 y0 x1 y1 then
    thenDo (sendCmdOp s.params.opcRaset s) fun s =>
    thenDo (sendDataOp (addr4 y0 y1) s) fun s =>
    thenDo (sendCmdOp s.params.opcCaset s) fun s =>
    thenDo (sendDataOp (addr4 x0 x1) s) fun s =>
    sendCmdOp s.params.opcRamwr s
  else raise (.badWindow x0 y0 x1 y1) s

end Sys2Proof.Machine
end

