-- ==== Sys2Proof/Machine/Streaming.lean ====
section
/-! DEFINITION. Clipping and the pixel streaming engine (spec/43_pixel_streaming.md). A drawing request is accepted here,
with its plan; the step then emits the plan (R27). -/

namespace Sys2Proof.Machine

/-- CLIP (R161): it emits nothing and writes the working registers only in the `Window` outcome. A direct use takes its
operands from the presented word, not from `RX`, `RY`, `RW`, `RH` (DESIGN CHOICE, log 28). -/
def execClip (x y w h : Coord) (s : State) : Result :=
  match clip s.params x y w h with
  | .nothing => .next s
  | .window x y w h => .next { s with work := s.work.clipped x y w h }

/-- `n` copies of the items of one pixel. -/
def repeatItems : Nat → List PlanItem → List PlanItem
  | 0, _ => []
  | n + 1, l => l ++ repeatItems n l

/-- The items of one fill pixel: the colour's high byte, then its low byte (R85). -/
def fillPixel (c : Pixel) : List PlanItem := [.ev (.byte (hi8 c)), .fillLow (lo8 c)]

/-- The items of one bitmap pixel (R171). -/
def bitmapPixel : List PlanItem := [.bitmapHigh, .bitmapLow]

/-- The plan of a drawing request that draws `w` by `h` pixels at `(x, y)` (R166, R170): the window, then one data session
with the whole payload (R173). -/
def streamPlan (p : Params) (x y w h : Coord) (pixel : List PlanItem) : List PlanItem :=
  (windowPlan p x y (x + w - 1) (y + h - 1)).map .ev
    ++ [.openStream (BitVec.ofNat 32 (pixelCount w h)), .ev (.frm .D)]
    ++ repeatItems (pixelCount w h) pixel ++ [.ev .desel]

/-- The common shape of the drawing requests (R165), on the operands in the registers: the initialization check first
(R205), then CLIP, then the plan; `Nothing` has an empty plan (R174). The plan begins with a `SELECT()`, which raises
`NestedSession` where a direct SELECT has left a session open (R111, R239); faults are raised at acceptance (R209; log
27). -/
def startDrawing (pixel : List PlanItem) (s : State) : Result :=
  if s.initState ≠ .done then raise .useBeforeInit s
  else
    match clip s.params s.req.rx s.req.ry s.req.rw s.req.rh with
    | .nothing => .next (s.load [])
    | .window x y w h =>
      if s.lines.csSel then raise .nestedSession s
      else .next (State.load (streamPlan s.params x y w h pixel) { s with work := s.work.clipped x y w h })

/-- FILL_RECT (R166). -/
def execFillRect (x y w h : Coord) (color : Pixel) (s : State) : Result :=
  whenReady s (startDrawing (fillPixel color) (s.latch (latched 0x1 x y w h color)))

/-- FILL_SCREEN (R168): after the latch the rectangle registers hold the whole panel, then as FILL_RECT. -/
def execFillScreen (x y w h : Coord) (color : Pixel) (s : State) : Result :=
  whenReady s (startDrawing (fillPixel color)
    (s.latch { latched 0x2 x y w h color with rx := 0, ry := 0, rw := s.params.width, rh := s.params.height }))

/-- DRAW_BITMAP (R170): the pixels come from the source port. -/
def execDrawBitmap (x y w h : Coord) (color : Pixel) (s : State) : Result :=
  whenReady s (startDrawing bitmapPixel (s.latch (latched 0x3 x y w h color)))

end Sys2Proof.Machine
end

