-- ==== Sys2Proof/Machine/Transport.lean ====
section
/-! DEFINITION. Bus transport, timing and control lines: the nine internal operations of spec/40_bus_transport.md. -/

namespace Sys2Proof.Machine

/-- SELECT (R111). -/
def execSelect (s : State) : Result := selectOp s

/-- DESELECT (R112). -/
def execDeselect (s : State) : Result := deselectOp s

/-- SET_CMD_FRAMING (R113). -/
def execSetCmdFraming (s : State) : Result := setFraming .C s

/-- SET_DATA_FRAMING (R114). -/
def execSetDataFraming (s : State) : Result := setFraming .D s

/-- WRITE (R115). -/
def execWrite (bytes : List Byte) (s : State) : Result := writeOp bytes s

/-- SLEEP_MS (R116): the sleep always completes; its event is all that is kept of it. -/
def execSleepMs (d : Nat) (s : State) : Result := .next (s.emit (.sleep d))

/-- CFG_OUT (R117). -/
def execCfgOut (s : State) : Result := .next (s.emit .cfgOut)

/-- RST_SET (R118). -/
def execRstSet (l : RstLevel) (s : State) : Result := .next (s.emit (.rst l))

/-- BL_ENABLE (R119). -/
def execBlEnable (s : State) : Result := .next (s.emit .bl)

end Sys2Proof.Machine
end

