-- ==== Sys2Proof/Machine/Dispatch.lean ====
section
/-! DEFINITION. One arm per instruction. -/

namespace Sys2Proof.Machine

def exec (i : Instr) (s : State) : Host.Outcome State Fault Refusal :=
  match i with
  | .select => Sys2Proof.Machine.execSelect s
  | .deselect => Sys2Proof.Machine.execDeselect s
  | .setCmdFraming => Sys2Proof.Machine.execSetCmdFraming s
  | .setDataFraming => Sys2Proof.Machine.execSetDataFraming s
  | .write bytes => Sys2Proof.Machine.execWrite bytes s
  | .sleepMs d => Sys2Proof.Machine.execSleepMs d s
  | .cfgOut => Sys2Proof.Machine.execCfgOut s
  | .rstSet l => Sys2Proof.Machine.execRstSet l s
  | .blEnable => Sys2Proof.Machine.execBlEnable s
  | .sendCmd op => Sys2Proof.Machine.execSendCmd op s
  | .sendData bytes => Sys2Proof.Machine.execSendData bytes s
  | .setWindow x0 y0 x1 y1 => Sys2Proof.Machine.execSetWindow x0 y0 x1 y1 s
  | .clip x y w h => Sys2Proof.Machine.execClip x y w h s
  | .initPanel x y w h color => Sys2Proof.Machine.execInitPanel x y w h color s
  | .fillRect x y w h color => Sys2Proof.Machine.execFillRect x y w h color s
  | .fillScreen x y w h color => Sys2Proof.Machine.execFillScreen x y w h color s
  | .drawBitmap x y w h color => Sys2Proof.Machine.execDrawBitmap x y w h color s
  | .slpout => Sys2Proof.Machine.execSlpout s
  | .dispon => Sys2Proof.Machine.execDispon s
  | .caset x0 x1 => Sys2Proof.Machine.execCaset x0 x1 s
  | .raset y0 y1 => Sys2Proof.Machine.execRaset y0 y1 s
  | .ramwr => Sys2Proof.Machine.execRamwr s
  | .madctl => Sys2Proof.Machine.execMadctl s
  | .colmod => Sys2Proof.Machine.execColmod s

end Sys2Proof.Machine
end

