-- ==== Sys2Proof/Machine/Sequencer.lean ====
section
/-! DEFINITION. Request execution: one item of the plan a step (R27 of spec/10_state.md). -/

namespace Sys2Proof.Machine

/-- What one plan item does; `none` where the bitmap source does not answer (R34, R65). -/
def PlanItem.run (s : State) : PlanItem → Option State
  | .ev e => some (s.emit e)
  | .openStream n => some { s.emit .sel with work := s.work.streamStart n }
  | .fillLow b => some { s.emit (.byte b) with work := s.work.pixelSent }
  | .bitmapHigh =>
    match s.memRead s.entryIndex with
    | some p => some { s.emit (.byte (hi8 p)) with pix := p }
    | none => none
  | .bitmapLow => some { s.emit (.byte (lo8 s.pix)) with work := s.work.pixelSent }

/-- `emit(PLAN[SEQ]); SEQ <- SEQ + 1`, and the request completes when the plan is exhausted (R27). Where the source never
answers the block waits, with the session open and `BUSY = 1`: stuck, not faulted (R65, R206; log 7). -/
def advance (s : State) : Result :=
  match s.plan[s.seq]? with
  | none => .next s.finish
  | some item =>
    match item.run s with
    | none => .next s
    | some t => .next (State.settle (t.goto (s.seq + 1)))

end Sys2Proof.Machine
end

