-- ==== Sys2Proof/Machine/Fetch.lean ====
section
/-! DEFINITION. Taking what the caller presents (R33 of spec/10_state.md). -/

namespace Sys2Proof.Machine

/-- The name under which the machine refuses a word that is no instruction (R91, R203). -/
def refusalOf : DecodeError → Refusal
  | .reservedRequest op => .reservedRequest op
  | .noInternalOperation code => .noInternalOperation code
  | .noWireCommand b => .noWireCommand b
  | .malformedOperands => .malformedOperands

/-- The first presented word is taken; its bitmap source is at the source port. -/
def State.take (q : Presented) (rest : List Presented) (s : State) : State := { s with port := rest, src := q.src }

/-- A request that has just been accepted emits its first event in the same step, so that no state between two steps
shows an accepted INITIALIZE whose lines are not driven yet (R32 c; log 5). -/
def firstEvent (s : State) : Result := if s.busy then advance s else .next s

/-- The caller presents the word whose bits are `w`, in front of all it presents, to an idle block with no fault; the bitmap
source already at the source port stays there. -/
def State.present (s : State) (nbits w : Nat) : State :=
  { s with
    busy := false
    fault := none
    port := { word := tableWord s.params nbits w, src := s.src } :: s.port }

end Sys2Proof.Machine
end

