-- ==== Sys2Proof/Machine/Step.lean ====
section
/-! DEFINITION. One step of the machine. -/

namespace Sys2Proof.Machine

/-- A recorded fault ends the run (R31). A busy block emits the next event of its plan (R27). An idle block takes what the
caller presents, if anything (R33); a word that is no instruction is refused by name (R91). With nothing presented the
block stays idle (R231; log 20). -/
def step (s : State) : Host.Outcome State Fault Refusal :=
  match s.fault with
  | some f => .fault f
  | none =>
    if s.busy then advance s
    else
      match s.port with
      | [] => .next s
      | q :: rest =>
        match decode s.params q.word with
        | .error e => .refused (refusalOf e)
        | .ok i => thenDo (exec i (s.take q rest)) firstEvent

/-- The next step runs the instruction whose bits are `w`: the word stands first at the port of an idle block. -/
def State.withFetchWord (s : State) (nbits w : Nat) : State := s.present nbits w

end Sys2Proof.Machine
end

