-- ==== Sys2Proof/Machine/Ports.lean ====
section
/-! DEFINITION. The signals of the ports (R33, R34 of spec/10_state.md) and the pins (R36, R12), all functions of the state. -/

namespace Sys2Proof.Machine

/-- `REQ_VALID`: the caller presents something. A direct use of an internal operation or a wire command is not on the request
port of R33; the model has one list for all presented words, and asserts the signal for any of them (DESIGN CHOICE, log
6). -/
def State.reqValid (s : State) : Bool := !s.port.isEmpty

/-- `REQ_READY = not BUSY` (R33). -/
def State.reqReady (s : State) : Bool := !s.busy

/-- `SRC_REQ` and `SRC_IDX`: the entry the block asks for, while the next item of the plan reads one (R34, R171). -/
def State.srcRequest (s : State) : Option Nat :=
  if s.busy && decide (s.plan[s.seq]? = some .bitmapHigh) then some s.entryIndex else none

/-- `SRC_VALID` and `SRC_DATA`: the caller's answer. -/
def State.srcAnswer (s : State) : Option Pixel := s.srcRequest.bind s.memRead

/-- The level of a line that is `asserted` or not and whose asserted level is high or not. -/
def pinLevel (assertedHigh asserted : Bool) : Bool := asserted == assertedHigh

/-- The chip-select pin; `none` while the block does not drive it (R22). -/
def State.csPin (s : State) : Option Bool :=
  if s.lines.dir then some (pinLevel s.params.pins.csActiveHigh s.lines.csSel) else none

/-- The framing pin; `none` while it is not driven or its level is `unknown`. -/
def State.dcPin (s : State) : Option Bool :=
  if s.lines.dir then s.lines.dcFrm.map fun f => pinLevel s.params.pins.dcCommandHigh (decide (f = .C)) else none

/-- The panel reset pin; `none` while it is not driven or its level is `unknown`. -/
def State.rstPin (s : State) : Option Bool :=
  if s.lines.dir then s.lines.rstLvl.map fun l => pinLevel s.params.pins.rstActiveHigh (decide (l = .active)) else none

/-- The backlight pin. -/
def State.blPin (s : State) : Option Bool :=
  if s.lines.dir then some (pinLevel s.params.pins.blOnHigh s.lines.blOn) else none

/-- The bits of a byte in the order they go out (`BIT_ORDER` of R12, R60). -/
def serialBits (q : PinParams) (b : Byte) : List Bool :=
  if q.msbFirst then (List.range 8).map fun i => b.getLsbD (7 - i) else (List.range 8).map fun i => b.getLsbD i

end Sys2Proof.Machine
end

