-- ==== Sys2Proof/Safety.lean ====
section
/-! DEFINITION. The terms claims are stated in: runs and their ends (R41 of spec/10_state.md), the traces of the requests
(R166, R168, R170), frames, and the invariants of R32, R76 and R53. -/

namespace Sys2Proof.Machine

/-! ### Runs -/

/-- `k` steps of the machine. -/
def runFor (k : Nat) (s : State) : Result := Host.Core.run Sys2Proof.core k s

/-- The end of a run (R41): the last request is complete, no session is open, the plan is exhausted, nothing is pending and
no fault is recorded. -/
def State.final (s : State) : Prop :=
  s.busy = false ∧ s.lines.csSel = false ∧ s.seq = s.plan.length ∧ s.port = [] ∧ s.fault = none

/-- The block waits for a bitmap entry that never comes (R65, R206): busy, the session open, no fault, and the step
changes nothing. -/
def State.stuck (s : State) : Prop :=
  s.busy = true ∧ s.lines.csSel = true ∧ s.fault = none ∧ step s = .next s

/-- A request whose next step takes the first presented word: an idle block without a recorded fault. -/
def State.presents (s : State) (i : Instr) (src : List Pixel) (rest : List Presented) : Prop :=
  s.fault = none ∧ s.busy = false ∧ s.port = { word := encode s.params i, src := src } :: rest

/-! ### The traces of the drawing requests -/

/-- `rep(n, l)` of R13. -/
def rep {α : Type} (n : Nat) (l : List α) : List α := (List.replicate n l).flatten

/-- The two bytes of a pixel, high byte first (R85). -/
def pixelBytes (v : Pixel) : List Byte := [hi8 v, lo8 v]

/-- `FillPlan(x, y, w, h, c)` (R166). -/
def fillTrace (p : Params) (x y w h : Coord) (c : Pixel) : List Event :=
  match clip p x y w h with
  | .nothing => []
  | .window x y w' h' =>
    windowPlan p x y (x + w' - 1) (y + h' - 1) ++ dataSession (rep (w'.toNat * h'.toNat) (pixelBytes c))

/-- The bitmap entries a request reads, in order: `idx(0)` to `idx(n-1)` (R171). -/
def entriesRead (p : Params) (w w' h' : Coord) : List Nat :=
  (List.range (w'.toNat * h'.toNat)).map (bitmapIndex p.clipMode w' w)

/-- `BitmapPlan(x, y, w, h, P)` (R170). -/
def bitmapTrace (p : Params) (x y w h : Coord) (P : List Pixel) : List Event :=
  match clip p x y w h with
  | .nothing => []
  | .window x y w' h' =>
    windowPlan p x y (x + w' - 1) (y + h' - 1)
      ++ dataSession ((entriesRead p w w' h').flatMap fun i => pixelBytes (P.getD i 0))

/-- The source holds every entry the request reads. -/
def sourceSuffices (p : Params) (x y w h : Coord) (P : List Pixel) : Prop :=
  match clip p x y w h with
  | .nothing => True
  | .window _ _ w' h' => ∀ i ∈ entriesRead p w w' h', i < P.length

/-! ### Frames -/

/-- Everything but the line-state registers, `TRACE` and the panel is unchanged: no operand, working or sequencer
register, no status, no port. -/
def onlyBusChanged (s t : State) : Prop :=
  t.params = s.params ∧ t.initState = s.initState ∧ t.busy = s.busy ∧ t.req = s.req ∧ t.work = s.work ∧
    t.pix = s.pix ∧ t.plan = s.plan ∧ t.seq = s.seq ∧ t.fault = s.fault ∧ t.port = s.port ∧ t.src = s.src

/-- Every cell of the pixel memory reads as before. -/
def sameCells (s t : State) : Prop := ∀ c r, t.panel.gram.read c r = s.panel.gram.read c r

/-- The outside of the block is unchanged by acceptance: no event, no line, no panel, no port. -/
def nothingEmitted (s t : State) : Prop :=
  t.trace = s.trace ∧ t.lines = s.lines ∧ t.panel = s.panel ∧ t.port = s.port ∧ t.src = s.src ∧ t.pix = s.pix ∧
    t.fault = s.fault ∧ t.params = s.params

/-- The line-state registers after a list of events, in order (R30). -/
def Lines.afterAll : List Event → Lines → Lines
  | [], l => l
  | e :: es, l => Lines.afterAll es (l.after e)

/-! ### The panel over a list of events (R53, R66) -/

/-- The panel sees the events in order, through lines that are driven from `CFG_OUT` on (R22). -/
def Panel.replay (p : Params) : Bool → Panel → List Event → Panel
  | _, P, [] => P
  | driven, P, e :: es => Panel.replay p (dirAfter e driven) (P.see p driven e) es

/-- The panel between two requests, as R75 supposes it. -/
def Panel.quiet (P : Panel) : Prop :=
  P.ready = true ∧ P.bad = false ∧ P.sel = false ∧ P.cmd = none ∧ P.half = none ∧ P.pulse = .released

/-! ### The shape of the trace (R32 d) -/

/-- Where a trace stands with respect to sessions. -/
inductive Phase where
  /-- No session is open. -/
  | closed
  /-- After `SEL`: a framing must follow. -/
  | selected
  /-- The framing is set: bytes, then `DESEL`. -/
  | framed
  deriving DecidableEq, Repr

/-- One event of a well-shaped trace; `none` where R32 d does not allow it. -/
def Phase.next : Phase → Event → Option Phase
  | .closed, .sel => some .selected
  | .closed, .desel => none
  | .closed, .frm _ => none
  | .closed, .byte _ => none
  | .closed, .cfgOut => some .closed
  | .closed, .rst _ => some .closed
  | .closed, .bl => some .closed
  | .closed, .sleep _ => some .closed
  | .selected, .frm _ => some .framed
  | .selected, _ => none
  | .framed, .byte _ => some .framed
  | .framed, .desel => some .closed
  | .framed, _ => none

/-- The phase after a list of events, from `q`. -/
def Phase.after : Phase → List Event → Option Phase
  | q, [] => some q
  | q, e :: es => (q.next e).bind fun q' => q'.after es

/-- An event that a plan item may emit: a bitmap item may emit any byte. -/
def PlanItem.emits : PlanItem → Event → Prop
  | .ev e, e' => e' = e
  | .openStream _, e' => e' = .sel
  | .fillLow b, e' => e' = .byte b
  | .bitmapHigh, e' => ∃ b, e' = .byte b
  | .bitmapLow, e' => ∃ b, e' = .byte b

/-- The events that a list of plan items may emit. -/
def mayEmit (items : List PlanItem) (es : List Event) : Prop := List.Forall₂ PlanItem.emits items es

/-- The caller uses the request port only (R32 speaks of such runs; R120). -/
def State.requestsOnly (s : State) : Prop := ∀ q ∈ s.port, ∃ d, q.word = .request d

/-- R32 a and d: the trace is well shaped, `CS_SEL` tells whether a session is open, none is open between requests, and
what is left of the plan closes the session it stands in. -/
def State.sessionInv (s : State) : Prop :=
  s.requestsOnly ∧ (s.busy = true → s.seq < s.plan.length) ∧
    ∃ q, Phase.closed.after s.trace = some q ∧ (s.lines.csSel = true ↔ q ≠ .closed) ∧
      (s.busy = false → q = .closed) ∧
      (s.busy = true → ∀ es, mayEmit (s.plan.drop s.seq) es → q.after es = some .closed)

/-! ### The initialization (R21, R32 b, c, e) -/

/-- R32 b, c and e with what makes them inductive: before INITIALIZE nothing has been emitted; while it runs the trace is
the part of `InitPlan` sent so far; afterwards the trace begins with the whole of it. -/
def State.initInv (s : State) : Prop :=
  s.requestsOnly ∧ (s.busy = true → s.seq < s.plan.length) ∧
    match s.initState with
    | .notRun => s.trace = [] ∧ s.busy = false ∧ s.lines.dir = false
    | .running =>
      s.busy = true ∧ s.req.op = 0 ∧ s.lines.dir = true ∧ s.plan = (initPlan s.params).map .ev ∧ 0 < s.seq ∧
        s.trace = (initPlan s.params).take s.seq
    | .done => s.lines.dir = true ∧ initPlan s.params <+: s.trace ∧ (s.busy = true → s.req.op ≠ 0)

/-! ### The panel is never driven in an undefined way (R76) -/

/-- R76 made inductive: the panel is at power-on before INITIALIZE and quiet between requests; while a request runs, what
is left of its plan, whatever the bitmap holds, leaves the panel quiet. -/
def State.panelInv (s : State) : Prop :=
  s.params.wf = true ∧ s.initInv ∧ s.panel.bad = false ∧
    (s.busy = false → s.initState = .notRun → s.panel = Panel.powerOn) ∧
    (s.busy = false → s.initState = .done → s.panel.quiet) ∧
    (s.busy = true → ∀ es, mayEmit (s.plan.drop s.seq) es →
      (s.panel.replay s.params s.lines.dir es).quiet)

/-! ### The bitmap source port (R34) -/

/-- The port "is used only while a DRAW_BITMAP request is executing": a plan that reads an entry is a DRAW_BITMAP's. -/
def State.sourceInv (s : State) : Prop := s.busy = true → PlanItem.bitmapHigh ∈ s.plan → s.req.op = 0x3

/-! ### The panel's own invariant -/

/-- The window and the pointer lie inside the panel (R50, R55, R56). -/
def PanelAddr.inside (p : Params) : PanelAddr → Prop
  | .undef => True
  | .rows ys ye => ys ≤ ye ∧ ye < p.height
  | .rowsCols ys ye xs xe => ys ≤ ye ∧ ye < p.height ∧ xs ≤ xe ∧ xe < p.width
  | .writing xs xe ys ye c r =>
    ys ≤ ye ∧ ye < p.height ∧ xs ≤ xe ∧ xe < p.width ∧ xs ≤ c ∧ c ≤ xe ∧ ys ≤ r ∧ r ≤ ye
  | .exhausted xs xe ys ye => ys ≤ ye ∧ ye < p.height ∧ xs ≤ xe ∧ xe < p.width

/-- The canonical form of the pixel memory, which holds only cells of the panel (R50) and none once `P_BAD` is set (R61);
the pointer stays inside the panel; a ready panel has had its reset pulse (R53). -/
def Panel.sound (p : Params) (P : Panel) : Prop :=
  P.gram.wf = true ∧ (∀ c r, P.gram.read c r ≠ none → c < p.width ∧ r < p.height) ∧
    (P.bad = true → P.gram = []) ∧ P.addr.inside p ∧ (P.ready = true → P.pulse = .released)

/-! ### Programs of requests (R41) -/

/-- What one presented request adds to the trace once the panel is initialized. -/
def requestTrace (p : Params) (q : Presented) : List Event :=
  match decode p q.word with
  | .ok (.fillRect x y w h c) => fillTrace p x y w h c
  | .ok (.fillScreen _ _ _ _ c) => fillTrace p 0 0 p.width p.height c
  | .ok (.drawBitmap x y w h _) => bitmapTrace p x y w h q.src
  | _ => []

/-- A presented word is a drawing request, and the bitmap source answers every read it needs. -/
def drawable (p : Params) (q : Presented) : Prop :=
  match decode p q.word with
  | .ok (.fillRect _ _ _ _ _) => True
  | .ok (.fillScreen _ _ _ _ _) => True
  | .ok (.drawBitmap x y w h _) => sourceSuffices p x y w h q.src
  | _ => False

end Sys2Proof.Machine
end

