-- ==== Sys2Proof/Certificates/Slice0/Obligations.lean ====
section
/-! DEFINITION. The statements for the provers. -/

open Sys2Proof Sys2Proof.Machine

/-! ### Reset -/

/-- R40: every element of the block to which the spec gives a reset value has it. -/
def Obligations.ResetValuesOfTheBlock : Prop :=
  State.reset.initState = .notRun ∧ State.reset.lines.dir = false ∧ State.reset.lines.csSel = false ∧
    State.reset.lines.dcFrm = none ∧ State.reset.lines.sessDirty = false ∧ State.reset.lines.rstLvl = none ∧
    State.reset.lines.blOn = false ∧ State.reset.busy = false ∧ State.reset.plan = [] ∧ State.reset.seq = 0 ∧
    State.reset.trace = [] ∧ State.reset.fault = none

/-- R51: the panel reference model at power-on; every cell is unknown. -/
def Obligations.PanelIsAtPowerOnAfterReset : Prop :=
  (∀ c r, State.reset.panel.gram.read c r = none) ∧ State.reset.panel.ready = false ∧
    State.reset.panel.addr = .undef ∧ State.reset.panel.cmd = none ∧ State.reset.panel.half = none ∧
    State.reset.panel.frm = none ∧ State.reset.panel.sel = false ∧ State.reset.panel.bad = false

/-! ### Encoding -/

/-- For every well-formed instruction, with every operand, decoding its word gives it back. -/
def Obligations.DecodeOfEncodeIsTheInstruction : Prop :=
  ∀ (p : Params) (i : Instr), i.wf p = true → decode p (encode p i) = .ok i

/-- A word that decodes is the word of what it decodes to: no bit of a descriptor, of a wire command or of an internal
operation's operand is ignored. SLEEP_MS (uop 0x5) is left out, since leading zero bytes of its natural operand are
the model's own freedom (log 1). -/
def Obligations.EncodeOfDecodeIsTheWord : Prop :=
  ∀ (p : Params) (q : PortWord) (i : Instr), (∀ ops, q ≠ .internal 0x5 ops) → decode p q = .ok i → encode p i = q

/-- R90, R91: decoding a descriptor is total: `op` alone decides, codes 0x0 to 0x3 select the four requests whatever the
operands, every other code is reserved. -/
def Obligations.DescriptorDecodesUnlessReserved : Prop :=
  ∀ (p : Params) (d : Descriptor),
    (d.op = 0x0 → decode p (.request d) = .ok (.initPanel d.x d.y d.w d.h d.color)) ∧
      (d.op = 0x1 → decode p (.request d) = .ok (.fillRect d.x d.y d.w d.h d.color)) ∧
      (d.op = 0x2 → decode p (.request d) = .ok (.fillScreen d.x d.y d.w d.h d.color)) ∧
      (d.op = 0x3 → decode p (.request d) = .ok (.drawBitmap d.x d.y d.w d.h d.color)) ∧
      (d.op ≠ 0x0 → d.op ≠ 0x1 → d.op ≠ 0x2 → d.op ≠ 0x3 →
        decode p (.request d) = .error (.reservedRequest d.op))

/-- Words written out from the spec's encodings (R88, R89, R91, R92, R93; the vectors V30-1 to V30-6) decode to their
instructions. The opcode bytes 0x11, 0x2A and 0x2B are R7's defaults, from general knowledge (PRESUMED, log 2); the zero
operands of table words and the operand bytes of direct uses are the model's own layout (DESIGN CHOICE, log 1). -/
def Obligations.SampleWordsDecode : Prop :=
  decodeTableWord 88 0x1006E008C00640028F800 = some (.fillRect 110 140 100 40 0xF800) ∧
    decodeTableWord 88 0x20000000000000000FFFF = some (.fillScreen 0 0 0 0 0xFFFF) ∧
    decodeTableWord 88 0x3013E00EE000200020000 = some (.drawBitmap 318 238 2 2 0) ∧
    decodeTableWord 88 0x000010002000300040005 = some (.initPanel 1 2 3 4 5) ∧
    decodeTableWord 88 0x500000000000000000000 = none ∧ decodeTableWord 88 0xF00000000000000000000 = none ∧
    decodeTableWord 8 0x0 = some .select ∧ decodeTableWord 8 0xC = some (.clip 0 0 0 0) ∧
    decodeTableWord 8 0x11 = some .slpout ∧ decodeTableWord 8 0x2A = some (.caset 0 0) ∧
    decode Config.params (.wire 0x2B [0x00, 0x8C, 0x00, 0xB3]) = .ok (.raset 140 179) ∧
    decode Config.params (.internal 0xB [0x00, 0x6E, 0x00, 0x8C, 0x00, 0xD1, 0x00, 0xB3]) = .ok (.setWindow 110 140 209 179)

/-! ### Transport, timing and control lines -/

/-- R111: SELECT opens a session and clears `SESS_DIRTY`; with a session open it faults. -/
def Obligations.SelectOpensASession : Prop :=
  ∀ s : State, s.fault = none →
    (s.lines.csSel = false → ∃ t, exec .select s = .next t ∧ t.trace = s.trace ++ [.sel] ∧
      t.lines = { s.lines with csSel := true, sessDirty := false } ∧ onlyBusChanged s t ∧
      t.panel = s.panel.see s.params s.lines.dir .sel ∧ (s.lines.dir = true → sameCells s t)) ∧
    (s.lines.csSel = true → exec .select s = .fault .nestedSession)

/-- R112: DESELECT closes the session, keeping `DC_FRM`; with none open it faults. The cells are unchanged where no half
pixel is pending. -/
def Obligations.DeselectClosesTheSession : Prop :=
  ∀ s : State, s.fault = none →
    (s.lines.csSel = true → ∃ t, exec .deselect s = .next t ∧ t.trace = s.trace ++ [.desel] ∧
      t.lines = { s.lines with csSel := false, sessDirty := false } ∧ onlyBusChanged s t ∧
      t.panel = s.panel.see s.params s.lines.dir .desel ∧
      (s.lines.dir = true → s.panel.half = none → sameCells s t)) ∧
    (s.lines.csSel = false → exec .deselect s = .fault .unpairedDeselect)

/-- R113, R114: a framing operation sets `DC_FRM`, also with no session open and also again; after a byte of the open
session under the other framing it faults. -/
def Obligations.FramingIsSetBeforeTheBytes : Prop :=
  ∀ (s : State) (f : Framing) (i : Instr), s.fault = none →
    (i = .setCmdFraming ∧ f = .C ∨ i = .setDataFraming ∧ f = .D) →
    (¬ (s.lines.csSel = true ∧ s.lines.sessDirty = true ∧ s.lines.dcFrm ≠ some f) →
      ∃ t, exec i s = .next t ∧ t.trace = s.trace ++ [.frm f] ∧ t.lines = { s.lines with dcFrm := some f } ∧
        onlyBusChanged s t ∧ t.panel = s.panel.see s.params s.lines.dir (.frm f) ∧
        (s.lines.dir = true → sameCells s t)) ∧
    (s.lines.csSel = true ∧ s.lines.sessDirty = true ∧ s.lines.dcFrm ≠ some f →
      exec i s = .fault .framingChangeInSession)

/-- R115: WRITE sends every byte of its list in order; the empty list sends nothing and leaves `SESS_DIRTY`; outside a
session, or with the framing never set, it faults. What the bytes do to the pixel memory is the panel's (R53). -/
def Obligations.WriteSendsEveryByteInOrder : Prop :=
  ∀ (s : State) (bs : List Byte), s.fault = none →
    (s.lines.csSel = true ∧ s.lines.dcFrm ≠ none → ∃ t, exec (.write bs) s = .next t ∧
      t.trace = s.trace ++ bs.map .byte ∧
      t.lines = { s.lines with sessDirty := s.lines.sessDirty || !bs.isEmpty } ∧ onlyBusChanged s t ∧
      t.panel = s.panel.replay s.params s.lines.dir (bs.map .byte)) ∧
    (s.lines.csSel = false ∨ s.lines.dcFrm = none → exec (.write bs) s = .fault .writeOutsideSession)

/-- R116, R117, R119: SLEEP_MS leaves only its event; CFG_OUT drives the lines and deselects; BL_ENABLE lights the
backlight. None of them touches the panel's reference model (R53). -/
def Obligations.TimingAndControlLinesLeaveThePanel : Prop :=
  ∀ (s : State) (d : Nat),
    (∃ t, exec (.sleepMs d) s = .next t ∧ t.trace = s.trace ++ [.sleep d] ∧ t.lines = s.lines ∧ t.panel = s.panel ∧
      onlyBusChanged s t) ∧
    (∃ t, exec .cfgOut s = .next t ∧ t.trace = s.trace ++ [.cfgOut] ∧
      t.lines = { s.lines with dir := true, csSel := false } ∧ t.panel = s.panel ∧ onlyBusChanged s t) ∧
    (∃ t, exec .blEnable s = .next t ∧ t.trace = s.trace ++ [.bl] ∧ t.lines = { s.lines with blOn := true } ∧
      t.panel = s.panel ∧ onlyBusChanged s t)

/-- R118, R232: RST_SET writes `RST_LVL` and no other element of the block; through driven lines the active level puts the
panel at power-on but for `P_BAD` (R53), and the inactive one leaves every cell. -/
def Obligations.ResetLineResetsThePanelOnly : Prop :=
  ∀ (s : State) (l : RstLevel), ∃ t, exec (.rstSet l) s = .next t ∧ t.trace = s.trace ++ [.rst l] ∧
    t.lines = { s.lines with rstLvl := some l } ∧ onlyBusChanged s t ∧
    (s.lines.dir = true → l = .active →
      t.panel.gram = [] ∧ t.panel.ready = false ∧ t.panel.addr = .undef ∧ t.panel.cmd = none ∧ t.panel.half = none ∧
        t.panel.frm = none ∧ t.panel.sel = false ∧ t.panel.bad = s.panel.bad) ∧
    (s.lines.dir = true → l = .inactive → sameCells s t ∧ t.panel.bad = s.panel.bad ∧ t.panel.addr = s.panel.addr)

/-! ### Command protocol -/

/-- R131: SEND_CMD is one complete command session of exactly one byte, unchecked; with a session open it faults. -/
def Obligations.SendCmdIsOneCommandSession : Prop :=
  ∀ (s : State) (op : Byte), s.fault = none →
    (s.lines.csSel = false → ∃ t, exec (.sendCmd op) s = .next t ∧
      t.trace = s.trace ++ [.sel, .frm .C, .byte op, .desel] ∧
      t.lines = { s.lines with csSel := false, dcFrm := some .C, sessDirty := false } ∧ onlyBusChanged s t ∧
      t.panel = s.panel.replay s.params s.lines.dir [.sel, .frm .C, .byte op, .desel]) ∧
    (s.lines.csSel = true → exec (.sendCmd op) s = .fault .nestedSession)

/-- R132: SEND_DATA is one complete data session of all its bytes, `N + 3` events, the empty list too; with a session
open it faults. -/
def Obligations.SendDataIsOneDataSession : Prop :=
  ∀ (s : State) (bs : List Byte), s.fault = none →
    (s.lines.csSel = false → ∃ t, exec (.sendData bs) s = .next t ∧
      t.trace = s.trace ++ ([.sel, .frm .D] ++ bs.map .byte ++ [.desel]) ∧ t.trace.length = s.trace.length + bs.length + 3 ∧
      t.lines = { s.lines with csSel := false, dcFrm := some .D, sessDirty := false } ∧ onlyBusChanged s t ∧
      t.panel = s.panel.replay s.params s.lines.dir ([.sel, .frm .D] ++ bs.map .byte ++ [.desel])) ∧
    (s.lines.csSel = true → exec (.sendData bs) s = .fault .nestedSession)

/-- R134 to R140: each wire command sends its opcode in a command session and, where it has parameters, these in a data
session of their own; the column opcode carries the x range, the row opcode the y range (R153). That a wire command is
presented directly is the model's choice (log 1); with a session open it then faults, because it is a SEND_CMD (R133),
which begins with a SELECT (R131, R132, R111). -/
def Obligations.WireCommandsSendTheirSessions : Prop :=
  ∀ (s : State) (a b : Coord) (i : Instr) (es : List Event), s.fault = none →
    (i, es) ∈ [
      (Instr.slpout, cmdSession s.params.opcSlpout),
      (.dispon, cmdSession s.params.opcDispon),
      (.caset a b, cmdSession s.params.opcCaset ++ dataSession [hi8 a, lo8 a, hi8 b, lo8 b]),
      (.raset a b, cmdSession s.params.opcRaset ++ dataSession [hi8 a, lo8 a, hi8 b, lo8 b]),
      (.ramwr, cmdSession s.params.opcRamwr),
      (.madctl, cmdSession s.params.opcMadctl ++ dataSession [s.params.parMadctlNorot]),
      (.colmod, cmdSession s.params.opcColmod ++ dataSession [s.params.parColmod16bpp])] →
    (s.lines.csSel = false → ∃ t, exec i s = .next t ∧ t.trace = s.trace ++ es ∧ t.lines.csSel = false ∧
      t.lines.sessDirty = false ∧ t.lines.dir = s.lines.dir ∧ t.lines.rstLvl = s.lines.rstLvl ∧
      t.lines.blOn = s.lines.blOn ∧ t.lines.dcFrm = some (if es.length = 4 then .C else .D) ∧ onlyBusChanged s t ∧
      t.panel = s.panel.replay s.params s.lines.dir es) ∧
    (s.lines.csSel = true → exec i s = .fault .nestedSession)

/-- The commands store no pixel: on a quiet panel behind driven lines each of the seven wire commands leaves every cell and
does not poison the model (R54, R55), the ranges being inside the panel. -/
def Obligations.CommandsStoreNoPixel : Prop :=
  ∀ (s : State) (a b : Coord) (i : Instr), s.fault = none → s.params.wf = true → s.panel.quiet → s.lines.dir = true →
    s.lines.csSel = false → a ≤ b →
    (i ∈ [Instr.slpout, .dispon, .ramwr, .madctl, .colmod] ∨ (i = .caset a b ∧ b < s.params.width) ∨
      (i = .raset a b ∧ b < s.params.height)) →
    ∃ t, exec i s = .next t ∧ sameCells s t ∧ t.panel.quiet

/-! ### The addressing window -/

/-- R151, R152: SET_WINDOW sends rows, columns and memory-write, 26 events, ending deselected under command framing; a
window that breaks R150's precondition raises `BadWindow`, and a good one with a session open raises `NestedSession`
(R131, R111). That it is presented directly, with its operands in the port word, is the model's choice (logs 1 and 28). -/
def Obligations.SetWindowSendsTheWholeSequence : Prop :=
  ∀ (s : State) (x0 y0 x1 y1 : Coord), s.fault = none →
    (x0 ≤ x1 ∧ x1 < s.params.width ∧ y0 ≤ y1 ∧ y1 < s.params.height → s.lines.csSel = false →
      ∃ t, exec (.setWindow x0 y0 x1 y1) s = .next t ∧
        t.trace = s.trace ++
          (cmdSession s.params.opcRaset ++ dataSession [hi8 y0, lo8 y0, hi8 y1, lo8 y1] ++
            cmdSession s.params.opcCaset ++ dataSession [hi8 x0, lo8 x0, hi8 x1, lo8 x1] ++
            cmdSession s.params.opcRamwr) ∧
        t.trace.length = s.trace.length + 26 ∧
        t.lines = { s.lines with csSel := false, dcFrm := some .C, sessDirty := false } ∧ onlyBusChanged s t ∧
        t.panel = s.panel.replay s.params s.lines.dir (windowPlan s.params x0 y0 x1 y1)) ∧
    (x0 ≤ x1 ∧ x1 < s.params.width ∧ y0 ≤ y1 ∧ y1 < s.params.height → s.lines.csSel = true →
      exec (.setWindow x0 y0 x1 y1) s = .fault .nestedSession) ∧
    (¬ (x0 ≤ x1 ∧ x1 < s.params.width ∧ y0 ≤ y1 ∧ y1 < s.params.height) →
      exec (.setWindow x0 y0 x1 y1) s = .fault (.badWindow x0 y0 x1 y1))

/-- R54, R55: on a quiet panel the window sequence sets the write pointer to the window's first column and row, changing no
cell. -/
def Obligations.WindowSequenceSetsThePointer : Prop :=
  ∀ (p : Params) (P : Panel) (x0 y0 x1 y1 : Coord), p.wf = true → P.quiet →
    x0 ≤ x1 → x1 < p.width → y0 ≤ y1 → y1 < p.height →
    (P.replay p true (windowPlan p x0 y0 x1 y1)).addr = .writing x0 x1 y0 y1 x0 y0 ∧
      (P.replay p true (windowPlan p x0 y0 x1 y1)).gram = P.gram ∧
      (P.replay p true (windowPlan p x0 y0 x1 y1)).quiet

/-! ### Clipping -/

/-- R161, over the naturals: an origin outside the panel or a zero extent gives `Nothing`; otherwise each extent is
truncated to the edge and the origin stays. -/
def Obligations.ClipTruncatesToThePanel : Prop :=
  ∀ (p : Params) (x y w h : Coord),
    (x.toNat ≥ p.width.toNat ∨ y.toNat ≥ p.height.toNat ∨ w.toNat = 0 ∨ h.toNat = 0 → clip p x y w h = .nothing) ∧
    (x.toNat < p.width.toNat → y.toNat < p.height.toNat → w.toNat ≠ 0 → h.toNat ≠ 0 →
      ∃ w' h', clip p x y w h = .window x y w' h' ∧
        w'.toNat = (if x.toNat + w.toNat > p.width.toNat then p.width.toNat - x.toNat else w.toNat) ∧
        h'.toNat = (if y.toNat + h.toNat > p.height.toNat then p.height.toNat - y.toNat else h.toNat))

/-- R162: every window CLIP returns lies inside the panel, so the precondition of SET_WINDOW holds for it. -/
def Obligations.ClippedWindowIsInsideThePanel : Prop :=
  ∀ (p : Params) (x y w h x' y' w' h' : Coord), clip p x y w h = .window x' y' w' h' →
    x' = x ∧ y' = y ∧ 1 ≤ w'.toNat ∧ w'.toNat ≤ w.toNat ∧ x.toNat + w'.toNat ≤ p.width.toNat ∧
      1 ≤ h'.toNat ∧ h'.toNat ≤ h.toNat ∧ y.toNat + h'.toNat ≤ p.height.toNat ∧
      w'.toNat = min w.toNat (p.width.toNat - x.toNat) ∧ h'.toNat = min h.toNat (p.height.toNat - y.toNat) ∧
      (x + w' - 1).toNat = x.toNat + w'.toNat - 1 ∧ (y + h' - 1).toNat = y.toNat + h'.toNat - 1 ∧
      windowInside p x y (x + w' - 1) (y + h' - 1) = true

/-- R163, R164: the pixel count of a clipped window is the number of cells of the window it sets, at least 1, and the
counter register holds it without loss. -/
def Obligations.PixelCountIsTheWindowsSize : Prop :=
  ∀ (p : Params) (x y w h w' h' : Coord), clip p x y w h = .window x y w' h' →
    1 ≤ pixelCount w' h' ∧ (BitVec.ofNat 32 (pixelCount w' h')).toNat = pixelCount w' h' ∧
      pixelCount w' h' = ((x + w' - 1).toNat - x.toNat + 1) * ((y + h' - 1).toNat - y.toNat + 1)

/-- R161: CLIP emits nothing; it writes the working registers only in the `Window` outcome, and neither the counter nor the
index. That it is presented directly, with its operands in the port word, is the model's choice (logs 1 and 28). -/
def Obligations.ClipWritesTheWorkingRegisters : Prop :=
  ∀ (s : State) (x y w h : Coord),
    (clip s.params x y w h = .nothing → exec (.clip x y w h) s = .next s) ∧
    (∀ w' h', clip s.params x y w h = .window x y w' h' →
      exec (.clip x y w h) s = .next { s with work := {
        wx0 := x, wy0 := y, wx1 := x + w' - 1, wy1 := y + h' - 1, weff := w', heff := h',
        rem := s.work.rem, sidx := s.work.sidx } })

/-! ### Requests -/

/-- R33: a step takes the first presented word, and only it, exactly when `REQ_VALID` and `REQ_READY` hold; while `BUSY = 1`,
so, nothing presented is taken and no operand register moves, and a request given to the machine then has no effect (DEDUCED, log
19). What the caller presents is a list of the model's own, direct uses in it, and `REQ_VALID` stands for all of it (log 6). -/
def Obligations.BusyBlockTakesNoRequest : Prop :=
  ∀ (s : State) (x y w h : Coord) (c : Pixel),
    (s.reqReady = true ↔ s.busy = false) ∧
    (∀ t, step s = .next t → t.port = if s.reqValid && s.reqReady then s.port.tail else s.port) ∧
    (s.busy = true →
      (∀ t, step s = .next t → t.port = s.port ∧ t.req = s.req ∧ t.src = s.src) ∧
      ∀ i ∈ [Instr.initPanel x y w h c, .fillRect x y w h c, .fillScreen x y w h c, .drawBitmap x y w h c],
        exec i s = .next s)

/-- R28, R88: an accepted request latches every field of its descriptor, the ignored ones too (DEDUCED, log 17); FILL_SCREEN
then takes the whole panel as its rectangle (R168; DEDUCED, log 18). -/
def Obligations.AcceptanceLatchesTheDescriptor : Prop :=
  ∀ (s : State) (x y w h : Coord) (c : Pixel), s.busy = false → s.initState = .done → s.lines.csSel = false →
    (∃ t, exec (.fillRect x y w h c) s = .next t ∧ nothingEmitted s t ∧
      t.req = { op := 0x1, rx := x, ry := y, rw := w, rh := h, rcolor := c }) ∧
    (∃ t, exec (.fillScreen x y w h c) s = .next t ∧ nothingEmitted s t ∧
      t.req = { op := 0x2, rx := 0, ry := 0, rw := s.params.width, rh := s.params.height, rcolor := c }) ∧
    (∃ t, exec (.drawBitmap x y w h c) s = .next t ∧ nothingEmitted s t ∧
      t.req = { op := 0x3, rx := x, ry := y, rw := w, rh := h, rcolor := c })

/-- R174, R167 b: a drawing request with its origin outside the panel or with a zero extent completes when accepted: one
step, no event, no line, no cell, nothing pending of it; the working registers keep their values. -/
def Obligations.RequestThatDrawsNothingEmitsNothing : Prop :=
  ∀ (s : State) (x y w h : Coord) (c : Pixel) (i : Instr) (src : List Pixel) (rest : List Presented),
    i = .fillRect x y w h c ∨ i = .drawBitmap x y w h c →
    s.presents i src rest → s.initState = .done →
    x.toNat ≥ s.params.width.toNat ∨ y.toNat ≥ s.params.height.toNat ∨ w.toNat = 0 ∨ h.toNat = 0 →
    ∃ t, step s = .next t ∧ t.trace = s.trace ∧ t.lines = s.lines ∧ t.panel = s.panel ∧ t.work = s.work ∧
      t.initState = s.initState ∧ t.busy = false ∧ t.plan = [] ∧ t.seq = 0 ∧ t.port = rest ∧ t.fault = none

/-- R205: a drawing request while `INIT_STATE != DONE` raises `UseBeforeInit`, also where it would draw nothing. -/
def Obligations.DrawingBeforeInitializationFaults : Prop :=
  ∀ (s : State) (x y w h : Coord) (c : Pixel), s.fault = none → s.busy = false → s.initState ≠ .done →
    ∀ i ∈ [Instr.fillRect x y w h c, .fillScreen x y w h c, .drawBitmap x y w h c], exec i s = .fault .useBeforeInit

/-- R191, R192, R193: INITIALIZE presented to a block after power-on runs to its end in 33 steps, one for each event of the
script, whatever its ignored operands, for both placements of the reset delays; then the lines are driven, the reset
line rests inactive, the backlight is on, no session is open, and a panel at power-on is ready with every cell unknown
(R195, R53). With `INIT_STATE` other than NOT_RUN it raises `InitTwice` (R194). That it ends rests on the premise that every
write and every sleep returns (R204; log 16), one event a step is the model's granularity (log 5), and that the ignored
fields are latched is R88 as read in log 17. -/
def Obligations.InitializeRunsItsScript : Prop :=
  ∀ (s : State) (x y w h : Coord) (c : Pixel) (src : List Pixel) (rest : List Presented),
    s.presents (.initPanel x y w h c) src rest →
    (s.initState ≠ .notRun → exec (.initPanel x y w h c) s = .fault .initTwice) ∧
    (s.initState = .notRun →
    (∃ a, exec (.initPanel x y w h c) s = .next a ∧ nothingEmitted s a ∧ a.initState = .running ∧ a.busy = true ∧
      a.req = { op := 0x0, rx := x, ry := y, rw := w, rh := h, rcolor := c }) ∧
    ∃ t, runFor 33 s = .next t ∧
      t.trace = s.trace ++ ([.cfgOut] ++
        (match s.params.placement with
          | .between => [.rst .inactive, .sleep s.params.tRst1, .rst .active, .sleep s.params.tRst2, .rst .inactive]
          | .afterEdges => [.rst .inactive, .rst .active, .sleep s.params.tRst1, .rst .inactive, .sleep s.params.tRst2])
        ++ [.bl] ++ cmdSession s.params.opcSlpout ++ [.sleep s.params.tSlpout] ++ cmdSession s.params.opcColmod
        ++ dataSession [s.params.parColmod16bpp] ++ cmdSession s.params.opcMadctl
        ++ dataSession [s.params.parMadctlNorot] ++ cmdSession s.params.opcDispon ++ [.sleep s.params.tDispon]) ∧
      t.initState = .done ∧ t.busy = false ∧ t.seq = t.plan.length ∧ t.port = rest ∧ t.fault = none ∧ t.work = s.work ∧
      t.params = s.params ∧
      t.lines =
        { dir := true, csSel := false, dcFrm := some .C, sessDirty := false, rstLvl := some .inactive, blOn := true } ∧
      (s.panel = Panel.powerOn → t.panel.quiet ∧ t.panel.addr = .undef ∧ ∀ c r, t.panel.gram.read c r = none))

/-- R166, R164, R173: FILL_RECT on an initialized idle block runs to its end in as many steps as its plan has events
(`29 + 2n`, or one step where it draws nothing), emitting exactly `FillPlan`; at the end no session is open and, where it
drew, `REM = 0`, `SIDX = n`, the window registers hold the clipped rectangle and the data framing rests. Before the
initialization is done it raises `UseBeforeInit`; where it draws and a direct SELECT has left a session open it raises
`NestedSession` (R111; log 27). That it ends rests on the premise that every write returns (R204; log 16); one event a step
is log 5. -/
def Obligations.FillRectEmitsFillPlan : Prop :=
  ∀ (s : State) (x y w h : Coord) (c : Pixel) (src : List Pixel) (rest : List Presented),
    s.presents (.fillRect x y w h c) src rest →
    (s.initState ≠ .done → exec (.fillRect x y w h c) s = .fault .useBeforeInit) ∧
    (s.initState = .done → s.lines.csSel = true → clip s.params x y w h ≠ .nothing →
      exec (.fillRect x y w h c) s = .fault .nestedSession) ∧
    (s.initState = .done → s.lines.csSel = false →
    (∃ a, exec (.fillRect x y w h c) s = .next a) ∧
    ∃ t, runFor (max 1 (fillTrace s.params x y w h c).length) s = .next t ∧
      t.trace = s.trace ++ fillTrace s.params x y w h c ∧ t.busy = false ∧ t.seq = t.plan.length ∧ t.port = rest ∧
      t.src = src ∧ t.fault = none ∧ t.initState = .done ∧ t.params = s.params ∧ t.pix = s.pix ∧
      t.req = { op := 0x1, rx := x, ry := y, rw := w, rh := h, rcolor := c } ∧
      t.panel = s.panel.replay s.params s.lines.dir (fillTrace s.params x y w h c) ∧
      (clip s.params x y w h = .nothing → t.lines = s.lines ∧ t.work = s.work) ∧
      ∀ w' h', clip s.params x y w h = .window x y w' h' →
        (fillTrace s.params x y w h c).length = 29 + 2 * (w'.toNat * h'.toNat) ∧
          t.lines = { s.lines with csSel := false, dcFrm := some .D, sessDirty := false } ∧
          t.work = {
            wx0 := x, wy0 := y, wx1 := x + w' - 1, wy1 := y + h' - 1, weff := w', heff := h'
            rem := 0, sidx := BitVec.ofNat 32 (w'.toNat * h'.toNat) })

/-- R168: FILL_SCREEN emits the plan of FILL_RECT over the whole panel, never empty and never truncated, whatever its
ignored operands; before the initialization is done it raises `UseBeforeInit`, and where a direct SELECT has left a session
open `NestedSession` (R111; log 27). That it ends rests on the premise that every write returns (R204; log 16); one event a
step is log 5, and what `RX` to `RH` hold is log 18. -/
def Obligations.FillScreenFillsTheWholePanel : Prop :=
  ∀ (s : State) (x y w h : Coord) (c : Pixel) (src : List Pixel) (rest : List Presented),
    s.presents (.fillScreen x y w h c) src rest → s.params.wf = true →
    (s.initState ≠ .done → exec (.fillScreen x y w h c) s = .fault .useBeforeInit) ∧
    (s.initState = .done → s.lines.csSel = true → exec (.fillScreen x y w h c) s = .fault .nestedSession) ∧
    (s.initState = .done → s.lines.csSel = false →
    (∃ a, exec (.fillScreen x y w h c) s = .next a) ∧
    ∃ t, runFor (29 + 2 * (s.params.width.toNat * s.params.height.toNat)) s = .next t ∧
      t.trace = s.trace ++ (windowPlan s.params 0 0 (s.params.width - 1) (s.params.height - 1) ++
        dataSession (rep (s.params.width.toNat * s.params.height.toNat) [hi8 c, lo8 c])) ∧
      t.busy = false ∧ t.seq = t.plan.length ∧ t.port = rest ∧ t.src = src ∧ t.fault = none ∧ t.initState = .done ∧
      t.params = s.params ∧ t.pix = s.pix ∧
      t.req = { op := 0x2, rx := 0, ry := 0, rw := s.params.width, rh := s.params.height, rcolor := c } ∧
      t.lines = { s.lines with csSel := false, dcFrm := some .D, sessDirty := false } ∧
      t.work = {
        wx0 := 0, wy0 := 0, wx1 := s.params.width - 1, wy1 := s.params.height - 1, weff := s.params.width
        heff := s.params.height, rem := 0
        sidx := BitVec.ofNat 32 (s.params.width.toNat * s.params.height.toNat) })

/-- R170, R171: DRAW_BITMAP with a source that holds every entry it reads runs to its end, emitting the entries in order,
high byte first and unchanged, in one session, for both clip modes (R172); before the initialization is done it raises
`UseBeforeInit`, and where it draws and a direct SELECT has left a session open `NestedSession` (R111; log 27). That it ends
rests on the premises that every write returns (R204; log 16) and that the source answers at once (log 7); one event a step
is log 5, and that `RCOLOR` holds the ignored colour is log 17. -/
def Obligations.DrawBitmapStreamsTheEntries : Prop :=
  ∀ (s : State) (x y w h : Coord) (c : Pixel) (src : List Pixel) (rest : List Presented),
    s.presents (.drawBitmap x y w h c) src rest →
    (s.initState ≠ .done → exec (.drawBitmap x y w h c) s = .fault .useBeforeInit) ∧
    (s.initState = .done → s.lines.csSel = true → clip s.params x y w h ≠ .nothing →
      exec (.drawBitmap x y w h c) s = .fault .nestedSession) ∧
    (s.initState = .done → s.lines.csSel = false → sourceSuffices s.params x y w h src →
    (∃ a, exec (.drawBitmap x y w h c) s = .next a) ∧
    ∃ t, runFor (max 1 (bitmapTrace s.params x y w h src).length) s = .next t ∧
      t.trace = s.trace ++ bitmapTrace s.params x y w h src ∧ t.busy = false ∧ t.seq = t.plan.length ∧ t.port = rest ∧
      t.src = src ∧ t.fault = none ∧ t.initState = .done ∧ t.params = s.params ∧
      t.req = { op := 0x3, rx := x, ry := y, rw := w, rh := h, rcolor := c } ∧
      t.panel = s.panel.replay s.params s.lines.dir (bitmapTrace s.params x y w h src) ∧
      (clip s.params x y w h = .nothing → t.lines = s.lines ∧ t.work = s.work) ∧
      ∀ w' h', clip s.params x y w h = .window x y w' h' →
        (bitmapTrace s.params x y w h src).length = 29 + 2 * (w'.toNat * h'.toNat) ∧
          t.lines = { s.lines with csSel := false, dcFrm := some .D, sessDirty := false } ∧
          t.work = {
            wx0 := x, wy0 := y, wx1 := x + w' - 1, wy1 := y + h' - 1, weff := w', heff := h'
            rem := 0, sidx := BitVec.ofNat 32 (w'.toNat * h'.toNat) })

/-- R65, R34: where the next item of the plan reads an entry the source does not have, the block waits for ever: no number
of steps changes anything, and it neither faults nor completes. -/
def Obligations.MissingEntryLeavesTheBlockStuck : Prop :=
  ∀ (s : State) (k : Nat), s.fault = none → s.busy = true → s.plan[s.seq]? = some .bitmapHigh →
    s.memRead s.entryIndex = none → runFor k s = .next s

/-- R65, V43-22: DRAW_BITMAP of a two by two bitmap inside the panel with one entry too few sends the three pixels it has and
then waits with the session open: `BUSY = 1`, `REM = 1`, 34 events, in every later state. That 34 events take 34 steps is
the model's granularity (log 5), that a source answers at once or never is log 7, and that every write returns is log 16. -/
def Obligations.ShortBitmapStopsMidSession : Prop :=
  ∀ (s : State) (x y : Coord) (c a0 a1 a2 : Pixel) (rest : List Presented) (k : Nat),
    s.presents (.drawBitmap x y 2 2 c) [a0, a1, a2] rest → s.initState = .done → s.lines.csSel = false →
    x.toNat + 2 ≤ s.params.width.toNat → y.toNat + 2 ≤ s.params.height.toNat →
    ∃ t, runFor (34 + k) s = .next t ∧ t.stuck ∧ t.work.rem = 1 ∧
      t.trace = s.trace ++ (windowPlan s.params x y (x + 1) (y + 1) ++
        [.sel, .frm .D, .byte (hi8 a0), .byte (lo8 a0), .byte (hi8 a1), .byte (lo8 a1), .byte (hi8 a2), .byte (lo8 a2)])

/-- R172: the two clip modes read the same entry at every position of a request whose width was not truncated. -/
def Obligations.ClipModesAgreeWithoutTruncation : Prop :=
  ∀ (w : Coord) (i : Nat), bitmapIndex .strided w w i = bitmapIndex .fromFront w w i

/-! ### The step -/

/-- An idle block without a fault runs the instruction that the first presented word decodes to, in the state in which the
word is taken and its bitmap source is at the source port; an accepted request then emits its first event (log 5). -/
def Obligations.StepRunsTheDecodedInstruction : Prop :=
  ∀ (s : State) (q : Presented) (rest : List Presented) (i : Instr), s.fault = none → s.busy = false →
    s.port = q :: rest → decode s.params q.word = .ok i →
    step s = thenDo (exec i { s with port := rest, src := q.src }) (fun t => if t.busy then advance t else .next t)

/-- R27: a busy block emits exactly the event of the next item of its plan and moves to the next position. A bitmap item sends
the high byte of the entry `idx(SIDX)`, sampled then, and after it the low byte of the same entry (R171); `REM` and `SIDX`
are loaded at the pixel session's SEL and move with the low byte of each pixel (R166, R170; log 15; `pix` is log 14). It falls idle exactly
when the plan is exhausted, in the step of the last event (log 5). -/
def Obligations.BusyStepEmitsTheNextEvent : Prop :=
  ∀ (s : State) (item : PlanItem), s.fault = none → s.busy = true → s.plan[s.seq]? = some item →
    (item = .bitmapHigh → s.memRead s.entryIndex ≠ none) →
    ∃ t e, step s = .next t ∧ t.trace = s.trace ++ [e] ∧ t.seq = s.seq + 1 ∧ t.plan = s.plan ∧
      (t.busy = true ↔ s.seq + 1 < s.plan.length) ∧ t.lines = s.lines.after e ∧
      t.panel = s.panel.see s.params s.lines.dir e ∧ t.req = s.req ∧ t.params = s.params ∧ t.port = s.port ∧
      t.src = s.src ∧ t.fault = none ∧
      (∀ e', item = .ev e' → e = e' ∧ t.work = s.work ∧ t.pix = s.pix) ∧
      (∀ n, item = .openStream n → e = .sel ∧ t.work = { s.work with rem := n, sidx := 0 } ∧ t.pix = s.pix) ∧
      (∀ b, item = .fillLow b →
        e = .byte b ∧ t.work = { s.work with rem := s.work.rem - 1, sidx := s.work.sidx + 1 } ∧ t.pix = s.pix) ∧
      (∀ v, item = .bitmapHigh →
        s.memRead (bitmapIndex s.params.clipMode s.work.weff s.req.rw s.work.sidx.toNat) = some v →
        e = .byte (hi8 v) ∧ t.work = s.work ∧ t.pix = v) ∧
      (item = .bitmapLow →
        e = .byte (lo8 s.pix) ∧ t.work = { s.work with rem := s.work.rem - 1, sidx := s.work.sidx + 1 } ∧ t.pix = s.pix)

/-- R91, P7 c: a descriptor with a reserved code is refused by name. -/
def Obligations.ReservedRequestIsRefused : Prop :=
  ∀ (s : State) (d : Descriptor) (src : List Pixel) (rest : List Presented), s.fault = none → s.busy = false →
    s.port = { word := .request d, src := src } :: rest → 3 < d.op.toNat → step s = .refused (.reservedRequest d.op)

/-- Every step, of whatever instruction, only adds to the trace; the line registers and the panel are what the added
events make of them (R30, R53, R66), the parameters stay, and no fault is recorded in a next state (R31). -/
def Obligations.StepOnlyAppendsToTheTrace : Prop :=
  ∀ s t : State, step s = .next t →
    ∃ es : List Event, t.trace = s.trace ++ es ∧ t.lines = Lines.afterAll es s.lines ∧
      t.panel = s.panel.replay s.params s.lines.dir es ∧ t.params = s.params ∧ t.fault = none

/-- R31, R203: a state with a recorded fault answers that fault at every step, so the run never goes on; and an instruction
that faults in such a state answers the recorded fault, the first one, never its own (log 8). -/
def Obligations.RecordedFaultEndsTheRun : Prop :=
  ∀ (s : State) (f : Fault), s.fault = some f →
    step s = .fault f ∧ (∀ k, runFor (k + 1) s = .fault f) ∧ ∀ i g, exec i s = .fault g → g = f

/-- R34, R171: the source port asks only while a DRAW_BITMAP executes, for the entry `idx(SIDX)` of the pixel due; with no answer
the block waits, with an answer it sends the entry's high byte and keeps the entry for its low byte. The invariant behind
it holds at reset and every step, of whatever instruction, keeps it. That the source answers at once or never is log 7, the
field that keeps the entry log 14. -/
def Obligations.SourcePortAsksForTheNextEntry : Prop :=
  State.reset.sourceInv ∧
  ∀ s t : State, s.sourceInv → step s = .next t →
    t.sourceInv ∧ ∀ k, t.srcRequest = some k →
      t.busy = true ∧ t.req.op = 0x3 ∧ k = bitmapIndex t.params.clipMode t.work.weff t.req.rw t.work.sidx.toNat ∧
      t.srcAnswer = t.src[k]? ∧ (t.srcAnswer = none → step t = .next t) ∧
      ∀ v, t.srcAnswer = some v → ∃ u, step t = .next u ∧ u.trace = t.trace ++ [.byte (hi8 v)] ∧ u.pix = v

/-- R12, R22, R36: while `DIR = 0` no control line has a level; afterwards each is at its asserted level exactly when its
register says so, and a line whose register is unknown has none. CFG_OUT drives chip select to its deselected level and
leaves the framing and reset lines as unknown as they were (R30, R117). The pin view is the model's (DESIGN CHOICE, log 22). -/
def Obligations.PinsFollowTheLines : Prop :=
  ∀ s : State,
    (s.lines.dir = false → s.csPin = none ∧ s.dcPin = none ∧ s.rstPin = none ∧ s.blPin = none) ∧
    (s.lines.dir = true →
      s.csPin = some (if s.lines.csSel then s.params.pins.csActiveHigh else !s.params.pins.csActiveHigh) ∧
      s.blPin = some (if s.lines.blOn then s.params.pins.blOnHigh else !s.params.pins.blOnHigh) ∧
      (s.lines.dcFrm = none → s.dcPin = none) ∧
      (s.lines.dcFrm = some .C → s.dcPin = some s.params.pins.dcCommandHigh) ∧
      (s.lines.dcFrm = some .D → s.dcPin = some (!s.params.pins.dcCommandHigh)) ∧
      (s.lines.rstLvl = none → s.rstPin = none) ∧
      (s.lines.rstLvl = some .active → s.rstPin = some s.params.pins.rstActiveHigh) ∧
      (s.lines.rstLvl = some .inactive → s.rstPin = some (!s.params.pins.rstActiveHigh))) ∧
    ∃ t, exec .cfgOut s = .next t ∧ t.csPin = some (!s.params.pins.csActiveHigh) ∧
      t.dcPin.isSome = s.lines.dcFrm.isSome ∧ t.rstPin.isSome = s.lines.rstLvl.isSome

/-- R22, R25, R61: no step clears `DIR`, `BL_ON` or `P_BAD`. -/
def Obligations.StickyBitsAreNeverCleared : Prop :=
  ∀ s t : State, step s = .next t →
    (s.lines.dir = true → t.lines.dir = true) ∧ (s.lines.blOn = true → t.lines.blOn = true) ∧
      (s.panel.bad = true → t.panel.bad = true)

/-- R21, R190: `INIT_STATE` moves only from NOT_RUN to RUNNING, when INITIALIZE is taken, and from RUNNING to DONE, when a
plan is exhausted. -/
def Obligations.OnlyInitializeMovesInitState : Prop :=
  ∀ s t : State, step s = .next t →
    t.initState = s.initState ∨
      (s.initState = .notRun ∧ t.initState = .running ∧ ∃ q rest x y w h c, s.port = q :: rest ∧
        decode s.params q.word = .ok (.initPanel x y w h c)) ∨
      (s.initState = .running ∧ t.initState = .done ∧ s.busy = true ∧ t.busy = false)

/-! ### Invariants -/

/-- R32 a and d hold at reset. -/
def Obligations.SessionShapeHoldsAtReset : Prop := State.reset.sessionInv

/-- R32 a and d: where the caller uses the request port only, every step keeps the trace well shaped, `CS_SEL` in agreement
with it, no session open between requests, and the rest of the plan closing its session. -/
def Obligations.SessionShapeIsKeptByEveryStep : Prop :=
  ∀ s t : State, s.sessionInv → step s = .next t → t.sessionInv

/-- What R32 a and d say follows: with a session open the block is busy, and a complete trace has all its sessions closed. -/
def Obligations.OpenSessionMeansBusy : Prop :=
  ∀ s t : State, s.sessionInv → step s = .next t →
    (t.lines.csSel = true → t.busy = true) ∧ (t.busy = false → Phase.closed.after t.trace = some .closed)

/-- R32 b, c and e hold at reset. -/
def Obligations.InitializationOrderHoldsAtReset : Prop := State.reset.initInv

/-- R32 b, c and e: where the caller uses the request port only, every step keeps the order of the initialization. -/
def Obligations.InitializationOrderIsKeptByEveryStep : Prop :=
  ∀ s t : State, s.initInv → step s = .next t → t.initInv

/-- R76's invariant holds at power-on of block and panel, with well-formed parameters. -/
def Obligations.PanelIsFineAtReset : Prop := State.reset.panelInv

/-- R76: where the caller uses the request port only, no step poisons the panel, whatever the bitmaps hold. -/
def Obligations.PanelIsNeverPoisonedByRequests : Prop :=
  ∀ s t : State, s.panelInv → step s = .next t → t.panelInv

/-- The panel's own invariant holds at reset. The canonical list it speaks of is the model's form (DESIGN CHOICE, log 13), and
so is the pulse field (DEDUCED, log 10). -/
def Obligations.PanelIsSoundAtReset : Prop := State.reset.panel.sound State.reset.params

/-- R50, R61: every step, of whatever instruction, keeps the pixel memory canonical and inside the panel's geometry, empty
once `P_BAD` is set, and the write pointer inside the panel. The canonical list is the model's form (log 13), the pulse field
is log 10. -/
def Obligations.PixelMemoryStaysCanonicalAndInside : Prop :=
  ∀ s t : State, s.panel.sound s.params → step s = .next t → t.panel.sound t.params

/-- R53, R66: the panel is what the whole trace makes of a panel at power-on, with the lines driven from `CFG_OUT` on; every
step keeps it so. -/
def Obligations.PanelIsAFunctionOfTheTrace : Prop :=
  ∀ s t : State,
    s.panel = Panel.powerOn.replay s.params false s.trace ∧ (s.lines.dir = true ↔ Event.cfgOut ∈ s.trace) →
    step s = .next t →
    t.panel = Panel.powerOn.replay t.params false t.trace ∧ (t.lines.dir = true ↔ Event.cfgOut ∈ t.trace)

/-! ### The pixel memory -/

/-- R56: a cell written reads as written, every other cell reads as before, and the canonical form is kept. -/
def Obligations.CellWriteIsExact : Prop :=
  ∀ (m : Gram) (c r : Coord) (v : Pixel),
    (m.write c r v).read c r = some v ∧
      (∀ c' r', ¬ (c' = c ∧ r' = r) → (m.write c r v).read c' r' = m.read c' r') ∧ (m.wf = true → (m.write c r v).wf = true)

/-- R56, R59: writing the two bytes of a pixel in the open data session of a pixel payload stores them, high byte first, at
the write pointer; every other cell reads as before, and the pointer moves on in row-major order. Of the block only `TRACE`
and `SESS_DIRTY` change. -/
def Obligations.PixelBytesStoreAtThePointer : Prop :=
  ∀ (s : State) (xs xe ys ye c r : Coord) (hi lo : Byte), s.fault = none → s.lines.csSel = true → s.lines.dir = true →
    s.lines.dcFrm = some .D → s.panel.sel = true → s.panel.frm = some .D → s.panel.ready = true →
    s.panel.pulse = .released → s.panel.bad = false → s.panel.cmd = none → s.panel.half = none →
    s.panel.addr = .writing xs xe ys ye c r →
    ∃ t, exec (.write [hi, lo]) s = .next t ∧ t.panel.gram.read c r = some (hi ++ lo) ∧
      (∀ c' r', ¬ (c' = c ∧ r' = r) → t.panel.gram.read c' r' = s.panel.gram.read c' r') ∧
      t.panel.addr = (if c < xe then .writing xs xe ys ye (c + 1) r
        else if r < ye then .writing xs xe ys ye xs (r + 1) else .exhausted xs xe ys ye) ∧
      t.panel.bad = false ∧ t.panel.half = none ∧ t.trace = s.trace ++ [.byte hi, .byte lo] ∧
      t.lines = { s.lines with sessDirty := true } ∧ onlyBusChanged s t

/-- R61: once `P_BAD` is set and no cell is known, no list of events makes a cell known. -/
def Obligations.PoisonedPanelShowsNothing : Prop :=
  ∀ (p : Params) (P : Panel) (driven : Bool) (es : List Event), P.bad = true → P.gram = [] →
    (P.replay p driven es).bad = true ∧ ∀ c r, (P.replay p driven es).gram.read c r = none

/-- R53 to R56, R61: inputs the source does not describe, on driven lines, set `P_BAD`. In order: a pixel byte that no
window is waiting for, and a session that ends on half a pixel (V20-4 to V20-6); a command outside the seven; any byte
before the reset pulse; after it, a byte that is not the next of the script; a row or column range with its end before its
start or outside the panel (log 26); a command that comes before the four address bytes have (log 25); a byte outside a
session, or with the framing never set. -/
def Obligations.StrayPixelDataPoisonsThePanel : Prop :=
  ∀ (p : Params) (P : Panel) (b op : Byte) (start stop : Coord) (bs : List Byte),
    (P.ready = true → P.pulse = .released → P.cmd = none →
      ((∀ xs xe ys ye c r, P.addr ≠ .writing xs xe ys ye c r) →
        (P.replay p true (dataSession [b])).bad = true) ∧
      (P.half = none → (P.replay p true (dataSession [b])).bad = true)) ∧
    (P.ready = true → P.pulse = .released → op ∉ p.opcodes → (P.replay p true (cmdSession op)).bad = true) ∧
    (P.pulse ≠ .released →
      (P.replay p true (cmdSession b)).bad = true ∧ (P.replay p true (dataSession [b])).bad = true) ∧
    (P.pulse = .released → P.ready = false →
      ((initBytes p)[P.initGot]? ≠ some (.C, b) → (P.replay p true (cmdSession b)).bad = true) ∧
      ((initBytes p)[P.initGot]? ≠ some (.D, b) → (P.replay p true (dataSession [b])).bad = true)) ∧
    (p.wf = true → P.ready = true → P.pulse = .released →
      (¬ (start ≤ stop ∧ stop < p.height) →
        (P.replay p true (cmdSession p.opcRaset ++ dataSession (addr4 start stop))).bad = true) ∧
      (¬ (start ≤ stop ∧ stop < p.width) →
        (P.replay p true (cmdSession p.opcCaset ++ dataSession (addr4 start stop))).bad = true) ∧
      (bs.length < 4 → ∀ a ∈ [p.opcRaset, p.opcCaset],
        (P.replay p true (cmdSession a ++ dataSession bs ++ cmdSession op)).bad = true)) ∧
    (P.sel = false ∨ P.frm = none → (P.replay p true [.byte b]).bad = true)

/-- R75: on a quiet panel FILL_RECT leaves the clipped rectangle at the colour and every other cell as before, the pointer
exhausted, the panel quiet. -/
def Obligations.FillRectPaintsTheClippedRectangle : Prop :=
  ∀ (p : Params) (P : Panel) (x y w h w' h' : Coord) (color : Pixel), p.wf = true → P.quiet →
    clip p x y w h = .window x y w' h' →
    (∀ c r, (P.replay p true (fillTrace p x y w h color)).gram.read c r =
      if x.toNat ≤ c.toNat ∧ c.toNat < x.toNat + w'.toNat ∧ y.toNat ≤ r.toNat ∧ r.toNat < y.toNat + h'.toNat
      then some color else P.gram.read c r) ∧
    (P.replay p true (fillTrace p x y w h color)).addr = .exhausted x (x + w' - 1) y (y + h' - 1) ∧
    (P.replay p true (fillTrace p x y w h color)).quiet

/-- R75: on a quiet panel DRAW_BITMAP leaves at column `x + i`, row `y + j` the entry `idx(j * w' + i)` of its source, in both
clip modes, and every other cell as before. -/
def Obligations.DrawBitmapPaintsTheEntries : Prop :=
  ∀ (p : Params) (P : Panel) (x y w h w' h' : Coord) (src : List Pixel), p.wf = true → P.quiet →
    clip p x y w h = .window x y w' h' → sourceSuffices p x y w h src →
    (∀ c r, (P.replay p true (bitmapTrace p x y w h src)).gram.read c r =
      if x.toNat ≤ c.toNat ∧ c.toNat < x.toNat + w'.toNat ∧ y.toNat ≤ r.toNat ∧ r.toNat < y.toNat + h'.toNat
      then src[bitmapIndex p.clipMode w' w ((r.toNat - y.toNat) * w'.toNat + (c.toNat - x.toNat))]?
      else P.gram.read c r) ∧
    (P.replay p true (bitmapTrace p x y w h src)).addr = .exhausted x (x + w' - 1) y (y + h' - 1) ∧
    (P.replay p true (bitmapTrace p x y w h src)).quiet

/-- R72, S5: filling the screen twice with one colour leaves the same pixel memory as filling it once: every cell of the panel at
the colour. -/
def Obligations.FillScreenIsIdempotent : Prop :=
  ∀ (p : Params) (P : Panel) (color : Pixel) (c r : Coord), p.wf = true → P.quiet →
    let fill := fillTrace p 0 0 p.width p.height color
    ((P.replay p true fill).replay p true fill).gram.read c r = (P.replay p true fill).gram.read c r ∧
      (c < p.width → r < p.height → (P.replay p true fill).gram.read c r = some color)

/-! ### Whole runs -/

/-- R41, R66: from power-on, INITIALIZE followed by any finite list of drawing requests whose sources answer ends without a
fault, and the trace is the plans of the requests in the order presented. That it ends rests on the premise that every
write and every sleep returns (R204, D23; log 16). -/
def Obligations.RunOverRequestsEnds : Prop :=
  ∀ (p : Params) (x y w h : Coord) (c : Pixel) (src : List Pixel) (qs : List Presented), p.wf = true →
    (∀ q ∈ qs, drawable p q) →
    ∃ k t, runFor k { State.reset with
        params := p, port := { word := encode p (.initPanel x y w h c), src := src } :: qs } = .next t ∧
      t.final ∧ t.initState = .done ∧ t.trace = initPlan p ++ qs.flatMap (requestTrace p)
end

