-- ==== Sys2Proof/Laws/Clip.lean ====
section
/-! SUPPORT. CLIP over the naturals (R161), and the last column and row of a window. -/

namespace Sys2Proof.Machine

theorem clipExtent_toNat (origin extent size : Coord) (h : origin.toNat < size.toNat) :
    (clipExtent origin extent size).toNat =
      if origin.toNat + extent.toNat > size.toNat then size.toNat - origin.toNat else extent.toNat := by
  unfold clipExtent
  have := size.isLt
  split_ifs
  · rw [BitVec.toNat_sub_of_le]
    exact BitVec.le_def.mpr (by omega)
  · rfl

/-- CLIP with its two tests over the naturals. -/
theorem clip_eq (p : Params) (x y w h : Coord) : clip p x y w h =
    if x.toNat ≥ p.width.toNat ∨ y.toNat ≥ p.height.toNat ∨ w.toNat = 0 ∨ h.toNat = 0 then .nothing
    else .window x y (clipExtent x w p.width) (clipExtent y h p.height) := by
  have e1 : x ≥ p.width ↔ x.toNat ≥ p.width.toNat := BitVec.le_def
  have e2 : y ≥ p.height ↔ y.toNat ≥ p.height.toNat := BitVec.le_def
  have z0 : ∀ v : Coord, v = 0 ↔ v.toNat = 0 := fun v =>
    ⟨fun h => by simp [h], fun h => BitVec.eq_of_toNat_eq (by simpa using h)⟩
  unfold clip
  by_cases h1 : x.toNat ≥ p.width.toNat ∨ y.toNat ≥ p.height.toNat
  · rw [if_pos (by rw [e1, e2]; exact h1), if_pos (by omega)]
  · rw [if_neg (by rw [e1, e2]; exact h1)]
    have h3 : (clipExtent x w p.width = 0 ∨ clipExtent y h p.height = 0) ↔ (w.toNat = 0 ∨ h.toNat = 0) := by
      rw [z0, z0, clipExtent_toNat _ _ _ (by omega), clipExtent_toNat _ _ _ (by omega)]
      split_ifs <;> omega
    by_cases h2 : w.toNat = 0 ∨ h.toNat = 0
    · rw [if_pos (h3.mpr h2), if_pos (by omega)]
    · rw [if_neg (fun hh => h2 (h3.mp hh)), if_neg (by omega)]

/-- A sum that stays below 65536 does not wrap: the last column or row of an extent. -/
theorem last_toNat {origin extent : Coord} (h1 : 1 ≤ extent.toNat) (h2 : origin.toNat + extent.toNat ≤ 65535) :
    (origin + extent - 1).toNat = origin.toNat + extent.toNat - 1 := by
  have : (1 : Coord).toNat = 1 := rfl
  bv_omega

theorem Params.size_pos {p : Params} (h : p.wf = true) : p.width.toNat ≠ 0 ∧ p.height.toNat ≠ 0 := by
  simp only [Params.wf, Bool.and_eq_true, bne_iff_ne, ne_eq] at h
  exact ⟨fun h0 => h.1.1 (BitVec.eq_of_toNat_eq (by simpa using h0)),
    fun h0 => h.1.2 (BitVec.eq_of_toNat_eq (by simpa using h0))⟩

/-- The whole panel is not truncated. -/
theorem clip_whole {p : Params} (h : p.wf = true) : clip p 0 0 p.width p.height = .window 0 0 p.width p.height := by
  have := Params.size_pos h
  rw [clip_eq, if_neg (by simp; omega)]
  simp [clipExtent]

end Sys2Proof.Machine
end

