-- ==== Sys2Proof/Laws/Decode.lean ====
section
/-! SUPPORT. The parts of the round trip between words and instructions: byte order, the natural operand, and the six fields
of a descriptor. -/

namespace Sys2Proof

/-- A 16-bit value is its two bytes, high byte first. -/
@[simp] theorem be16_hi8_lo8 (v : BitVec 16) : be16 (hi8 v) (lo8 v) = v := by
  unfold be16 hi8 lo8
  apply BitVec.eq_of_toNat_eq
  simp only [BitVec.toNat_append, BitVec.extractLsb'_toNat]
  have := v.isLt
  rw [← Nat.shiftLeft_add_eq_or_of_lt (by omega)]
  simp only [Nat.shiftLeft_eq, Nat.shiftRight_eq_div_pow]
  omega

@[simp] theorem hi8_be16 (a b : Byte) : hi8 (be16 a b) = a := by
  unfold be16 hi8
  apply BitVec.eq_of_toNat_eq
  simp only [BitVec.toNat_append, BitVec.extractLsb'_toNat]
  have := a.isLt
  have := b.isLt
  rw [← Nat.shiftLeft_add_eq_or_of_lt (by omega)]
  simp only [Nat.shiftLeft_eq, Nat.shiftRight_eq_div_pow]
  omega

@[simp] theorem lo8_be16 (a b : Byte) : lo8 (be16 a b) = b := by
  unfold be16 lo8
  apply BitVec.eq_of_toNat_eq
  simp only [BitVec.toNat_append, BitVec.extractLsb'_toNat]
  have := a.isLt
  have := b.isLt
  rw [← Nat.shiftLeft_add_eq_or_of_lt (by omega)]
  simp only [Nat.shiftLeft_eq, Nat.shiftRight_eq_div_pow]
  omega

theorem bytesNat_append_singleton (as : List Byte) (b : Byte) : bytesNat (as ++ [b]) = bytesNat as * 256 + b.toNat := by
  simp [bytesNat]

theorem bytesNat_go (fuel m : Nat) (h : m ≤ fuel) : bytesNat (natBytes.go fuel m) = m := by
  induction fuel generalizing m with
  | zero =>
    obtain rfl : m = 0 := by omega
    rfl
  | succ fuel ih =>
    unfold natBytes.go
    split
    · next h => subst h; rfl
    · rw [bytesNat_append_singleton, ih _ (by omega)]
      simp only [BitVec.toNat_ofNat]
      omega

/-- The natural operand of SLEEP_MS survives its bytes. -/
@[simp] theorem bytesNat_natBytes (n : Nat) : bytesNat (natBytes n) = n := bytesNat_go n n le_rfl

/-- The fields of a joined descriptor (R88). -/
theorem Descriptor.make_fields (op : BitVec 4) (x y w h : Coord) (c : Pixel) :
    (Descriptor.make op x y w h c).op = op ∧ (Descriptor.make op x y w h c).x = x ∧
      (Descriptor.make op x y w h c).y = y ∧ (Descriptor.make op x y w h c).w = w ∧
      (Descriptor.make op x y w h c).h = h ∧ (Descriptor.make op x y w h c).color = c := by
  have := op.isLt
  have := x.isLt
  have := y.isLt
  have := w.isLt
  have := h.isLt
  have := c.isLt
  have e : (Descriptor.make op x y w h c).toNat =
      ((((op.toNat * 65536 + x.toNat) * 65536 + y.toNat) * 65536 + w.toNat) * 65536 + h.toNat) * 65536 + c.toNat := by
    unfold Descriptor.make
    simp only [BitVec.toNat_append]
    repeat rw [← Nat.shiftLeft_add_eq_or_of_lt (by omega)]
    simp only [Nat.shiftLeft_eq]
  refine ⟨?_, ?_, ?_, ?_, ?_, ?_⟩ <;> apply BitVec.eq_of_toNat_eq <;>
    simp only [Descriptor.op, Descriptor.x, Descriptor.y, Descriptor.w, Descriptor.h, Descriptor.color,
      BitVec.extractLsb'_toNat, e, Nat.shiftRight_eq_div_pow] <;> omega

/-- A descriptor is its six fields joined: no bit lies outside them. -/
theorem Descriptor.make_self (d : Descriptor) : Descriptor.make d.op d.x d.y d.w d.h d.color = d := by
  apply BitVec.eq_of_toNat_eq
  unfold Descriptor.make
  simp only [BitVec.toNat_append]
  have := d.op.isLt
  have := d.x.isLt
  have := d.y.isLt
  have := d.w.isLt
  have := d.h.isLt
  have := d.color.isLt
  have := d.isLt
  repeat rw [← Nat.shiftLeft_add_eq_or_of_lt (by omega)]
  simp only [Nat.shiftLeft_eq, Descriptor.op, Descriptor.x, Descriptor.y, Descriptor.w, Descriptor.h, Descriptor.color,
    BitVec.extractLsb'_toNat, Nat.shiftRight_eq_div_pow]
  omega

end Sys2Proof
end

