-- ==== Sys2Proof/Laws/State.lean ====
section
/-! SUPPORT. One lemma per field per update of the state, true by unfolding, so that no proof unfolds a record update. -/

namespace Sys2Proof.Machine

/-! ### emit -/
@[simp] theorem State.emit_params (e : Event) (s : State) : (s.emit e).params = s.params := rfl
@[simp] theorem State.emit_initState (e : Event) (s : State) : (s.emit e).initState = s.initState := rfl
@[simp] theorem State.emit_lines (e : Event) (s : State) : (s.emit e).lines = s.lines.after e := rfl
@[simp] theorem State.emit_busy (e : Event) (s : State) : (s.emit e).busy = s.busy := rfl
@[simp] theorem State.emit_req (e : Event) (s : State) : (s.emit e).req = s.req := rfl
@[simp] theorem State.emit_work (e : Event) (s : State) : (s.emit e).work = s.work := rfl
@[simp] theorem State.emit_pix (e : Event) (s : State) : (s.emit e).pix = s.pix := rfl
@[simp] theorem State.emit_plan (e : Event) (s : State) : (s.emit e).plan = s.plan := rfl
@[simp] theorem State.emit_seq (e : Event) (s : State) : (s.emit e).seq = s.seq := rfl
@[simp] theorem State.emit_trace (e : Event) (s : State) : (s.emit e).trace = s.trace ++ [e] := rfl
@[simp] theorem State.emit_fault (e : Event) (s : State) : (s.emit e).fault = s.fault := rfl
@[simp] theorem State.emit_port (e : Event) (s : State) : (s.emit e).port = s.port := rfl
@[simp] theorem State.emit_src (e : Event) (s : State) : (s.emit e).src = s.src := rfl
@[simp] theorem State.emit_panel (e : Event) (s : State) : (s.emit e).panel = s.panel.see s.params s.lines.dir e := rfl

/-! ### goto -/
@[simp] theorem State.goto_params (k : Nat) (s : State) : (s.goto k).params = s.params := rfl
@[simp] theorem State.goto_initState (k : Nat) (s : State) : (s.goto k).initState = s.initState := rfl
@[simp] theorem State.goto_lines (k : Nat) (s : State) : (s.goto k).lines = s.lines := rfl
@[simp] theorem State.goto_busy (k : Nat) (s : State) : (s.goto k).busy = s.busy := rfl
@[simp] theorem State.goto_req (k : Nat) (s : State) : (s.goto k).req = s.req := rfl
@[simp] theorem State.goto_work (k : Nat) (s : State) : (s.goto k).work = s.work := rfl
@[simp] theorem State.goto_pix (k : Nat) (s : State) : (s.goto k).pix = s.pix := rfl
@[simp] theorem State.goto_plan (k : Nat) (s : State) : (s.goto k).plan = s.plan := rfl
@[simp] theorem State.goto_seq (k : Nat) (s : State) : (s.goto k).seq = k := rfl
@[simp] theorem State.goto_trace (k : Nat) (s : State) : (s.goto k).trace = s.trace := rfl
@[simp] theorem State.goto_fault (k : Nat) (s : State) : (s.goto k).fault = s.fault := rfl
@[simp] theorem State.goto_port (k : Nat) (s : State) : (s.goto k).port = s.port := rfl
@[simp] theorem State.goto_src (k : Nat) (s : State) : (s.goto k).src = s.src := rfl
@[simp] theorem State.goto_panel (k : Nat) (s : State) : (s.goto k).panel = s.panel := rfl
@[simp] theorem State.goto_goto (j k : Nat) (s : State) : (s.goto j).goto k = s.goto k := rfl

/-! ### finish -/
@[simp] theorem State.finish_params (s : State) : (s.finish).params = s.params := rfl
@[simp] theorem State.finish_initState (s : State) : (s.finish).initState = if s.initState = .running then .done else s.initState := rfl
@[simp] theorem State.finish_lines (s : State) : (s.finish).lines = s.lines := rfl
@[simp] theorem State.finish_busy (s : State) : (s.finish).busy = false := rfl
@[simp] theorem State.finish_req (s : State) : (s.finish).req = s.req := rfl
@[simp] theorem State.finish_work (s : State) : (s.finish).work = s.work := rfl
@[simp] theorem State.finish_pix (s : State) : (s.finish).pix = s.pix := rfl
@[simp] theorem State.finish_plan (s : State) : (s.finish).plan = s.plan := rfl
@[simp] theorem State.finish_seq (s : State) : (s.finish).seq = s.seq := rfl
@[simp] theorem State.finish_trace (s : State) : (s.finish).trace = s.trace := rfl
@[simp] theorem State.finish_fault (s : State) : (s.finish).fault = s.fault := rfl
@[simp] theorem State.finish_port (s : State) : (s.finish).port = s.port := rfl
@[simp] theorem State.finish_src (s : State) : (s.finish).src = s.src := rfl
@[simp] theorem State.finish_panel (s : State) : (s.finish).panel = s.panel := rfl

/-! ### latch -/
@[simp] theorem State.latch_params (r : ReqRegs) (s : State) : (s.latch r).params = s.params := rfl
@[simp] theorem State.latch_initState (r : ReqRegs) (s : State) : (s.latch r).initState = s.initState := rfl
@[simp] theorem State.latch_lines (r : ReqRegs) (s : State) : (s.latch r).lines = s.lines := rfl
@[simp] theorem State.latch_busy (r : ReqRegs) (s : State) : (s.latch r).busy = s.busy := rfl
@[simp] theorem State.latch_req (r : ReqRegs) (s : State) : (s.latch r).req = r := rfl
@[simp] theorem State.latch_work (r : ReqRegs) (s : State) : (s.latch r).work = s.work := rfl
@[simp] theorem State.latch_pix (r : ReqRegs) (s : State) : (s.latch r).pix = s.pix := rfl
@[simp] theorem State.latch_plan (r : ReqRegs) (s : State) : (s.latch r).plan = s.plan := rfl
@[simp] theorem State.latch_seq (r : ReqRegs) (s : State) : (s.latch r).seq = s.seq := rfl
@[simp] theorem State.latch_trace (r : ReqRegs) (s : State) : (s.latch r).trace = s.trace := rfl
@[simp] theorem State.latch_fault (r : ReqRegs) (s : State) : (s.latch r).fault = s.fault := rfl
@[simp] theorem State.latch_port (r : ReqRegs) (s : State) : (s.latch r).port = s.port := rfl
@[simp] theorem State.latch_src (r : ReqRegs) (s : State) : (s.latch r).src = s.src := rfl
@[simp] theorem State.latch_panel (r : ReqRegs) (s : State) : (s.latch r).panel = s.panel := rfl

/-! ### take -/
@[simp] theorem State.take_params (q : Presented) (rest : List Presented) (s : State) : (s.take q rest).params = s.params := rfl
@[simp] theorem State.take_initState (q : Presented) (rest : List Presented) (s : State) : (s.take q rest).initState = s.initState := rfl
@[simp] theorem State.take_lines (q : Presented) (rest : List Presented) (s : State) : (s.take q rest).lines = s.lines := rfl
@[simp] theorem State.take_busy (q : Presented) (rest : List Presented) (s : State) : (s.take q rest).busy = s.busy := rfl
@[simp] theorem State.take_req (q : Presented) (rest : List Presented) (s : State) : (s.take q rest).req = s.req := rfl
@[simp] theorem State.take_work (q : Presented) (rest : List Presented) (s : State) : (s.take q rest).work = s.work := rfl
@[simp] theorem State.take_pix (q : Presented) (rest : List Presented) (s : State) : (s.take q rest).pix = s.pix := rfl
@[simp] theorem State.take_plan (q : Presented) (rest : List Presented) (s : State) : (s.take q rest).plan = s.plan := rfl
@[simp] theorem State.take_seq (q : Presented) (rest : List Presented) (s : State) : (s.take q rest).seq = s.seq := rfl
@[simp] theorem State.take_trace (q : Presented) (rest : List Presented) (s : State) : (s.take q rest).trace = s.trace := rfl
@[simp] theorem State.take_fault (q : Presented) (rest : List Presented) (s : State) : (s.take q rest).fault = s.fault := rfl
@[simp] theorem State.take_port (q : Presented) (rest : List Presented) (s : State) : (s.take q rest).port = rest := rfl
@[simp] theorem State.take_src (q : Presented) (rest : List Presented) (s : State) : (s.take q rest).src = q.src := rfl
@[simp] theorem State.take_panel (q : Presented) (rest : List Presented) (s : State) : (s.take q rest).panel = s.panel := rfl

/-! ### recordFault -/
@[simp] theorem State.recordFault_params (f : Fault) (s : State) : (s.recordFault f).params = s.params := rfl
@[simp] theorem State.recordFault_initState (f : Fault) (s : State) : (s.recordFault f).initState = s.initState := rfl
@[simp] theorem State.recordFault_lines (f : Fault) (s : State) : (s.recordFault f).lines = s.lines := rfl
@[simp] theorem State.recordFault_busy (f : Fault) (s : State) : (s.recordFault f).busy = s.busy := rfl
@[simp] theorem State.recordFault_req (f : Fault) (s : State) : (s.recordFault f).req = s.req := rfl
@[simp] theorem State.recordFault_work (f : Fault) (s : State) : (s.recordFault f).work = s.work := rfl
@[simp] theorem State.recordFault_pix (f : Fault) (s : State) : (s.recordFault f).pix = s.pix := rfl
@[simp] theorem State.recordFault_plan (f : Fault) (s : State) : (s.recordFault f).plan = s.plan := rfl
@[simp] theorem State.recordFault_seq (f : Fault) (s : State) : (s.recordFault f).seq = s.seq := rfl
@[simp] theorem State.recordFault_trace (f : Fault) (s : State) : (s.recordFault f).trace = s.trace := rfl
@[simp] theorem State.recordFault_fault (f : Fault) (s : State) : (s.recordFault f).fault = some (s.fault.getD f) := rfl
@[simp] theorem State.recordFault_port (f : Fault) (s : State) : (s.recordFault f).port = s.port := rfl
@[simp] theorem State.recordFault_src (f : Fault) (s : State) : (s.recordFault f).src = s.src := rfl
@[simp] theorem State.recordFault_panel (f : Fault) (s : State) : (s.recordFault f).panel = s.panel := rfl

/-! ### present -/
@[simp] theorem State.present_params (nbits w : Nat) (s : State) : (s.present nbits w).params = s.params := rfl
@[simp] theorem State.present_initState (nbits w : Nat) (s : State) : (s.present nbits w).initState = s.initState := rfl
@[simp] theorem State.present_lines (nbits w : Nat) (s : State) : (s.present nbits w).lines = s.lines := rfl
@[simp] theorem State.present_busy (nbits w : Nat) (s : State) : (s.present nbits w).busy = false := rfl
@[simp] theorem State.present_req (nbits w : Nat) (s : State) : (s.present nbits w).req = s.req := rfl
@[simp] theorem State.present_work (nbits w : Nat) (s : State) : (s.present nbits w).work = s.work := rfl
@[simp] theorem State.present_pix (nbits w : Nat) (s : State) : (s.present nbits w).pix = s.pix := rfl
@[simp] theorem State.present_plan (nbits w : Nat) (s : State) : (s.present nbits w).plan = s.plan := rfl
@[simp] theorem State.present_seq (nbits w : Nat) (s : State) : (s.present nbits w).seq = s.seq := rfl
@[simp] theorem State.present_trace (nbits w : Nat) (s : State) : (s.present nbits w).trace = s.trace := rfl
@[simp] theorem State.present_fault (nbits w : Nat) (s : State) : (s.present nbits w).fault = none := rfl
@[simp] theorem State.present_port (nbits w : Nat) (s : State) : (s.present nbits w).port = { word := tableWord s.params nbits w, src := s.src } :: s.port := rfl
@[simp] theorem State.present_src (nbits w : Nat) (s : State) : (s.present nbits w).src = s.src := rfl
@[simp] theorem State.present_panel (nbits w : Nat) (s : State) : (s.present nbits w).panel = s.panel := rfl

/-! ### The line-state registers after an event -/
@[simp] theorem Lines.after_dir (e : Event) (l : Lines) : (l.after e).dir = dirAfter e l.dir := rfl
@[simp] theorem Lines.after_csSel (e : Event) (l : Lines) : (l.after e).csSel = csSelAfter e l.csSel := rfl
@[simp] theorem Lines.after_dcFrm (e : Event) (l : Lines) : (l.after e).dcFrm = dcFrmAfter e l.dcFrm := rfl
@[simp] theorem Lines.after_sessDirty (e : Event) (l : Lines) : (l.after e).sessDirty = sessDirtyAfter e l.sessDirty := rfl
@[simp] theorem Lines.after_rstLvl (e : Event) (l : Lines) : (l.after e).rstLvl = rstLvlAfter e l.rstLvl := rfl
@[simp] theorem Lines.after_blOn (e : Event) (l : Lines) : (l.after e).blOn = blOnAfter e l.blOn := rfl

/-! ### Each event's effect on the line-state registers (R30) -/

@[simp] theorem Lines.after_cfgOut (l : Lines) : l.after .cfgOut = { l with dir := true, csSel := false } := rfl
@[simp] theorem Lines.after_rst (v : RstLevel) (l : Lines) : l.after (.rst v) = { l with rstLvl := some v } := rfl
@[simp] theorem Lines.after_bl (l : Lines) : l.after .bl = { l with blOn := true } := rfl
@[simp] theorem Lines.after_sel (l : Lines) : l.after .sel = { l with csSel := true, sessDirty := false } := rfl
@[simp] theorem Lines.after_desel (l : Lines) : l.after .desel = { l with csSel := false, sessDirty := false } := rfl
@[simp] theorem Lines.after_frm (f : Framing) (l : Lines) : l.after (.frm f) = { l with dcFrm := some f } := rfl
@[simp] theorem Lines.after_byte (b : Byte) (l : Lines) : l.after (.byte b) = { l with sessDirty := true } := rfl
@[simp] theorem Lines.after_sleep (d : Nat) (l : Lines) : l.after (.sleep d) = l := rfl

/-! ### The working registers -/
@[simp] theorem WorkRegs.pixelSent_wx0 (w : WorkRegs) : w.pixelSent.wx0 = w.wx0 := rfl
@[simp] theorem WorkRegs.streamStart_wx0 (n : Cnt) (w : WorkRegs) : (w.streamStart n).wx0 = w.wx0 := rfl
@[simp] theorem WorkRegs.pixelSent_wy0 (w : WorkRegs) : w.pixelSent.wy0 = w.wy0 := rfl
@[simp] theorem WorkRegs.streamStart_wy0 (n : Cnt) (w : WorkRegs) : (w.streamStart n).wy0 = w.wy0 := rfl
@[simp] theorem WorkRegs.pixelSent_wx1 (w : WorkRegs) : w.pixelSent.wx1 = w.wx1 := rfl
@[simp] theorem WorkRegs.streamStart_wx1 (n : Cnt) (w : WorkRegs) : (w.streamStart n).wx1 = w.wx1 := rfl
@[simp] theorem WorkRegs.pixelSent_wy1 (w : WorkRegs) : w.pixelSent.wy1 = w.wy1 := rfl
@[simp] theorem WorkRegs.streamStart_wy1 (n : Cnt) (w : WorkRegs) : (w.streamStart n).wy1 = w.wy1 := rfl
@[simp] theorem WorkRegs.pixelSent_weff (w : WorkRegs) : w.pixelSent.weff = w.weff := rfl
@[simp] theorem WorkRegs.streamStart_weff (n : Cnt) (w : WorkRegs) : (w.streamStart n).weff = w.weff := rfl
@[simp] theorem WorkRegs.pixelSent_heff (w : WorkRegs) : w.pixelSent.heff = w.heff := rfl
@[simp] theorem WorkRegs.streamStart_heff (n : Cnt) (w : WorkRegs) : (w.streamStart n).heff = w.heff := rfl
@[simp] theorem WorkRegs.pixelSent_rem (w : WorkRegs) : w.pixelSent.rem = w.rem - 1 := rfl
@[simp] theorem WorkRegs.pixelSent_sidx (w : WorkRegs) : w.pixelSent.sidx = w.sidx + 1 := rfl
@[simp] theorem WorkRegs.streamStart_rem (n : Cnt) (w : WorkRegs) : (w.streamStart n).rem = n := rfl
@[simp] theorem WorkRegs.streamStart_sidx (n : Cnt) (w : WorkRegs) : (w.streamStart n).sidx = 0 := rfl

/-! ### The panel -/
@[simp] theorem Panel.poison_gram (P : Panel) : P.poison.gram = [] := rfl
@[simp] theorem Panel.poison_ready (P : Panel) : P.poison.ready = P.ready := rfl
@[simp] theorem Panel.poison_addr (P : Panel) : P.poison.addr = P.addr := rfl
@[simp] theorem Panel.poison_cmd (P : Panel) : P.poison.cmd = P.cmd := rfl
@[simp] theorem Panel.poison_half (P : Panel) : P.poison.half = P.half := rfl
@[simp] theorem Panel.poison_frm (P : Panel) : P.poison.frm = P.frm := rfl
@[simp] theorem Panel.poison_sel (P : Panel) : P.poison.sel = P.sel := rfl
@[simp] theorem Panel.poison_bad (P : Panel) : P.poison.bad = true := rfl
@[simp] theorem Panel.poison_pulse (P : Panel) : P.poison.pulse = P.pulse := rfl
@[simp] theorem Panel.poison_initGot (P : Panel) : P.poison.initGot = P.initGot := rfl

@[simp] theorem Panel.setAddr_gram (a : PanelAddr) (P : Panel) : (P.setAddr a).gram = P.gram := rfl
@[simp] theorem Panel.setAddr_ready (a : PanelAddr) (P : Panel) : (P.setAddr a).ready = P.ready := rfl
@[simp] theorem Panel.setAddr_addr (a : PanelAddr) (P : Panel) : (P.setAddr a).addr = a := rfl
@[simp] theorem Panel.setAddr_cmd (a : PanelAddr) (P : Panel) : (P.setAddr a).cmd = P.cmd := rfl
@[simp] theorem Panel.setAddr_half (a : PanelAddr) (P : Panel) : (P.setAddr a).half = P.half := rfl
@[simp] theorem Panel.setAddr_frm (a : PanelAddr) (P : Panel) : (P.setAddr a).frm = P.frm := rfl
@[simp] theorem Panel.setAddr_sel (a : PanelAddr) (P : Panel) : (P.setAddr a).sel = P.sel := rfl
@[simp] theorem Panel.setAddr_bad (a : PanelAddr) (P : Panel) : (P.setAddr a).bad = P.bad := rfl
@[simp] theorem Panel.setAddr_pulse (a : PanelAddr) (P : Panel) : (P.setAddr a).pulse = P.pulse := rfl
@[simp] theorem Panel.setAddr_initGot (a : PanelAddr) (P : Panel) : (P.setAddr a).initGot = P.initGot := rfl
@[simp] theorem Panel.setCmd_gram (a : Option (Byte × List Byte)) (P : Panel) : (P.setCmd a).gram = P.gram := rfl
@[simp] theorem Panel.setCmd_ready (a : Option (Byte × List Byte)) (P : Panel) : (P.setCmd a).ready = P.ready := rfl
@[simp] theorem Panel.setCmd_addr (a : Option (Byte × List Byte)) (P : Panel) : (P.setCmd a).addr = P.addr := rfl
@[simp] theorem Panel.setCmd_cmd (a : Option (Byte × List Byte)) (P : Panel) : (P.setCmd a).cmd = a := rfl
@[simp] theorem Panel.setCmd_half (a : Option (Byte × List Byte)) (P : Panel) : (P.setCmd a).half = P.half := rfl
@[simp] theorem Panel.setCmd_frm (a : Option (Byte × List Byte)) (P : Panel) : (P.setCmd a).frm = P.frm := rfl
@[simp] theorem Panel.setCmd_sel (a : Option (Byte × List Byte)) (P : Panel) : (P.setCmd a).sel = P.sel := rfl
@[simp] theorem Panel.setCmd_bad (a : Option (Byte × List Byte)) (P : Panel) : (P.setCmd a).bad = P.bad := rfl
@[simp] theorem Panel.setCmd_pulse (a : Option (Byte × List Byte)) (P : Panel) : (P.setCmd a).pulse = P.pulse := rfl
@[simp] theorem Panel.setCmd_initGot (a : Option (Byte × List Byte)) (P : Panel) : (P.setCmd a).initGot = P.initGot := rfl
@[simp] theorem Panel.setHalf_gram (a : Option Byte) (P : Panel) : (P.setHalf a).gram = P.gram := rfl
@[simp] theorem Panel.setHalf_ready (a : Option Byte) (P : Panel) : (P.setHalf a).ready = P.ready := rfl
@[simp] theorem Panel.setHalf_addr (a : Option Byte) (P : Panel) : (P.setHalf a).addr = P.addr := rfl
@[simp] theorem Panel.setHalf_cmd (a : Option Byte) (P : Panel) : (P.setHalf a).cmd = P.cmd := rfl
@[simp] theorem Panel.setHalf_half (a : Option Byte) (P : Panel) : (P.setHalf a).half = a := rfl
@[simp] theorem Panel.setHalf_frm (a : Option Byte) (P : Panel) : (P.setHalf a).frm = P.frm := rfl
@[simp] theorem Panel.setHalf_sel (a : Option Byte) (P : Panel) : (P.setHalf a).sel = P.sel := rfl
@[simp] theorem Panel.setHalf_bad (a : Option Byte) (P : Panel) : (P.setHalf a).bad = P.bad := rfl
@[simp] theorem Panel.setHalf_pulse (a : Option Byte) (P : Panel) : (P.setHalf a).pulse = P.pulse := rfl
@[simp] theorem Panel.setHalf_initGot (a : Option Byte) (P : Panel) : (P.setHalf a).initGot = P.initGot := rfl
@[simp] theorem Panel.setSel_gram (a : Bool) (P : Panel) : (P.setSel a).gram = P.gram := rfl
@[simp] theorem Panel.setSel_ready (a : Bool) (P : Panel) : (P.setSel a).ready = P.ready := rfl
@[simp] theorem Panel.setSel_addr (a : Bool) (P : Panel) : (P.setSel a).addr = P.addr := rfl
@[simp] theorem Panel.setSel_cmd (a : Bool) (P : Panel) : (P.setSel a).cmd = P.cmd := rfl
@[simp] theorem Panel.setSel_half (a : Bool) (P : Panel) : (P.setSel a).half = P.half := rfl
@[simp] theorem Panel.setSel_frm (a : Bool) (P : Panel) : (P.setSel a).frm = P.frm := rfl
@[simp] theorem Panel.setSel_sel (a : Bool) (P : Panel) : (P.setSel a).sel = a := rfl
@[simp] theorem Panel.setSel_bad (a : Bool) (P : Panel) : (P.setSel a).bad = P.bad := rfl
@[simp] theorem Panel.setSel_pulse (a : Bool) (P : Panel) : (P.setSel a).pulse = P.pulse := rfl
@[simp] theorem Panel.setSel_initGot (a : Bool) (P : Panel) : (P.setSel a).initGot = P.initGot := rfl
@[simp] theorem Panel.setFrm_gram (a : Framing) (P : Panel) : (P.setFrm a).gram = P.gram := rfl
@[simp] theorem Panel.setFrm_ready (a : Framing) (P : Panel) : (P.setFrm a).ready = P.ready := rfl
@[simp] theorem Panel.setFrm_addr (a : Framing) (P : Panel) : (P.setFrm a).addr = P.addr := rfl
@[simp] theorem Panel.setFrm_cmd (a : Framing) (P : Panel) : (P.setFrm a).cmd = P.cmd := rfl
@[simp] theorem Panel.setFrm_half (a : Framing) (P : Panel) : (P.setFrm a).half = P.half := rfl
@[simp] theorem Panel.setFrm_frm (a : Framing) (P : Panel) : (P.setFrm a).frm = some a := rfl
@[simp] theorem Panel.setFrm_sel (a : Framing) (P : Panel) : (P.setFrm a).sel = P.sel := rfl
@[simp] theorem Panel.setFrm_bad (a : Framing) (P : Panel) : (P.setFrm a).bad = P.bad := rfl
@[simp] theorem Panel.setFrm_pulse (a : Framing) (P : Panel) : (P.setFrm a).pulse = P.pulse := rfl
@[simp] theorem Panel.setFrm_initGot (a : Framing) (P : Panel) : (P.setFrm a).initGot = P.initGot := rfl

/-! ### Completion -/

theorem State.settle_of_lt {s : State} (h : s.seq < s.plan.length) : s.settle = s := if_pos h

theorem State.settle_of_not_lt {s : State} (h : ¬ s.seq < s.plan.length) : s.settle = s.finish := if_neg h

@[simp] theorem State.settle_params (s : State) : s.settle.params = s.params := by
  unfold State.settle; split <;> rfl

@[simp] theorem State.settle_lines (s : State) : s.settle.lines = s.lines := by
  unfold State.settle; split <;> rfl

@[simp] theorem State.settle_req (s : State) : s.settle.req = s.req := by
  unfold State.settle; split <;> rfl

@[simp] theorem State.settle_work (s : State) : s.settle.work = s.work := by
  unfold State.settle; split <;> rfl

@[simp] theorem State.settle_pix (s : State) : s.settle.pix = s.pix := by
  unfold State.settle; split <;> rfl

@[simp] theorem State.settle_plan (s : State) : s.settle.plan = s.plan := by
  unfold State.settle; split <;> rfl

@[simp] theorem State.settle_seq (s : State) : s.settle.seq = s.seq := by
  unfold State.settle; split <;> rfl

@[simp] theorem State.settle_trace (s : State) : s.settle.trace = s.trace := by
  unfold State.settle; split <;> rfl

@[simp] theorem State.settle_fault (s : State) : s.settle.fault = s.fault := by
  unfold State.settle; split <;> rfl

@[simp] theorem State.settle_port (s : State) : s.settle.port = s.port := by
  unfold State.settle; split <;> rfl

@[simp] theorem State.settle_src (s : State) : s.settle.src = s.src := by
  unfold State.settle; split <;> rfl

@[simp] theorem State.settle_panel (s : State) : s.settle.panel = s.panel := by
  unfold State.settle; split <;> rfl

/-- After `settle` the block is busy only if it was and the plan is not exhausted. -/
theorem State.settle_busy (s : State) : s.settle.busy = (s.busy && decide (s.seq < s.plan.length)) := by
  unfold State.settle; split <;> simp_all

theorem State.settle_initState (s : State) : s.settle.initState =
    if s.seq < s.plan.length then s.initState else if s.initState = .running then .done else s.initState := by
  unfold State.settle; split <;> simp_all

end Sys2Proof.Machine
end

