-- ==== Sys2Proof/Laws/Ops.lean ====
section
/-! SUPPORT. What the shared operations can do: emission over lists, a raised fault, the transport primitives and the two
session operations. -/

namespace Sys2Proof.Machine

/-! ### Emission -/

theorem emitAll_append (as bs : List Event) (s : State) :
    State.emitAll (as ++ bs) s = State.emitAll bs (State.emitAll as s) := by
  induction as generalizing s with
  | nil => rfl
  | cons a as ih => exact ih (s.emit a)

@[simp] theorem emitAll_trace (es : List Event) (s : State) : (State.emitAll es s).trace = s.trace ++ es := by
  induction es generalizing s with
  | nil => simp [State.emitAll]
  | cons e es ih => simp [State.emitAll, ih]

@[simp] theorem emitAll_lines (es : List Event) (s : State) :
    (State.emitAll es s).lines = Lines.afterAll es s.lines := by
  induction es generalizing s with
  | nil => rfl
  | cons e es ih => simp [State.emitAll, ih, Lines.afterAll]

@[simp] theorem emitAll_params (es : List Event) (s : State) : (State.emitAll es s).params = s.params := by
  induction es generalizing s with
  | nil => rfl
  | cons e es ih => simp [State.emitAll, ih]

@[simp] theorem emitAll_panel (es : List Event) (s : State) :
    (State.emitAll es s).panel = s.panel.replay s.params s.lines.dir es := by
  induction es generalizing s with
  | nil => rfl
  | cons e es ih => simp [State.emitAll, ih, Panel.replay]

/-- Emission touches the bus only. -/
theorem emitAll_onlyBusChanged (es : List Event) (s : State) : onlyBusChanged s (State.emitAll es s) := by
  induction es generalizing s with
  | nil => simp [State.emitAll, onlyBusChanged]
  | cons e es ih => simpa [State.emitAll, onlyBusChanged] using ih (s.emit e)

/-! ### Faults and sequencing -/

/-- A raised fault stops with the first fault recorded (R203). -/
theorem raise_eq (f : Fault) (s : State) : raise f s = .fault (s.fault.getD f) := rfl

@[simp] theorem thenDo_next (s : State) (k : State → Result) : thenDo (.next s) k = k s := rfl
@[simp] theorem thenDo_fault (f : Fault) (k : State → Result) : thenDo (.fault f) k = .fault f := rfl
@[simp] theorem thenDo_refused (q : Refusal) (k : State → Result) : thenDo (.refused q) k = .refused q := rfl

/-! ### The replay of the panel -/

/-- Whether the lines are driven after a list of events. -/
theorem replay_append (p : Params) (d : Bool) (P : Panel) (as bs : List Event) :
    P.replay p d (as ++ bs) = (P.replay p d as).replay p (as.foldl (fun v e => dirAfter e v) d) bs := by
  induction as generalizing d P with
  | nil => rfl
  | cons a as ih => simp [Panel.replay, ih]

@[simp] theorem dirAfter_true (e : Event) : dirAfter e true = true := by cases e <;> rfl

theorem foldl_dirAfter_true (es : List Event) : es.foldl (fun v e => dirAfter e v) true = true := by
  induction es with
  | nil => rfl
  | cons e es ih => simpa using ih

/-- Behind driven lines a replay splits anywhere. -/
theorem replay_append_driven (p : Params) (P : Panel) (as bs : List Event) :
    P.replay p true (as ++ bs) = (P.replay p true as).replay p true bs := by
  rw [replay_append, foldl_dirAfter_true]

/-! ### The transport primitives -/

theorem selectOp_closed {s : State} (h : s.lines.csSel = false) : selectOp s = .next (s.emit .sel) := by
  simp [selectOp, h]

theorem selectOp_open {s : State} (h : s.lines.csSel = true) (hf : s.fault = none) :
    selectOp s = .fault .nestedSession := by
  simp [selectOp, h, raise_eq, hf]

/-- Bytes alone leave the session open and the framing set. -/
theorem afterAll_bytes (bs : List Byte) (l : Lines) :
    Lines.afterAll (bs.map .byte) l = { l with sessDirty := l.sessDirty || !bs.isEmpty } := by
  induction bs generalizing l with
  | nil => simp [Lines.afterAll]
  | cons b bs ih => simp [ih, Lines.afterAll]

theorem afterAll_append (as bs : List Event) (l : Lines) :
    Lines.afterAll (as ++ bs) l = Lines.afterAll bs (Lines.afterAll as l) := by
  induction as generalizing l with
  | nil => rfl
  | cons a as ih => exact ih (l.after a)

/-- SEND_CMD with no session open emits the whole command session. -/
theorem sendCmdOp_closed (op : Byte) {s : State} (h : s.lines.csSel = false) :
    sendCmdOp op s = .next (State.emitAll (cmdSession op) s) := by
  simp [sendCmdOp, selectOp, h, setFraming, writeOp, State.emitAll, deselectOp, cmdSession]

/-- SEND_DATA with no session open emits the whole data session. -/
theorem sendDataOp_closed (bs : List Byte) {s : State} (h : s.lines.csSel = false) :
    sendDataOp bs s = .next (State.emitAll (dataSession bs) s) := by
  simp [sendDataOp, selectOp, h, setFraming, writeOp, State.emitAll, deselectOp, dataSession, emitAll_append,
    afterAll_bytes]

/-- After a whole session no session is open and its framing rests on the line. -/
theorem cmdSession_lines (op : Byte) (l : Lines) :
    Lines.afterAll (cmdSession op) l = { l with csSel := false, dcFrm := some .C, sessDirty := false } := by
  simp [cmdSession, Lines.afterAll]

theorem dataSession_lines (bs : List Byte) (l : Lines) :
    Lines.afterAll (dataSession bs) l = { l with csSel := false, dcFrm := some .D, sessDirty := false } := by
  simp [dataSession, Lines.afterAll, afterAll_append, afterAll_bytes]

theorem sendCmdOp_open (op : Byte) {s : State} (h : s.lines.csSel = true) (hf : s.fault = none) :
    sendCmdOp op s = .fault .nestedSession := by
  simp [sendCmdOp, selectOp_open h hf]

theorem sendDataOp_open (bs : List Byte) {s : State} (h : s.lines.csSel = true) (hf : s.fault = none) :
    sendDataOp bs s = .fault .nestedSession := by
  simp [sendDataOp, selectOp_open h hf]

end Sys2Proof.Machine
end

