-- ==== Sys2Proof/Laws/Sequencer.lean ====
section
/-! SUPPORT. What executing a plan does: one item, the rest of a plan, and an accepted request (R27). -/

namespace Sys2Proof.Machine

/-- One plan item emits one event that it may emit, and leaves the sequencer, the operands, the ports and the parameters. -/
theorem PlanItem.run_spec {s t : State} {item : PlanItem} (h : item.run s = some t) :
    ∃ e, item.emits e ∧ t.trace = s.trace ++ [e] ∧ t.lines = s.lines.after e ∧
      t.panel = s.panel.see s.params s.lines.dir e ∧ t.params = s.params ∧ t.initState = s.initState ∧
      t.busy = s.busy ∧ t.req = s.req ∧ t.plan = s.plan ∧ t.seq = s.seq ∧ t.fault = s.fault ∧ t.port = s.port ∧
      t.src = s.src := by
  cases item with
  | ev e => cases h; exact ⟨e, rfl, by simp⟩
  | openStream n => cases h; exact ⟨.sel, rfl, by simp⟩
  | fillLow b => cases h; exact ⟨.byte b, rfl, by simp⟩
  | bitmapLow => cases h; exact ⟨.byte (lo8 s.pix), ⟨_, rfl⟩, by simp⟩
  | bitmapHigh =>
    simp only [PlanItem.run] at h
    split at h
    · next v _ => cases h; exact ⟨.byte (hi8 v), ⟨_, rfl⟩, by simp⟩
    · cases h

/-- What a step of a busy block without a fault can be: stray completion, waiting for the source, or the next item. -/
theorem advance_cases {s t : State} (h : advance s = .next t) :
    (s.plan[s.seq]? = none ∧ t = s.finish) ∨
      (∃ item, s.plan[s.seq]? = some item ∧ item.run s = none ∧ t = s) ∨
      ∃ item u, s.plan[s.seq]? = some item ∧ item.run s = some u ∧ t = State.settle (u.goto (s.seq + 1)) := by
  unfold advance at h
  split at h
  · cases h; exact .inl ⟨‹_›, rfl⟩
  · split at h
    · cases h; exact .inr (.inl ⟨_, ‹_›, ‹_›, rfl⟩)
    · cases h; exact .inr (.inr ⟨_, _, ‹_›, ‹_›, rfl⟩)

/-- What a step can be: a busy block advances; an idle one with nothing presented stays; otherwise the first presented word is
taken, decoded and executed, and an accepted request emits its first event. -/
theorem step_cases {s t : State} (h : step s = .next t) :
    s.fault = none ∧
      ((s.busy = true ∧ advance s = .next t) ∨ (s.busy = false ∧ s.port = [] ∧ t = s) ∨
        ∃ (q : Presented) (rest : List Presented) (i : Instr) (u : State), s.busy = false ∧ s.port = q :: rest ∧ decode s.params q.word = .ok i ∧
          exec i (s.take q rest) = .next u ∧ firstEvent u = .next t) := by
  unfold step at h
  split at h
  · cases h
  · refine ⟨‹_›, ?_⟩
    split at h
    · exact .inl ⟨‹_›, h⟩
    · split at h
      · cases h; exact .inr (.inl ⟨by simpa using ‹¬ s.busy = true›, ‹_›, rfl⟩)
      · next q rest hp =>
        split at h
        · cases h
        · next i hd =>
          cases hu : exec i (s.take q rest) with
          | next u => rw [hu] at h; exact .inr (.inr ⟨q, rest, i, u, by simpa using ‹¬ s.busy = true›, hp, hd, hu, h⟩)
          | fault f => rw [hu] at h; cases h
          | refused r => rw [hu] at h; cases h

/-- The items of a list one after another, without the sequencer. -/
def runItems : List PlanItem → State → Option State
  | [], s => some s
  | item :: items, s => (item.run s).bind (runItems items)

theorem runItems_append (as bs : List PlanItem) (s : State) :
    runItems (as ++ bs) s = (runItems as s).bind (runItems bs) := by
  induction as generalizing s with
  | nil => rfl
  | cons a as ih =>
    simp only [List.cons_append, runItems, Option.bind_assoc]
    cases a.run s <;> simp [ih]

/-- Plain events are emitted. -/
theorem runItems_ev (es : List Event) (s : State) : runItems (es.map .ev) s = some (State.emitAll es s) := by
  induction es generalizing s with
  | nil => rfl
  | cons e es ih => simpa [runItems, PlanItem.run, State.emitAll] using ih (s.emit e)

/-- An item does not look at `SEQ`. -/
theorem PlanItem.run_seq (item : PlanItem) (s : State) (k : Nat) :
    item.run (s.goto k) = (item.run s).map (State.goto k) := by
  cases item with
  | ev e => rfl
  | openStream n => rfl
  | fillLow b => rfl
  | bitmapLow => rfl
  | bitmapHigh =>
    have h : State.memRead (s.goto k) (State.entryIndex (s.goto k)) = s.memRead s.entryIndex := rfl
    simp only [PlanItem.run, h]
    cases s.memRead s.entryIndex <;> rfl

theorem runItems_seq (items : List PlanItem) (s : State) (k : Nat) :
    runItems items (s.goto k) = (runItems items s).map (State.goto k) := by
  induction items generalizing s with
  | nil => rfl
  | cons a as ih =>
    simp only [runItems, PlanItem.run_seq]
    cases a.run s <;> simp [ih]

theorem runFor_succ (k : Nat) (s : State) : runFor (k + 1) s = thenDo (step s) (runFor k) := by
  have hs : Sys2Proof.core.step s = step s := rfl
  simp only [runFor, Host.Core.run, hs]
  cases step s <;> rfl

theorem runFor_zero (s : State) : runFor 0 s = .next s := rfl

theorem runFor_add (j k : Nat) (s : State) : runFor (j + k) s = thenDo (runFor j s) (runFor k) := by
  induction j generalizing s with
  | zero => simp [runFor_zero]
  | succ j ih =>
    rw [Nat.succ_add, runFor_succ, runFor_succ]
    cases step s <;> simp [ih]

theorem step_busy {s : State} (hf : s.fault = none) (hb : s.busy = true) : step s = advance s := by
  simp [step, hf, hb]

/-- A step of a busy block whose next item can run. -/
theorem step_item {s u : State} {a : PlanItem} (hf : s.fault = none) (hb : s.busy = true)
    (hg : s.plan[s.seq]? = some a) (hu : a.run s = some u) : step s = .next (State.settle (u.goto (s.seq + 1))) := by
  rw [step_busy hf hb, advance, hg]
  simp only [hu]

/-- Items leave the sequencer, the ports and the status as they are. -/
theorem runItems_spec {items : List PlanItem} {s t : State} (h : runItems items s = some t) :
    t.params = s.params ∧ t.initState = s.initState ∧ t.busy = s.busy ∧ t.req = s.req ∧ t.plan = s.plan ∧
      t.seq = s.seq ∧ t.fault = s.fault ∧ t.port = s.port ∧ t.src = s.src := by
  induction items generalizing s with
  | nil => cases h; simp
  | cons a as ih =>
    obtain ⟨u, hu, h⟩ := Option.bind_eq_some_iff.mp h
    obtain ⟨e, h1⟩ := PlanItem.run_spec hu
    have h2 := ih h
    simp_all

/-- A busy block sends a prefix of what is left of its plan, one item a step, and is still busy while items are left. -/
theorem run_items {items more : List PlanItem} {s t : State} (hf : s.fault = none) (hb : s.busy = true)
    (hp : s.plan.drop s.seq = items ++ more) (hm : more ≠ []) (ht : runItems items s = some t) :
    runFor items.length s = .next (t.goto (s.seq + items.length)) := by
  induction items generalizing s t with
  | nil => cases ht; rfl
  | cons a as ih =>
    obtain ⟨u, hu, ht⟩ := Option.bind_eq_some_iff.mp ht
    obtain ⟨e, -, -, -, -, -, -, ub, -, up, us, uf, -⟩ := PlanItem.run_spec hu
    have hg : s.plan[s.seq]? = some a := by
      have := congrArg List.head? hp
      simpa [List.head?_drop] using this
    have hd : s.plan.drop (s.seq + 1) = as ++ more := by
      have := congrArg List.tail hp
      simpa [List.tail_drop] using this
    have hlt : s.seq + 1 < s.plan.length := by
      by_contra hc
      have : as ++ more = [] := by rw [← hd]; exact List.drop_eq_nil_of_le (by omega)
      simp [hm] at this
    rw [List.length_cons, runFor_succ, step_item hf hb hg hu, thenDo_next, State.settle_of_lt (by simpa [up] using hlt),
      ih (t := t.goto (s.seq + 1)) (by simpa [uf] using hf) (by simpa [ub] using hb) (by simpa [up] using hd)
        (by rw [runItems_seq, ht]; rfl)]
    simp [Nat.add_assoc, Nat.add_comm 1]

/-- A busy block sends all that is left of its plan and completes. -/
theorem run_to_end {items : List PlanItem} {s t : State} (hf : s.fault = none) (hb : s.busy = true)
    (hp : s.plan.drop s.seq = items) (hne : items ≠ []) (ht : runItems items s = some t) :
    runFor items.length s = .next (t.goto s.plan.length).finish := by
  obtain ⟨as, a, rfl⟩ : ∃ as a, items = as ++ [a] := ⟨items.dropLast, items.getLast hne, (List.dropLast_append_getLast hne).symm⟩
  rw [runItems_append] at ht
  obtain ⟨u, hu, ht⟩ := Option.bind_eq_some_iff.mp ht
  obtain ⟨v, hv, ht⟩ := Option.bind_eq_some_iff.mp ht
  cases ht
  have hmid := run_items hf hb hp (by simp) hu
  have hlen : s.plan.length = s.seq + as.length + 1 := by
    have h1 := congrArg List.length hp
    simp at h1
    omega
  obtain ⟨-, -, ub, -, up, -, uf, -⟩ := runItems_spec hu
  obtain ⟨e, -, -, -, -, -, -, vb, -, vp, vs, vf, -⟩ := PlanItem.run_spec hv
  have hg : s.plan[s.seq + as.length]? = some a := by
    have h1 := congrArg (fun l => l[as.length]?) hp
    simpa using h1
  rw [List.length_append, List.length_singleton, runFor_add, hmid, thenDo_next, ← Nat.zero_add 1, runFor_succ,
    step_item (a := a) (u := t.goto (s.seq + as.length)) (by simpa [uf] using hf) (by simpa [ub] using hb)
      (by simpa [up] using hg) (by rw [PlanItem.run_seq, hv]; rfl),
    State.settle_of_not_lt (by simp [vp, up, hlen])]
  simp [runFor_zero, hlen]

/-- The step that takes a word whose execution leaves the block busy is the step of the accepted request. -/
theorem step_takes {s : State} {i : Instr} {src : List Pixel} {rest : List Presented} {a : State}
    (hp : s.presents i src rest) (hd : decode s.params (encode s.params i) = .ok i)
    (ha : exec i (s.take { word := encode s.params i, src := src } rest) = .next a) :
    step s = firstEvent a := by
  obtain ⟨hf, hb, hq⟩ := hp
  simp [step, hf, hb, hq, hd, ha]

end Sys2Proof.Machine
end

