-- ==== Sys2Proof/Laws/Dispatch.lean ====
section
/-! SUPPORT. What one instruction can do when it answers a next state, said once for all of them. -/

namespace Sys2Proof.Machine

theorem thenDo_eq_next {r : Result} {k : State → Result} {t : State} :
    thenDo r k = .next t ↔ ∃ s, r = .next s ∧ k s = .next t := by
  cases r <;> simp [thenDo]

/-- If the result is a next state, it is `s` after a list of events. -/
def emitsOnly (r : Result) (s : State) : Prop := ∀ t, r = .next t → ∃ es, t = State.emitAll es s

theorem emitsOnly.andThen {r : Result} {s : State} {k : State → Result} (hr : emitsOnly r s)
    (hk : ∀ u, emitsOnly (k u) u) : emitsOnly (thenDo r k) s := by
  intro t h
  obtain ⟨u, hu, h⟩ := thenDo_eq_next.mp h
  obtain ⟨as, rfl⟩ := hr u hu
  obtain ⟨bs, rfl⟩ := hk _ t h
  exact ⟨as ++ bs, (emitAll_append as bs s).symm⟩

theorem raise_emitsOnly (f : Fault) (s : State) : emitsOnly (raise f s) s := fun t h => by simp [raise_eq] at h

theorem emit_emitsOnly (e : Event) (s : State) : emitsOnly (.next (s.emit e)) s := fun _ h => ⟨[e], by cases h; rfl⟩

theorem emitAll_emitsOnly (es : List Event) (s : State) : emitsOnly (.next (State.emitAll es s)) s :=
  fun _ h => ⟨es, by cases h; rfl⟩

theorem ite_emitsOnly {c : Prop} [Decidable c] {a b : Result} {s : State} (ha : emitsOnly a s) (hb : emitsOnly b s) :
    emitsOnly (if c then a else b) s := by
  split
  · exact ha
  · exact hb

theorem selectOp_emitsOnly (s : State) : emitsOnly (selectOp s) s := ite_emitsOnly (raise_emitsOnly _ s) (emit_emitsOnly _ s)

theorem deselectOp_emitsOnly (s : State) : emitsOnly (deselectOp s) s :=
  ite_emitsOnly (emit_emitsOnly _ s) (raise_emitsOnly _ s)

theorem setFraming_emitsOnly (f : Framing) (s : State) : emitsOnly (setFraming f s) s :=
  ite_emitsOnly (raise_emitsOnly _ s) (emit_emitsOnly _ s)

theorem writeOp_emitsOnly (bs : List Byte) (s : State) : emitsOnly (writeOp bs s) s :=
  ite_emitsOnly (raise_emitsOnly _ s) (emitAll_emitsOnly _ s)

theorem sendCmdOp_emitsOnly (b : Byte) (s : State) : emitsOnly (sendCmdOp b s) s :=
  (selectOp_emitsOnly s).andThen fun u => (setFraming_emitsOnly _ u).andThen fun v =>
    (writeOp_emitsOnly _ v).andThen deselectOp_emitsOnly

theorem sendDataOp_emitsOnly (bs : List Byte) (s : State) : emitsOnly (sendDataOp bs s) s :=
  (selectOp_emitsOnly s).andThen fun u => (setFraming_emitsOnly _ u).andThen fun v =>
    (writeOp_emitsOnly _ v).andThen deselectOp_emitsOnly

/-- What an accepted request leaves (R27): the loaded plan, the latched operands, and for a request that draws the clipped
window. -/
inductive Accepted (s : State) : Instr → State → Prop
  | initialization (x y w h : Coord) (c : Pixel) (hi : s.initState = .notRun) :
    Accepted s (.initPanel x y w h c)
      (State.load ((initPlan s.params).map .ev) { s.latch (latched 0x0 x y w h c) with initState := .running })
  | nothing (i : Instr) (r : ReqRegs) (hi : s.initState = .done) (hr : r.op ≠ 0) :
    Accepted s i (State.load [] (s.latch r))
  | draw (i : Instr) (r : ReqRegs) (px : List PlanItem) (x y w h : Coord)
    (hpx : (∃ c, px = fillPixel c) ∨ px = bitmapPixel ∧ r.op = 0x3) (hi : s.initState = .done) (hr : r.op ≠ 0)
    (hc : clip s.params r.rx r.ry r.rw r.rh = .window x y w h) (hs : s.lines.csSel = false) :
    Accepted s i (State.load (streamPlan s.params x y w h px) { s.latch r with work := s.work.clipped x y w h })

theorem startDrawing_accepted {i : Instr} {px : List PlanItem} {r : ReqRegs} {s t : State}
    (hpx : (∃ c, px = fillPixel c) ∨ px = bitmapPixel ∧ r.op = 0x3) (hr : r.op ≠ 0)
    (h : startDrawing px (State.latch r s) = .next t) : Accepted s i t := by
  unfold startDrawing at h
  split at h
  · simp [raise_eq] at h
  · next hi =>
    split at h
    · cases h
      exact .nothing _ r (by simpa using hi) hr
    · next hc =>
      split at h
      · simp [raise_eq] at h
      · next hs =>
        cases h
        exact .draw _ r px _ _ _ _ hpx (by simpa using hi) hr hc (by simpa using hs)

/-- An instruction that answers a next state has emitted events, or written the working registers, or it is a request:
without effect while `BUSY = 1`, accepted otherwise. -/
theorem exec_cases {i : Instr} {s t : State} (h : exec i s = .next t) :
    (∃ es, t = State.emitAll es s) ∨ (∃ w, t = { s with work := w }) ∨
      ((∃ d, ∀ p, encode p i = .request d) ∧ (s.busy = true ∧ t = s ∨ s.busy = false ∧ Accepted s i t)) := by
  have request : ∀ {r : Result}, (∃ d, ∀ p, encode p i = .request d) → exec i s = whenReady s r →
      (r = .next t → Accepted s i t) →
      (∃ d, ∀ p, encode p i = .request d) ∧ (s.busy = true ∧ t = s ∨ s.busy = false ∧ Accepted s i t) := by
    intro r hd he hr
    rw [he, whenReady] at h
    split at h
    · cases h
      exact ⟨hd, .inl ⟨‹_›, rfl⟩⟩
    · next hb => exact ⟨hd, .inr ⟨by simpa using hb, hr h⟩⟩
  cases i with
  | select => exact .inl (selectOp_emitsOnly s t h)
  | deselect => exact .inl (deselectOp_emitsOnly s t h)
  | setCmdFraming => exact .inl (setFraming_emitsOnly _ s t h)
  | setDataFraming => exact .inl (setFraming_emitsOnly _ s t h)
  | write bs => exact .inl (writeOp_emitsOnly _ s t h)
  | sleepMs d => exact .inl (emit_emitsOnly _ s t h)
  | cfgOut => exact .inl (emit_emitsOnly _ s t h)
  | rstSet l => exact .inl (emit_emitsOnly _ s t h)
  | blEnable => exact .inl (emit_emitsOnly _ s t h)
  | sendCmd op => exact .inl (sendCmdOp_emitsOnly _ s t h)
  | sendData op => exact .inl (sendDataOp_emitsOnly _ s t h)
  | slpout => exact .inl (sendCmdOp_emitsOnly _ s t h)
  | dispon => exact .inl (sendCmdOp_emitsOnly _ s t h)
  | ramwr => exact .inl (sendCmdOp_emitsOnly _ s t h)
  | caset a b => exact .inl ((sendCmdOp_emitsOnly _ s).andThen (sendDataOp_emitsOnly _) t h)
  | raset a b => exact .inl ((sendCmdOp_emitsOnly _ s).andThen (sendDataOp_emitsOnly _) t h)
  | madctl => exact .inl ((sendCmdOp_emitsOnly _ s).andThen (sendDataOp_emitsOnly _) t h)
  | colmod => exact .inl ((sendCmdOp_emitsOnly _ s).andThen (sendDataOp_emitsOnly _) t h)
  | setWindow a b c d =>
    exact .inl (ite_emitsOnly
      ((sendCmdOp_emitsOnly _ s).andThen fun u => (sendDataOp_emitsOnly _ u).andThen fun u =>
        (sendCmdOp_emitsOnly _ u).andThen fun u => (sendDataOp_emitsOnly _ u).andThen fun u => sendCmdOp_emitsOnly _ u)
      (raise_emitsOnly _ s) t h)
  | clip x y w hh =>
    simp only [exec, execClip] at h
    split at h <;> cases h
    · exact .inl ⟨[], rfl⟩
    · exact .inr (.inl ⟨_, rfl⟩)
  | initPanel x y w hh c =>
    refine .inr (.inr (request ⟨_, fun _ => rfl⟩ rfl fun h => ?_))
    split at h
    · simp [raise_eq] at h
    · next hi =>
      cases h
      exact .initialization _ _ _ _ _ (by simpa using hi)
  | fillRect x y w hh c =>
    exact .inr (.inr (request ⟨_, fun _ => rfl⟩ rfl (startDrawing_accepted (.inl ⟨_, rfl⟩) (by simp [latched]))))
  | fillScreen x y w hh c =>
    exact .inr (.inr (request ⟨_, fun _ => rfl⟩ rfl (startDrawing_accepted (.inl ⟨_, rfl⟩) (by simp [latched]))))
  | drawBitmap x y w hh c =>
    exact .inr (.inr (request ⟨_, fun _ => rfl⟩ rfl (startDrawing_accepted (.inr ⟨rfl, rfl⟩) (by simp [latched]))))

/-! ### The first event of an accepted request -/

/-- A plan of at least two items whose first emits `e`: the acceptance step ends after it. -/
theorem firstEvent_load (e : Event) (item : PlanItem) (more : List PlanItem) (v : State) :
    firstEvent (State.load (.ev e :: item :: more) v) =
      .next (State.goto 1 (State.emit e { v with busy := true, plan := .ev e :: item :: more })) := by
  have h1 : State.load (.ev e :: item :: more) v =
      State.goto 0 { v with busy := true, plan := .ev e :: item :: more } := by
    rw [State.load, State.settle_of_lt]
    simp
  rw [h1, firstEvent, if_pos (by rfl), advance]
  simp only [State.goto_plan, State.goto_seq, List.getElem?_cons_zero, PlanItem.run]
  rw [State.settle_of_lt (by simp)]
  rfl

theorem firstEvent_load_nil (v : State) : firstEvent (State.load [] v) = .next (State.load [] v) := by
  simp [firstEvent, State.load, State.settle]

/-- `InitPlan` begins with `CFG_OUT` and has 33 events. -/
theorem initPlan_shape (p : Params) : ∃ e es, initPlan p = .cfgOut :: e :: es ∧ es.length = 31 := by
  unfold initPlan resetPulse
  cases p.placement <;> exact ⟨_, _, rfl, by simp [cmdSession, dataSession]⟩

/-- A drawing plan begins with the SEL of the row command. -/
theorem streamPlan_shape (p : Params) (x y w h : Coord) (px : List PlanItem) :
    ∃ item items, streamPlan p x y w h px = .ev .sel :: item :: items := by
  unfold streamPlan windowPlan cmdSession
  exact ⟨_, _, rfl⟩

/-- An accepted request after its first event. -/
theorem Accepted.first {s u t : State} {i : Instr} (ha : Accepted s i u) (h : firstEvent u = .next t) :
    (∃ x y w hh c, i = .initPanel x y w hh c ∧ s.initState = .notRun ∧
      t = State.goto 1 (State.emit .cfgOut { s with
        req := latched 0x0 x y w hh c, initState := .running, busy := true, plan := (initPlan s.params).map .ev })) ∨
    (∃ r : ReqRegs, s.initState = .done ∧ r.op ≠ 0 ∧ t = State.load [] (s.latch r)) ∨
    (∃ (r : ReqRegs) (px : List PlanItem) (x y w hh : Coord),
      ((∃ c, px = fillPixel c) ∨ px = bitmapPixel ∧ r.op = 0x3) ∧ s.initState = .done ∧ r.op ≠ 0 ∧
      clip s.params r.rx r.ry r.rw r.rh = .window x y w hh ∧ s.lines.csSel = false ∧
      t = State.goto 1 (State.emit .sel { s with
        req := r, work := s.work.clipped x y w hh, busy := true, plan := streamPlan s.params x y w hh px })) := by
  cases ha with
  | initialization x y w hh c hi =>
    refine .inl ⟨x, y, w, hh, c, rfl, hi, ?_⟩
    obtain ⟨e, es, he, -⟩ := initPlan_shape s.params
    rw [he] at h ⊢
    simp only [List.map_cons] at h ⊢
    rw [firstEvent_load] at h
    cases h
    rfl
  | nothing i r hi hr =>
    refine .inr (.inl ⟨r, hi, hr, ?_⟩)
    rw [firstEvent_load_nil] at h
    cases h
    rfl
  | draw i r px x y w hh hpx hi hr hc hs =>
    refine .inr (.inr ⟨r, px, x, y, w, hh, hpx, hi, hr, hc, hs, ?_⟩)
    obtain ⟨e, es, he⟩ := streamPlan_shape s.params x y w hh px
    rw [he] at h ⊢
    rw [firstEvent_load] at h
    cases h
    rfl

end Sys2Proof.Machine
end

