-- ==== Sys2Proof/Laws/Gram.lean ====
section
/-! SUPPORT. The laws of the pixel memory: a read after a write, and the canonical form kept by every operation. -/

namespace Sys2Proof.Machine

theorem Gram.lookup_insert_self (m : Gram) (a : Nat) (v : Pixel) : (m.insert a v).lookup a = some v := by
  induction m with
  | nil => simp [Gram.insert, Gram.lookup]
  | cons e m ih =>
    obtain ⟨k, u⟩ := e
    simp only [Gram.insert]
    split
    · simp [Gram.lookup]
    · split
      · simp [Gram.lookup]
      · simp_all [Gram.lookup]

theorem Gram.lookup_insert_of_ne (m : Gram) {a b : Nat} (v : Pixel) (h : b ≠ a) :
    (m.insert a v).lookup b = m.lookup b := by
  induction m with
  | nil => simp [Gram.insert, Gram.lookup, h]
  | cons e m ih =>
    obtain ⟨k, u⟩ := e
    simp only [Gram.insert]
    split
    · simp [Gram.lookup, h]
    · split
      · next hk => subst hk; simp [Gram.lookup, h]
      · simp [Gram.lookup, ih]

/-- No two cells share a key. -/
theorem cellKey_inj {c r c' r' : Coord} : cellKey c r = cellKey c' r' ↔ c = c' ∧ r = r' := by
  constructor
  · intro h
    unfold cellKey at h
    have hc := c.isLt
    have hc' := c'.isLt
    constructor <;> apply BitVec.eq_of_toNat_eq <;> omega
  · rintro ⟨rfl, rfl⟩; rfl

theorem Gram.wf_tail {e : Nat × Pixel} {m : Gram} (h : Gram.wf (e :: m) = true) : Gram.wf m = true := by
  cases m with
  | nil => rfl
  | cons e' m => simp_all [Gram.wf]

/-- Every key of a canonical memory is above its first. -/
theorem Gram.wf_cons {k : Nat} {u : Pixel} {m : Gram} :
    Gram.wf ((k, u) :: m) = true ↔ Gram.wf m = true ∧ ∀ e ∈ m.head?, k < e.1 := by
  cases m with
  | nil => simp [Gram.wf]
  | cons e' m => obtain ⟨k', v'⟩ := e'; simp [Gram.wf, and_comm]

theorem Gram.head_insert (m : Gram) (a : Nat) (v : Pixel) :
    ∀ e ∈ (m.insert a v).head?, e.1 = a ∨ e ∈ m.head? := by
  cases m with
  | nil => simp [Gram.insert]
  | cons e m =>
    obtain ⟨k, u⟩ := e
    simp only [Gram.insert]
    split
    · simp
    · split <;> simp

theorem Gram.insert_wf (m : Gram) (a : Nat) (v : Pixel) (h : m.wf = true) : (m.insert a v).wf = true := by
  induction m with
  | nil => rfl
  | cons e m ih =>
    obtain ⟨k, u⟩ := e
    obtain ⟨hm, hk⟩ := Gram.wf_cons.mp h
    simp only [Gram.insert]
    split
    · exact Gram.wf_cons.mpr ⟨h, by simpa⟩
    · split
      · next hak => subst hak; exact Gram.wf_cons.mpr ⟨hm, hk⟩
      · refine Gram.wf_cons.mpr ⟨ih hm, fun e he => ?_⟩
        rcases Gram.head_insert m a v e he with h' | h'
        · omega
        · exact hk e h'

/-- Every write keeps the canonical form. -/
theorem Gram.write_wf (m : Gram) (c r : Coord) (v : Pixel) (h : m.wf = true) : (m.write c r v).wf = true :=
  Gram.insert_wf m _ v h

/-- The power-on memory has the canonical form. -/
theorem Gram.reset_wf : State.reset.panel.gram.wf = true := rfl

end Sys2Proof.Machine
end

