-- ==== Sys2Proof/Laws/Panel.lean ====
section
/-! SUPPORT. What each function of the panel reference model can do: `P_BAD` is sticky (R61), and each keeps the panel
sound. -/

namespace Sys2Proof.Machine

theorem replay_nil (p : Params) (d : Bool) (P : Panel) : P.replay p d [] = P := by cases d <;> rfl

theorem replay_cons (p : Params) (d : Bool) (P : Panel) (e : Event) (es : List Event) :
    P.replay p d (e :: es) = (P.see p d e).replay p (dirAfter e d) es := rfl

/-- Behind driven lines the panel sees every event as it is. -/
theorem replay_cons_driven (p : Params) (P : Panel) (e : Event) (es : List Event) :
    P.replay p true (e :: es) = (P.onEvent p e).replay p true es := by
  simp [Panel.replay, Panel.see]

/-! ### `P_BAD` is never cleared -/

@[simp] theorem Panel.store_bad (P : Panel) (c r : Coord) (v : Pixel) : (P.store c r v).bad = P.bad := by
  unfold Panel.store
  split <;> rfl

theorem Panel.dropHalf_bad {P : Panel} (h : P.bad = true) : P.dropHalf.bad = true := by
  unfold Panel.dropHalf
  split <;> simp [h]

theorem Panel.endParameters_bad {p : Params} {P : Panel} (h : P.bad = true) : (P.endParameters p).bad = true := by
  unfold Panel.endParameters
  repeat' split
  all_goals simp [h]

theorem Panel.command_bad {p : Params} {op : Byte} {P : Panel} (h : P.bad = true) : (P.command p op).bad = true := by
  unfold Panel.command
  repeat' split
  all_goals simp [h]

theorem Panel.setRows_bad {p : Params} {a b : Coord} {P : Panel} (h : P.bad = true) : (P.setRows p a b).bad = true := by
  unfold Panel.setRows
  split <;> simp [h]

theorem Panel.setCols_bad {p : Params} {a b : Coord} {P : Panel} (h : P.bad = true) : (P.setCols p a b).bad = true := by
  unfold Panel.setCols
  repeat' split
  all_goals simp [h]

theorem Panel.parameterByte_bad {p : Params} {op b : Byte} {bs : List Byte} {P : Panel} (h : P.bad = true) :
    (P.parameterByte p op bs b).bad = true := by
  unfold Panel.parameterByte
  repeat' split
  all_goals simp [h, Panel.setRows_bad, Panel.setCols_bad]

theorem Panel.pixelByte_bad (xs xe ys ye c r : Coord) (b : Byte) (P : Panel) :
    (P.pixelByte xs xe ys ye c r b).bad = P.bad := by
  unfold Panel.pixelByte
  split <;> simp

theorem Panel.dataByte_bad {p : Params} {b : Byte} {P : Panel} (h : P.bad = true) : (P.dataByte p b).bad = true := by
  unfold Panel.dataByte
  split
  · exact Panel.parameterByte_bad h
  · split
    · rw [Panel.pixelByte_bad, h]
    · rfl

theorem Panel.framedByte_bad {p : Params} {f : Framing} {b : Byte} {P : Panel} (h : P.bad = true) :
    (P.framedByte p f b).bad = true := by
  unfold Panel.framedByte
  split
  · rfl
  · split
    · unfold Panel.initByte
      split
      · exact h
      · rfl
    · split
      · exact Panel.command_bad (Panel.endParameters_bad (Panel.dropHalf_bad h))
      · exact Panel.dataByte_bad h

theorem Panel.onEvent_bad {p : Params} {e : Event} {P : Panel} (h : P.bad = true) : (P.onEvent p e).bad = true := by
  cases e with
  | byte b =>
    simp only [Panel.onEvent]
    split
    · exact Panel.framedByte_bad h
    · rfl
  | desel =>
    simp only [Panel.onEvent]
    split <;> simp [h]
  | rst l => cases l <;> exact h
  | _ => exact h

theorem Panel.see_bad {p : Params} {d : Bool} {e : Event} {P : Panel} (h : P.bad = true) : (P.see p d e).bad = true := by
  unfold Panel.see
  split
  · exact Panel.onEvent_bad h
  · rfl

/-- `P_BAD` stays set over a list of events. -/
theorem replay_bad {p : Params} {d : Bool} {P : Panel} {es : List Event} (h : P.bad = true) :
    (P.replay p d es).bad = true := by
  induction es generalizing d P with
  | nil => rw [replay_nil, h]
  | cons e es ih => exact ih (Panel.see_bad h)

/-- A command byte with no parameters missing is R54's alone. -/
theorem Panel.endParameters_of_none {p : Params} {P : Panel} (h : P.cmd = none) : P.endParameters p = P := by
  simp [Panel.endParameters, h]

/-! ### The pixel memory under one write -/

theorem Gram.read_nil (c r : Coord) : Gram.read [] c r = none := rfl

theorem Gram.read_write (m : Gram) (c r : Coord) (v : Pixel) (c' r' : Coord) :
    (m.write c r v).read c' r' = if c' = c ∧ r' = r then some v else m.read c' r' := by
  unfold Gram.read Gram.write
  split
  · next h =>
    obtain ⟨rfl, rfl⟩ := h
    exact Gram.lookup_insert_self _ _ _
  · next h => exact Gram.lookup_insert_of_ne _ _ fun e => h (cellKey_inj.mp e)

/-! ### Soundness -/

theorem Panel.sound.poison {p : Params} {P : Panel} (h : P.sound p) : P.poison.sound p :=
  ⟨rfl, fun c r h => absurd (Gram.read_nil c r) h, fun _ => rfl, h.2.2.2.1, h.2.2.2.2⟩

/-- A change that keeps the cells and `P_BAD`. -/
theorem Panel.sound.congr {p : Params} {P Q : Panel} (h : P.sound p) (g : Q.gram = P.gram) (b : Q.bad = P.bad)
    (a : Q.addr.inside p) (r : Q.ready = true → Q.pulse = .released) : Q.sound p := by
  obtain ⟨h1, h2, h3, -, -⟩ := h
  exact ⟨by rw [g]; exact h1, by rw [g]; exact h2, by rw [g, b]; exact h3, a, r⟩

theorem Panel.sound.setCmd {p : Params} {P : Panel} (h : P.sound p) (c : Option (Byte × List Byte)) :
    (P.setCmd c).sound p := h.congr rfl rfl h.2.2.2.1 h.2.2.2.2

theorem Panel.sound.dropHalf {p : Params} {P : Panel} (h : P.sound p) : P.dropHalf.sound p := by
  unfold Panel.dropHalf
  split
  · exact h.poison.congr rfl rfl h.2.2.2.1 h.2.2.2.2
  · exact h.congr rfl rfl h.2.2.2.1 h.2.2.2.2

theorem Panel.sound.endParameters {p : Params} {P : Panel} (h : P.sound p) : (P.endParameters p).sound p := by
  unfold Panel.endParameters
  repeat' split
  · exact h
  · exact h.poison
  · exact h

theorem Panel.sound.command {p : Params} {op : Byte} {P : Panel} (h : P.sound p) : (P.command p op).sound p := by
  have hi := h.2.2.2.1
  have hr := h.2.2.2.2
  unfold Panel.command
  split
  · exact h.congr rfl rfl trivial hr
  · split
    · split
      · exact h.congr rfl rfl hi hr
      · exact h.congr rfl rfl trivial hr
    · split
      · split
        · next ha _ =>
          rw [ha] at hi
          obtain ⟨i1, i2, i3, i4⟩ := hi
          exact h.congr rfl rfl ⟨i1, i2, i3, i4, BitVec.le_refl _, i3, BitVec.le_refl _, i1⟩ hr
        · exact h.congr rfl rfl trivial hr
      · split
        · exact h.congr rfl rfl trivial hr
        · split
          · exact h.congr rfl rfl trivial hr
          · exact h.poison.congr rfl rfl trivial hr

theorem Panel.sound.setRows {p : Params} {a b : Coord} {P : Panel} (h : P.sound p) : (P.setRows p a b).sound p := by
  unfold Panel.setRows
  split
  · next hab => exact h.congr rfl rfl hab h.2.2.2.2
  · exact h.poison

theorem Panel.sound.setCols {p : Params} {a b : Coord} {P : Panel} (h : P.sound p) : (P.setCols p a b).sound p := by
  have hi := h.2.2.2.1
  unfold Panel.setCols
  split
  · next ha =>
    rw [ha] at hi
    split
    · next hab => exact h.congr rfl rfl ⟨hi.1, hi.2, hab.1, hab.2⟩ h.2.2.2.2
    · exact h.poison
  · split
    · exact h
    · exact h.poison
  all_goals exact h.poison

theorem Panel.sound.store {p : Params} {c r : Coord} {v : Pixel} {P : Panel} (h : P.sound p) (hc : c < p.width)
    (hr : r < p.height) : (P.store c r v).sound p := by
  unfold Panel.store
  split
  · exact h
  · next hb =>
    refine ⟨Gram.write_wf _ _ _ _ h.1, ?_, fun h => absurd h hb, h.2.2.2.1, h.2.2.2.2⟩
    intro c' r' hx
    simp only [Gram.read_write] at hx
    split at hx
    · next hh =>
      obtain ⟨rfl, rfl⟩ := hh
      exact ⟨hc, hr⟩
    · exact h.2.1 _ _ hx

/-- The pointer stays in its window (R56). -/
theorem PanelAddr.afterCell_inside {p : Params} {xs xe ys ye c r : Coord}
    (h : (PanelAddr.writing xs xe ys ye c r).inside p) : (PanelAddr.afterCell xs xe ys ye c r).inside p := by
  obtain ⟨i1, i2, i3, i4, i5, i6, i7, i8⟩ := h
  unfold PanelAddr.afterCell
  split
  · exact ⟨i1, i2, i3, i4, by bv_omega, by bv_omega, i7, i8⟩
  · split
    · exact ⟨i1, i2, i3, i4, by bv_omega, by bv_omega, by bv_omega, by bv_omega⟩
    · exact ⟨i1, i2, i3, i4⟩

theorem Panel.sound.pixelByte {p : Params} {xs xe ys ye c r : Coord} {b : Byte} {P : Panel} (h : P.sound p)
    (ha : P.addr = .writing xs xe ys ye c r) : (P.pixelByte xs xe ys ye c r b).sound p := by
  have hi := h.2.2.2.1
  rw [ha] at hi
  unfold Panel.pixelByte
  split
  · exact h.congr rfl rfl h.2.2.2.1 h.2.2.2.2
  · next hi' _ =>
    obtain ⟨i1, i2, i3, i4, i5, i6, i7, i8⟩ := hi
    have hs := h.store (v := be16 hi' b) (show c < p.width by bv_omega) (show r < p.height by bv_omega)
    exact hs.congr rfl rfl (PanelAddr.afterCell_inside ⟨i1, i2, i3, i4, i5, i6, i7, i8⟩) hs.2.2.2.2

theorem Panel.sound.dataByte {p : Params} {b : Byte} {P : Panel} (h : P.sound p) : (P.dataByte p b).sound p := by
  unfold Panel.dataByte
  split
  · unfold Panel.parameterByte
    repeat' split
    · exact h.setRows.setCmd _
    · exact h.setCols.setCmd _
    · exact h.setCmd _
    · exact h.setCmd _
  · split
    · exact h.pixelByte ‹_›
    · exact h.poison

theorem Panel.sound.framedByte {p : Params} {f : Framing} {b : Byte} {P : Panel} (h : P.sound p) :
    (P.framedByte p f b).sound p := by
  unfold Panel.framedByte
  split
  · exact h.poison
  · next hp =>
    split
    · unfold Panel.initByte
      split
      · exact h.congr rfl rfl h.2.2.2.1 fun _ => by simpa using hp
      · exact h.poison
    · split
      · exact h.dropHalf.endParameters.command
      · exact h.dataByte

/-- Every event keeps the panel sound. -/
theorem Panel.sound.onEvent {p : Params} {P : Panel} (h : P.sound p) (e : Event) : (P.onEvent p e).sound p := by
  cases e with
  | byte b =>
    simp only [Panel.onEvent]
    split
    · exact h.framedByte
    · exact h.poison
  | desel =>
    simp only [Panel.onEvent]
    split
    · exact h.poison.congr rfl rfl h.2.2.2.1 h.2.2.2.2
    · exact h.congr rfl rfl h.2.2.2.1 h.2.2.2.2
  | rst l =>
    cases l
    · refine h.congr rfl rfl h.2.2.2.1 ?_
      simp only [Panel.onEvent]
      intro hr
      split
      · rfl
      · exact h.2.2.2.2 hr
    · exact ⟨rfl, fun c r h => absurd (Gram.read_nil c r) h, fun _ => rfl, trivial, fun h => by cases h⟩
  | sel => exact h.congr rfl rfl h.2.2.2.1 h.2.2.2.2
  | frm f => exact h.congr rfl rfl h.2.2.2.1 h.2.2.2.2
  | sleep d => exact h
  | cfgOut => exact h
  | bl => exact h

theorem Panel.sound.see {p : Params} {d : Bool} {e : Event} {P : Panel} (h : P.sound p) : (P.see p d e).sound p := by
  unfold Panel.see
  split
  · exact h.onEvent e
  · exact (h.onEvent e).poison

end Sys2Proof.Machine
end

