-- ==== Sys2Proof/Laws/PerInstr.lean ====
section
/-! SUPPORT. Laws of the instructions as syntax, one lemma per constructor. -/

namespace Sys2Proof.Laws

/-- The word of an instruction lies in the code space its format has (R91 to R93): request codes up to 0x3, uop numbers up to
0xC, one of the seven opcode bytes. -/
def EncodesInsideTheTable.Statement (i : Instr) : Prop :=
  ∀ p : Params,
    match encode p i with
    | .request d => d.op.toNat ≤ 0x3
    | .internal code _ => code.toNat ≤ 0xC
    | .wire b _ => b ∈ p.opcodes

theorem EncodesInsideTheTable.select : EncodesInsideTheTable.Statement .select := fun _ => by simp [encode]
theorem EncodesInsideTheTable.deselect : EncodesInsideTheTable.Statement .deselect := fun _ => by simp [encode]
theorem EncodesInsideTheTable.setCmdFraming : EncodesInsideTheTable.Statement .setCmdFraming := fun _ => by simp [encode]
theorem EncodesInsideTheTable.setDataFraming : EncodesInsideTheTable.Statement .setDataFraming := fun _ => by simp [encode]
theorem EncodesInsideTheTable.write (bytes : List Byte) : EncodesInsideTheTable.Statement (.write bytes) :=
  fun _ => by simp [encode]
theorem EncodesInsideTheTable.sleepMs (d : Nat) : EncodesInsideTheTable.Statement (.sleepMs d) := fun _ => by simp [encode]
theorem EncodesInsideTheTable.cfgOut : EncodesInsideTheTable.Statement .cfgOut := fun _ => by simp [encode]
theorem EncodesInsideTheTable.rstSet (l : RstLevel) : EncodesInsideTheTable.Statement (.rstSet l) := fun _ => by simp [encode]
theorem EncodesInsideTheTable.blEnable : EncodesInsideTheTable.Statement .blEnable := fun _ => by simp [encode]
theorem EncodesInsideTheTable.sendCmd (op : Byte) : EncodesInsideTheTable.Statement (.sendCmd op) :=
  fun _ => by simp [encode]
theorem EncodesInsideTheTable.sendData (bytes : List Byte) : EncodesInsideTheTable.Statement (.sendData bytes) :=
  fun _ => by simp [encode]
theorem EncodesInsideTheTable.setWindow (x0 y0 x1 y1 : Coord) : EncodesInsideTheTable.Statement (.setWindow x0 y0 x1 y1) :=
  fun _ => by simp [encode]
theorem EncodesInsideTheTable.clip (x y w h : Coord) : EncodesInsideTheTable.Statement (.clip x y w h) :=
  fun _ => by simp [encode]
theorem EncodesInsideTheTable.initPanel (x y w h : Coord) (color : Pixel) :
    EncodesInsideTheTable.Statement (.initPanel x y w h color) := fun _ => by simp [encode, Descriptor.make_fields]
theorem EncodesInsideTheTable.fillRect (x y w h : Coord) (color : Pixel) :
    EncodesInsideTheTable.Statement (.fillRect x y w h color) := fun _ => by simp [encode, Descriptor.make_fields]
theorem EncodesInsideTheTable.fillScreen (x y w h : Coord) (color : Pixel) :
    EncodesInsideTheTable.Statement (.fillScreen x y w h color) := fun _ => by simp [encode, Descriptor.make_fields]
theorem EncodesInsideTheTable.drawBitmap (x y w h : Coord) (color : Pixel) :
    EncodesInsideTheTable.Statement (.drawBitmap x y w h color) := fun _ => by simp [encode, Descriptor.make_fields]
theorem EncodesInsideTheTable.slpout : EncodesInsideTheTable.Statement .slpout := fun _ => by simp [encode, Params.opcodes]
theorem EncodesInsideTheTable.dispon : EncodesInsideTheTable.Statement .dispon := fun _ => by simp [encode, Params.opcodes]
theorem EncodesInsideTheTable.caset (x0 x1 : Coord) : EncodesInsideTheTable.Statement (.caset x0 x1) :=
  fun _ => by simp [encode, Params.opcodes]
theorem EncodesInsideTheTable.raset (y0 y1 : Coord) : EncodesInsideTheTable.Statement (.raset y0 y1) :=
  fun _ => by simp [encode, Params.opcodes]
theorem EncodesInsideTheTable.ramwr : EncodesInsideTheTable.Statement .ramwr := fun _ => by simp [encode, Params.opcodes]
theorem EncodesInsideTheTable.madctl : EncodesInsideTheTable.Statement .madctl := fun _ => by simp [encode, Params.opcodes]
theorem EncodesInsideTheTable.colmod : EncodesInsideTheTable.Statement .colmod := fun _ => by simp [encode, Params.opcodes]

end Sys2Proof.Laws
end

