-- ==== Sys2Proof/Laws/Phase.lean ====
section
/-! SUPPORT. The phases of a trace (R32 d) and the events a plan may emit. -/

namespace Sys2Proof.Machine

theorem Phase.after_append (q : Phase) (as bs : List Event) :
    q.after (as ++ bs) = (q.after as).bind fun q' => q'.after bs := by
  induction as generalizing q with
  | nil => rfl
  | cons a as ih =>
    simp only [List.cons_append, Phase.after, Option.bind_assoc]
    cases q.next a <;> simp [ih]

theorem Phase.after_bytes (bs : List Byte) : Phase.framed.after (bs.map .byte) = some .framed := by
  induction bs with
  | nil => rfl
  | cons b bs ih => simpa [Phase.after, Phase.next] using ih

theorem Phase.after_cmdSession (op : Byte) : Phase.closed.after (cmdSession op) = some .closed := rfl

theorem Phase.after_dataSession (bs : List Byte) : Phase.closed.after (dataSession bs) = some .closed := by
  simp [dataSession, Phase.after, Phase.next, Phase.after_append, Phase.after_bytes]

theorem Phase.after_windowPlan (p : Params) (x0 y0 x1 y1 : Coord) :
    Phase.closed.after (windowPlan p x0 y0 x1 y1) = some .closed := by
  simp [windowPlan, Phase.after_append, Phase.after_cmdSession, Phase.after_dataSession]

theorem Phase.after_initPlan (p : Params) : Phase.closed.after (initPlan p) = some .closed := by
  unfold initPlan resetPulse
  cases p.placement <;> rfl

/-- `CS_SEL` tells the phase, event by event. -/
theorem Phase.csSel_after {q q' : Phase} {e : Event} (h : q.next e = some q') (l : Lines)
    (hl : l.csSel = true ↔ q ≠ .closed) : (l.after e).csSel = true ↔ q' ≠ .closed := by
  cases q <;> cases e <;> simp [Phase.next] at h <;> subst h <;> simp_all [Lines.after, csSelAfter]

theorem mayEmit_cons {item : PlanItem} {items : List PlanItem} {e : Event} {es : List Event} :
    mayEmit (item :: items) (e :: es) ↔ item.emits e ∧ mayEmit items es := by
  simp [mayEmit]

theorem mayEmit_append {as bs : List PlanItem} {es : List Event} :
    mayEmit (as ++ bs) es ↔ ∃ xs ys, mayEmit as xs ∧ mayEmit bs ys ∧ es = xs ++ ys := by
  unfold mayEmit
  constructor
  · intro h
    refine ⟨es.take as.length, es.drop as.length, ?_, ?_, (List.take_append_drop _ _).symm⟩
    · simpa using List.forall₂_take as.length h
    · simpa using List.forall₂_drop as.length h
  · rintro ⟨xs, ys, h1, h2, rfl⟩
    exact List.rel_append h1 h2

/-- Plain events may emit themselves only. -/
theorem mayEmit_ev {es es' : List Event} : mayEmit (es.map .ev) es' ↔ es' = es := by
  unfold mayEmit
  induction es generalizing es' with
  | nil => simp
  | cons e es ih =>
    cases es' with
    | nil => simp
    | cons a as => simp [ih, PlanItem.emits]

/-- Every list of items may emit something. -/
theorem exists_mayEmit (items : List PlanItem) : ∃ es, mayEmit items es := by
  induction items with
  | nil => exact ⟨[], .nil⟩
  | cons i is ih =>
    obtain ⟨es, h⟩ := ih
    obtain ⟨e, he⟩ : ∃ e, i.emits e := by cases i <;> simp [PlanItem.emits]
    exact ⟨e :: es, mayEmit_cons.mpr ⟨he, h⟩⟩

/-- The pixels of a plan may emit two bytes each. -/
theorem mayEmit_pixels {px : List PlanItem} (hpx : (∃ c, px = fillPixel c) ∨ px = bitmapPixel) (n : Nat)
    {es : List Event} (h : mayEmit (repeatItems n px) es) :
    ∃ bs : List Byte, es = bs.map .byte ∧ bs.length = 2 * n := by
  induction n generalizing es with
  | zero => exact ⟨[], by simpa [mayEmit, repeatItems] using h, rfl⟩
  | succ n ih =>
    obtain ⟨xs, ys, h1, h2, rfl⟩ := mayEmit_append.mp (show mayEmit (px ++ repeatItems n px) es from h)
    obtain ⟨bs, rfl, hl⟩ := ih h2
    obtain ⟨a, b, rfl⟩ : ∃ a b, xs = [Event.byte a, Event.byte b] := by
      unfold mayEmit at h1
      rcases hpx with ⟨c, rfl⟩ | rfl
      · simp [fillPixel, List.forall₂_cons_left_iff, PlanItem.emits] at h1
        exact ⟨_, _, h1⟩
      · simp [bitmapPixel, List.forall₂_cons_left_iff, PlanItem.emits] at h1
        obtain ⟨x, y, h1⟩ := h1
        exact ⟨_, _, h1⟩
    exact ⟨a :: b :: bs, by simp, by simp [hl]; omega⟩

/-- A drawing plan may emit its window sequence and one data session of two bytes a pixel. -/
theorem mayEmit_streamPlan {p : Params} {x y w h : Coord} {px : List PlanItem} {es : List Event}
    (hpx : (∃ c, px = fillPixel c) ∨ px = bitmapPixel) (hm : mayEmit (streamPlan p x y w h px) es) :
    ∃ bs : List Byte, bs.length = 2 * pixelCount w h ∧
      es = windowPlan p x y (x + w - 1) (y + h - 1) ++ dataSession bs := by
  unfold streamPlan at hm
  obtain ⟨_, d, hm3, h4, rfl⟩ := mayEmit_append.mp hm
  obtain ⟨_, c, hm2, h3, rfl⟩ := mayEmit_append.mp hm3
  obtain ⟨_, b, h1, h2, rfl⟩ := mayEmit_append.mp hm2
  obtain rfl := mayEmit_ev.mp h1
  obtain ⟨bs, rfl, hl⟩ := mayEmit_pixels hpx _ h3
  obtain rfl : b = [.sel, .frm .D] := by
    simpa [mayEmit, List.forall₂_cons_left_iff, PlanItem.emits] using h2
  obtain rfl : d = [.desel] := mayEmit_ev (es := [.desel]).mp h4
  exact ⟨bs, hl, by simp [dataSession]⟩

end Sys2Proof.Machine
end

