-- ==== Sys2Proof/Laws/Pixels.lean ====
section
/-! SUPPORT. The write pointer of a pixel payload in row-major order (R56): position `j` of the payload of a window goes to
column `x + j % w`, row `y + j / w`. -/

namespace Sys2Proof.Machine

/-- A window of `w` by `h` cells at `(x, y)`. -/
structure Win where
  x : Coord
  y : Coord
  w : Coord
  h : Coord

/-- It is not empty and no coordinate wraps. -/
def Win.ok (W : Win) : Prop :=
  1 ≤ W.w.toNat ∧ 1 ≤ W.h.toNat ∧ W.x.toNat + W.w.toNat ≤ 65535 ∧ W.y.toNat + W.h.toNat ≤ 65535

def Win.col (W : Win) (j : Nat) : Coord := BitVec.ofNat 16 (W.x.toNat + j % W.w.toNat)
def Win.row (W : Win) (j : Nat) : Coord := BitVec.ofNat 16 (W.y.toNat + j / W.w.toNat)

/-- The address state before pixel `j`. -/
def Win.addr (W : Win) (j : Nat) : PanelAddr :=
  if j < W.w.toNat * W.h.toNat then .writing W.x (W.x + W.w - 1) W.y (W.y + W.h - 1) (W.col j) (W.row j)
  else .exhausted W.x (W.x + W.w - 1) W.y (W.y + W.h - 1)

theorem Win.col_toNat {W : Win} (ok : W.ok) (j : Nat) : (W.col j).toNat = W.x.toNat + j % W.w.toNat := by
  obtain ⟨h1, h2, h3, h4⟩ := ok
  have := Nat.mod_lt j (show W.w.toNat > 0 by omega)
  simp [Win.col]
  omega

theorem Win.row_toNat {W : Win} (ok : W.ok) {j : Nat} (hj : j < W.w.toNat * W.h.toNat) :
    (W.row j).toNat = W.y.toNat + j / W.w.toNat := by
  have := Nat.div_lt_of_lt_mul hj
  obtain ⟨h1, h2, h3, h4⟩ := ok
  simp [Win.row]
  omega

theorem div_mod_succ_of_lt {j w : Nat} (h : j % w < w - 1) : (j + 1) % w = j % w + 1 ∧ (j + 1) / w = j / w := by
  have hw : 0 < w := by omega
  have e := Nat.div_add_mod j w
  have h2 : j + 1 = w * (j / w) + (j % w + 1) := by omega
  constructor
  · rw [h2, Nat.mul_add_mod, Nat.mod_eq_of_lt (by omega)]
  · rw [h2, Nat.mul_add_div hw, Nat.div_eq_of_lt (by omega : j % w + 1 < w), Nat.add_zero]

theorem div_mod_succ_of_eq {j w : Nat} (hw : 0 < w) (h : j % w = w - 1) :
    (j + 1) % w = 0 ∧ (j + 1) / w = j / w + 1 := by
  have e := Nat.div_add_mod j w
  have h2 : j + 1 = w * (j / w + 1) := by
    rw [Nat.mul_add]
    omega
  constructor
  · rw [h2]
    simp
  · rw [h2, Nat.mul_div_cancel_left _ hw]

/-- The pointer moves from one pixel to the next. -/
theorem Win.afterCell {W : Win} (ok : W.ok) {j : Nat} (hj : j < W.w.toNat * W.h.toNat) :
    PanelAddr.afterCell W.x (W.x + W.w - 1) W.y (W.y + W.h - 1) (W.col j) (W.row j) = W.addr (j + 1) := by
  have hc := Win.col_toNat ok j
  have hr := Win.row_toNat ok hj
  have hd := Nat.div_lt_of_lt_mul hj
  have hx := last_toNat ok.1 ok.2.2.1
  have hy := last_toNat ok.2.1 ok.2.2.2
  have hm := Nat.mod_lt j (show W.w.toNat > 0 from ok.1)
  have hdm := Nat.div_add_mod j W.w.toNat
  have one : (1 : Coord).toNat = 1 := rfl
  obtain ⟨h1, h2, h3, h4⟩ := ok
  unfold PanelAddr.afterCell
  by_cases hl : j % W.w.toNat < W.w.toNat - 1
  · obtain ⟨e1, e2⟩ := div_mod_succ_of_lt hl
    have hj1 : j + 1 < W.w.toNat * W.h.toNat := by
      have : W.w.toNat * (j / W.w.toNat) + W.w.toNat ≤ W.w.toNat * W.h.toNat :=
        calc _ = W.w.toNat * (j / W.w.toNat + 1) := by ring
          _ ≤ _ := Nat.mul_le_mul_left _ hd
      omega
    rw [if_pos (by rw [BitVec.lt_def]; omega), Win.addr, if_pos hj1]
    congr 1
    · apply BitVec.eq_of_toNat_eq
      simp only [Win.col, BitVec.toNat_add, BitVec.toNat_ofNat, e1, one]
      omega
    · simp [Win.row, e2]
  · obtain ⟨e1, e2⟩ := div_mod_succ_of_eq h1 (by omega : j % W.w.toNat = W.w.toNat - 1)
    rw [if_neg (by rw [BitVec.lt_def]; omega)]
    by_cases hrl : j / W.w.toNat < W.h.toNat - 1
    · have hj1 : j + 1 < W.w.toNat * W.h.toNat := by
        have : W.w.toNat * (j / W.w.toNat) + W.w.toNat + W.w.toNat ≤ W.w.toNat * W.h.toNat :=
          calc _ = W.w.toNat * (j / W.w.toNat + 2) := by ring
            _ ≤ _ := Nat.mul_le_mul_left _ (by omega)
        omega
      rw [if_pos (by rw [BitVec.lt_def]; omega), Win.addr, if_pos hj1]
      congr 1
      · simp [Win.col, e1]
      · apply BitVec.eq_of_toNat_eq
        simp only [Win.row, BitVec.toNat_add, BitVec.toNat_ofNat, e2, one]
        omega
    · have hj1 : ¬ j + 1 < W.w.toNat * W.h.toNat := by
        have h5 : j / W.w.toNat = W.h.toNat - 1 := by omega
        have : W.w.toNat * (j / W.w.toNat) + W.w.toNat = W.w.toNat * W.h.toNat :=
          calc _ = W.w.toNat * (j / W.w.toNat + 1) := by ring
            _ = _ := by rw [h5]; congr 1; omega
        omega
      rw [if_neg (by rw [BitVec.lt_def]; omega), Win.addr, if_neg hj1]

/-- Pixels stored one after another, from position `j`. -/
def Win.paint (W : Win) : Gram → Nat → List Pixel → Gram
  | g, _, [] => g
  | g, j, v :: vs => W.paint (g.write (W.col j) (W.row j) v) (j + 1) vs

/-- The position of a cell in the payload. -/
def Win.position (W : Win) (c r : Coord) : Nat :=
  (r.toNat - W.y.toNat) * W.w.toNat + (c.toNat - W.x.toNat)

abbrev Win.contains (W : Win) (c r : Coord) : Prop :=
  W.x.toNat ≤ c.toNat ∧ c.toNat < W.x.toNat + W.w.toNat ∧ W.y.toNat ≤ r.toNat ∧ r.toNat < W.y.toNat + W.h.toNat

theorem Win.position_lt {W : Win} {c r : Coord} (h : W.contains c r) : W.position c r < W.w.toNat * W.h.toNat := by
  obtain ⟨a1, a2, a3, a4⟩ := h
  unfold Win.position
  calc (r.toNat - W.y.toNat) * W.w.toNat + (c.toNat - W.x.toNat)
      < (r.toNat - W.y.toNat) * W.w.toNat + W.w.toNat := by omega
    _ = W.w.toNat * (r.toNat - W.y.toNat + 1) := by ring
    _ ≤ _ := Nat.mul_le_mul_left _ (by omega)

/-- A cell is the cell of its position and of no other. -/
theorem Win.cell_iff {W : Win} (ok : W.ok) {j : Nat} (hj : j < W.w.toNat * W.h.toNat) (c r : Coord) :
    c = W.col j ∧ r = W.row j ↔ W.contains c r ∧ W.position c r = j := by
  have hc := Win.col_toNat ok j
  have hr := Win.row_toNat ok hj
  have hd := Nat.div_lt_of_lt_mul hj
  have hm := Nat.mod_lt j (show W.w.toNat > 0 from ok.1)
  have hdm := Nat.div_add_mod j W.w.toNat
  unfold Win.contains Win.position
  constructor
  · rintro ⟨rfl, rfl⟩
    rw [hc, hr]
    refine ⟨⟨Nat.le_add_right _ _, by omega, Nat.le_add_right _ _, by omega⟩, ?_⟩
    rw [Nat.add_sub_cancel_left, Nat.add_sub_cancel_left, Nat.mul_comm]
    exact hdm
  · rintro ⟨⟨a1, a2, a3, a4⟩, a5⟩
    have b1 : j / W.w.toNat = r.toNat - W.y.toNat := by
      rw [← a5, Nat.mul_comm, Nat.mul_add_div (by omega), Nat.div_eq_of_lt (by omega), Nat.add_zero]
    have b2 : j % W.w.toNat = c.toNat - W.x.toNat := by
      rw [← a5, Nat.mul_comm, Nat.mul_add_mod, Nat.mod_eq_of_lt (by omega)]
    constructor
    · apply BitVec.eq_of_toNat_eq
      rw [hc, b2]
      omega
    · apply BitVec.eq_of_toNat_eq
      rw [hr, b1]
      omega

/-- What a painted memory reads as. -/
theorem Win.paint_read {W : Win} (ok : W.ok) (vs : List Pixel) (g : Gram) (j : Nat)
    (hl : j + vs.length ≤ W.w.toNat * W.h.toNat) (c r : Coord) :
    (W.paint g j vs).read c r =
      if W.contains c r ∧ j ≤ W.position c r ∧ W.position c r < j + vs.length then vs[W.position c r - j]?
      else g.read c r := by
  induction vs generalizing g j with
  | nil =>
    rw [if_neg (by simp)]
    rfl
  | cons v vs ih =>
    simp only [List.length_cons] at hl
    rw [Win.paint, ih _ _ (by omega), Gram.read_write]
    have hci := Win.cell_iff ok (j := j) (by omega) c r
    by_cases hh : W.contains c r
    · by_cases he : W.position c r = j
      · rw [if_neg (by omega), if_pos (hci.mpr ⟨hh, he⟩), if_pos ⟨hh, by omega, by simp; omega⟩, he]
        simp
      · by_cases hg : j + 1 ≤ W.position c r ∧ W.position c r < j + 1 + vs.length
        · rw [if_pos ⟨hh, hg⟩, if_pos ⟨hh, by omega, by simp; omega⟩,
            show W.position c r - j = (W.position c r - (j + 1)) + 1 by omega]
          rfl
        · rw [if_neg (by tauto), if_neg (fun e => he (hci.mp e).2), if_neg (by simp; omega)]
    · rw [if_neg (by tauto), if_neg (fun e => hh (hci.mp e).1), if_neg (by tauto)]

/-- A list of bytes of even length is the bytes of pixels. -/
theorem exists_pixels (bs : List Byte) (n : Nat) (h : bs.length = 2 * n) :
    ∃ vs : List Pixel, vs.length = n ∧ bs = vs.flatMap pixelBytes := by
  induction n generalizing bs with
  | zero => exact ⟨[], rfl, by simpa using h⟩
  | succ n ih =>
    match bs, h with
    | a :: b :: bs, h =>
      obtain ⟨vs, h1, h2⟩ := ih bs (by simp at h; omega)
      exact ⟨be16 a b :: vs, by simp [h1], by simp [pixelBytes, h2]⟩

end Sys2Proof.Machine
end

