-- ==== Sys2Proof/Laws/Sessions.lean ====
section
/-! SUPPORT. What one session does to an idle, initialized panel (R54 to R56). -/

namespace Sys2Proof.Machine

/-- Between two sessions, with no half pixel pending. -/
structure Panel.Idle (P : Panel) : Prop where
  ready : P.ready = true
  sel : P.sel = false
  half : P.half = none
  pulse : P.pulse = .released

theorem Panel.quiet_iff {P : Panel} : P.quiet ↔ P.Idle ∧ P.bad = false ∧ P.cmd = none :=
  ⟨fun ⟨a, b, c, d, e, f⟩ => ⟨⟨a, c, e, f⟩, b, d⟩, fun ⟨⟨a, c, e, f⟩, b, d⟩ => ⟨a, b, c, d, e, f⟩⟩

/-- What a whole session leaves: an address state, a command, a framing; nothing else moves. -/
def Panel.update (a : PanelAddr) (c : Option (Byte × List Byte)) (f : Framing) (P : Panel) : Panel :=
  { P with addr := a, cmd := c, frm := some f }

@[simp] theorem Panel.update_addr (a : PanelAddr) (c : Option (Byte × List Byte)) (f : Framing) (P : Panel) :
    (P.update a c f).addr = a := rfl
@[simp] theorem Panel.update_cmd (a : PanelAddr) (c : Option (Byte × List Byte)) (f : Framing) (P : Panel) :
    (P.update a c f).cmd = c := rfl
@[simp] theorem Panel.update_gram (a : PanelAddr) (c : Option (Byte × List Byte)) (f : Framing) (P : Panel) :
    (P.update a c f).gram = P.gram := rfl
@[simp] theorem Panel.update_update (a a' : PanelAddr) (c c' : Option (Byte × List Byte)) (f f' : Framing) (P : Panel) :
    (P.update a c f).update a' c' f' = P.update a' c' f' := rfl

theorem Panel.Idle.update {P : Panel} (h : P.Idle) (a : PanelAddr) (c : Option (Byte × List Byte)) (f : Framing) :
    (P.update a c f).Idle := ⟨h.ready, h.sel, h.half, h.pulse⟩

/-- The seven opcodes are distinct, pair by pair (R7). -/
theorem Params.opcodes_ne {p : Params} (h : p.wf = true) :
    p.opcCaset ≠ p.opcRaset ∧ p.opcRamwr ≠ p.opcRaset ∧ p.opcRamwr ≠ p.opcCaset ∧ p.opcColmod ≠ p.opcRaset ∧
      p.opcColmod ≠ p.opcCaset ∧ p.opcColmod ≠ p.opcRamwr ∧ p.opcMadctl ≠ p.opcRaset ∧ p.opcMadctl ≠ p.opcCaset ∧
      p.opcMadctl ≠ p.opcRamwr ∧ p.opcSlpout ≠ p.opcRaset ∧ p.opcSlpout ≠ p.opcCaset ∧ p.opcSlpout ≠ p.opcRamwr ∧
      p.opcSlpout ≠ p.opcColmod ∧ p.opcSlpout ≠ p.opcMadctl ∧ p.opcDispon ≠ p.opcRaset ∧ p.opcDispon ≠ p.opcCaset ∧
      p.opcDispon ≠ p.opcRamwr ∧ p.opcDispon ≠ p.opcColmod ∧ p.opcDispon ≠ p.opcMadctl := by
  simp only [Params.wf, Params.opcodes, Bool.and_eq_true] at h
  have h := of_decide_eq_true h.2
  simp only [List.nodup_cons, List.mem_cons, List.not_mem_nil, or_false, not_or] at h
  tauto

theorem Panel.onEvent_byte {p : Params} {P : Panel} {b : Byte} {f : Framing} (hr : P.ready = true) (hs : P.sel = true)
    (hp : P.pulse = .released) (hf : P.frm = some f) :
    P.onEvent p (.byte b) = match f with | .C => P.commandByte p b | .D => P.dataByte p b := by
  cases f <;> simp [Panel.onEvent, hs, hf, Panel.framedByte, hr, hp]

/-- A command session of an idle panel with no parameters missing is its command byte (R54). -/
theorem replay_cmdSession {p : Params} {P : Panel} (op : Byte) (h : P.Idle) (hc : P.cmd = none) :
    P.replay p true (cmdSession op) = (((P.setSel true).setFrm .C).command p op).setSel false := by
  have hd : ((P.setSel true).setFrm .C).dropHalf = (P.setSel true).setFrm .C := by
    have := h.half
    cases P
    simp_all [Panel.dropHalf, Panel.setHalf, Panel.setSel, Panel.setFrm]
  have hh : (((P.setSel true).setFrm .C).command p op).half = none := by
    unfold Panel.command
    repeat' split
    all_goals simp [h.half]
  simp only [cmdSession, replay_cons_driven, replay_nil]
  rw [show (P.onEvent p .sel).onEvent p (.frm .C) = (P.setSel true).setFrm .C from rfl,
    Panel.onEvent_byte (f := .C) (by simp [h.ready]) (by simp) (by simp [h.pulse]) (by simp)]
  have he : ((P.setSel true).setFrm .C).endParameters p = (P.setSel true).setFrm .C :=
    Panel.endParameters_of_none hc
  simp only [Panel.commandByte, hd, he, Panel.onEvent, hh]
  rfl

theorem Panel.session_addr_cmd {P : Panel} (h : P.sel = false) (f : Framing) (a : PanelAddr)
    (c : Option (Byte × List Byte)) :
    ((((P.setSel true).setFrm f).setAddr a).setCmd c).setSel false = P.update a c f := by
  cases P
  simp_all [Panel.setSel, Panel.setFrm, Panel.setAddr, Panel.setCmd, Panel.update]

theorem Panel.session_addr {P : Panel} (h : P.sel = false) (f : Framing) (a : PanelAddr) :
    (((P.setSel true).setFrm f).setAddr a).setSel false = P.update a P.cmd f := by
  cases P
  simp_all [Panel.setSel, Panel.setFrm, Panel.setAddr, Panel.update]

theorem Panel.session_cmd {P : Panel} (h : P.sel = false) (f : Framing) (c : Option (Byte × List Byte)) :
    (((P.setSel true).setFrm f).setCmd c).setSel false = P.update P.addr c f := by
  cases P
  simp_all [Panel.setSel, Panel.setFrm, Panel.setCmd, Panel.update]

theorem replay_raset_cmd {p : Params} {P : Panel} (h : P.Idle) (hc : P.cmd = none) :
    P.replay p true (cmdSession p.opcRaset) = P.update .undef (some (p.opcRaset, [])) .C := by
  rw [replay_cmdSession _ h hc, Panel.command, if_pos rfl, Panel.session_addr_cmd h.sel]

theorem replay_caset_cmd {p : Params} {P : Panel} (hw : p.wf = true) (h : P.Idle) {a b : Coord} (ha : P.addr = .rows a b)
    (hc : P.cmd = none) : P.replay p true (cmdSession p.opcCaset) = P.update (.rows a b) (some (p.opcCaset, [])) .C := by
  have := Params.opcodes_ne hw
  rw [replay_cmdSession _ h hc, Panel.command, if_neg (by tauto), if_pos rfl]
  simp only [Panel.setFrm_addr, Panel.setSel_addr, Panel.setFrm_cmd, Panel.setSel_cmd, ha, hc]
  rw [Panel.session_cmd h.sel, ha]

theorem replay_caset_cmd_out_of_order {p : Params} {P : Panel} (hw : p.wf = true) (h : P.Idle)
    (hc : P.cmd = none) (ha : ∀ a b, P.addr ≠ .rows a b) :
    P.replay p true (cmdSession p.opcCaset) = P.update .undef (some (p.opcCaset, [])) .C := by
  have := Params.opcodes_ne hw
  rw [replay_cmdSession _ h hc, Panel.command, if_neg (by tauto), if_pos rfl]
  simp only [Panel.setFrm_addr, Panel.setSel_addr, Panel.setFrm_cmd, Panel.setSel_cmd]
  split
  · next hx _ => exact absurd hx (ha _ _)
  · exact Panel.session_addr_cmd h.sel _ _ _

theorem replay_ramwr_cmd {p : Params} {P : Panel} (hw : p.wf = true) (h : P.Idle) {ys ye xs xe : Coord}
    (ha : P.addr = .rowsCols ys ye xs xe) (hc : P.cmd = none) :
    P.replay p true (cmdSession p.opcRamwr) = P.update (.writing xs xe ys ye xs ys) none .C := by
  have := Params.opcodes_ne hw
  rw [replay_cmdSession _ h hc, Panel.command, if_neg (by tauto), if_neg (by tauto), if_pos rfl]
  simp only [Panel.setFrm_addr, Panel.setSel_addr, Panel.setFrm_cmd, Panel.setSel_cmd, ha, hc]
  rw [Panel.session_addr h.sel, hc]

/-- RAMWR stores no pixel, whatever the address state. -/
theorem replay_ramwr_cmd_any {p : Params} {P : Panel} (hw : p.wf = true) (h : P.Idle) (hc : P.cmd = none) :
    ∃ a, P.replay p true (cmdSession p.opcRamwr) = P.update a none .C := by
  have := Params.opcodes_ne hw
  rw [replay_cmdSession _ h hc, Panel.command, if_neg (by tauto), if_neg (by tauto), if_pos rfl]
  split
  · exact ⟨_, by rw [Panel.session_addr h.sel, hc]⟩
  · exact ⟨_, Panel.session_addr_cmd h.sel _ _ _⟩

theorem replay_one_byte_cmd {p : Params} {P : Panel} (hw : p.wf = true) (h : P.Idle) (hc : P.cmd = none) {op : Byte}
    (ho : op = p.opcColmod ∨ op = p.opcMadctl) :
    P.replay p true (cmdSession op) = P.update .undef (some (op, [])) .C := by
  have := Params.opcodes_ne hw
  rw [replay_cmdSession _ h hc, Panel.command, if_neg (by rcases ho with rfl | rfl <;> tauto),
    if_neg (by rcases ho with rfl | rfl <;> tauto), if_neg (by rcases ho with rfl | rfl <;> tauto), if_pos ho,
    Panel.session_addr_cmd h.sel]

theorem replay_plain_cmd {p : Params} {P : Panel} (hw : p.wf = true) (h : P.Idle) (hc : P.cmd = none) {op : Byte}
    (ho : op = p.opcSlpout ∨ op = p.opcDispon) : P.replay p true (cmdSession op) = P.update .undef none .C := by
  have := Params.opcodes_ne hw
  rw [replay_cmdSession _ h hc, Panel.command, if_neg (by rcases ho with rfl | rfl <;> tauto),
    if_neg (by rcases ho with rfl | rfl <;> tauto), if_neg (by rcases ho with rfl | rfl <;> tauto),
    if_neg (by rcases ho with rfl | rfl <;> tauto), if_pos ho, Panel.session_addr_cmd h.sel]

/-- A data byte while a command waits for parameters. -/
theorem Panel.onEvent_parameter {p : Params} {P : Panel} {op b : Byte} {bs : List Byte} (hr : P.ready = true)
    (hs : P.sel = true) (hp : P.pulse = .released) (hf : P.frm = some .D) (hc : P.cmd = some (op, bs)) :
    P.onEvent p (.byte b) = P.parameterByte p op bs b := by
  rw [Panel.onEvent_byte hr hs hp hf]
  simp [Panel.dataByte, hc]

/-- The one parameter byte of COLMOD or MADCTL. -/
theorem replay_one_byte {p : Params} {P : Panel} (hw : p.wf = true) (h : P.Idle) {op b : Byte}
    (ho : op = p.opcColmod ∨ op = p.opcMadctl) (hc : P.cmd = some (op, [])) :
    P.replay p true (dataSession [b]) = P.update P.addr none .D := by
  have := Params.opcodes_ne hw
  simp only [dataSession, List.map_cons, List.map_nil, List.cons_append, List.nil_append, replay_cons_driven, replay_nil]
  rw [show (P.onEvent p .sel).onEvent p (.frm .D) = (P.setSel true).setFrm .D from rfl,
    Panel.onEvent_parameter (op := op) (bs := []) (by simp [h.ready]) (by simp) (by simp [h.pulse]) (by simp)
      (by simp [hc]), Panel.parameterByte, if_neg (by simp), if_neg (by simp), if_pos ⟨ho, rfl⟩]
  simp only [Panel.onEvent, Panel.setCmd_half, Panel.setFrm_half, Panel.setSel_half, h.half]
  exact Panel.session_cmd h.sel _ _

/-- The four parameter bytes of RASET or CASET (R55). -/
theorem replay_addr4 {p : Params} {P : Panel} (hw : p.wf = true) (h : P.Idle) {op : Byte} {a b : Coord}
    (ho : op = p.opcRaset ∨ op = p.opcCaset) (hc : P.cmd = some (op, [])) :
    ∃ c, P.replay p true (dataSession (addr4 a b)) =
      ((if op = p.opcRaset then (((P.setSel true).setFrm .D).setCmd c).setRows p a b
        else (((P.setSel true).setFrm .D).setCmd c).setCols p a b).setCmd none).setSel false := by
  have hn := Params.opcodes_ne hw
  have hcm : ¬ (op = p.opcColmod ∨ op = p.opcMadctl) := by rcases ho with rfl | rfl <;> tauto
  have more : ∀ (bs : List Byte) (b : Byte) (Q : Panel), Q.ready = true → Q.sel = true → Q.pulse = .released →
      Q.frm = some .D → Q.cmd = some (op, bs) → bs.length ≠ 3 → ∀ l, l = bs ++ [b] →
      Q.onEvent p (.byte b) = Q.setCmd (some (op, l)) := by
    intro bs b Q q1 q2 q3 q4 q5 q6 l hl
    subst hl
    rw [Panel.onEvent_parameter q1 q2 q3 q4 q5, Panel.parameterByte, if_neg (by tauto), if_neg (by tauto),
      if_neg (by tauto)]
  refine ⟨some (op, [hi8 a, lo8 a, hi8 b]), ?_⟩
  simp only [dataSession, addr4, List.map_cons, List.map_nil, List.cons_append, List.nil_append, replay_cons_driven,
    replay_nil]
  rw [show (P.onEvent p .sel).onEvent p (.frm .D) = (P.setSel true).setFrm .D from rfl,
    more [] (hi8 a) ((P.setSel true).setFrm .D) h.ready rfl h.pulse rfl hc (by simp) [hi8 a] rfl,
    more [hi8 a] (lo8 a) (Panel.setCmd _ ((P.setSel true).setFrm .D)) h.ready rfl h.pulse rfl rfl (by simp)
      [hi8 a, lo8 a] rfl,
    more [hi8 a, lo8 a] (hi8 b) (Panel.setCmd _ (Panel.setCmd _ ((P.setSel true).setFrm .D))) h.ready rfl h.pulse rfl
      rfl (by simp) [hi8 a, lo8 a, hi8 b] rfl]
  rw [show (((((P.setSel true).setFrm .D).setCmd (some (op, [hi8 a]))).setCmd (some (op, [hi8 a, lo8 a]))).setCmd
    (some (op, [hi8 a, lo8 a, hi8 b]))) = ((P.setSel true).setFrm .D).setCmd (some (op, [hi8 a, lo8 a, hi8 b])) from rfl,
    Panel.onEvent_parameter (op := op) (bs := [hi8 a, lo8 a, hi8 b]) (P := Panel.setCmd _ ((P.setSel true).setFrm .D))
      h.ready rfl h.pulse rfl rfl]
  have w0 : wordAt 0 ([hi8 a, lo8 a, hi8 b] ++ [lo8 b]) = a := be16_hi8_lo8 a
  have w2 : wordAt 2 ([hi8 a, lo8 a, hi8 b] ++ [lo8 b]) = b := be16_hi8_lo8 b
  have hh : ∀ Q : Panel, Q.half = none → Q.onEvent p .desel = Q.setSel false := by
    intro Q hq
    simp [Panel.onEvent, hq]
  rw [Panel.parameterByte, w0, w2]
  rcases ho with rfl | rfl
  · simp only [true_and, List.length_cons, List.length_nil, if_true]
    apply hh
    unfold Panel.setRows
    split <;> simp [h.half]
  · have : p.opcCaset ≠ p.opcRaset := hn.1
    simp only [this, false_and, true_and, if_false, List.length_cons, List.length_nil, if_true]
    apply hh
    unfold Panel.setCols
    repeat' split
    all_goals simp [h.half]

theorem replay_rows {p : Params} {P : Panel} (hw : p.wf = true) (h : P.Idle) {a b : Coord}
    (hc : P.cmd = some (p.opcRaset, [])) (hab : a ≤ b) (hb : b < p.height) :
    P.replay p true (dataSession (addr4 a b)) = P.update (.rows a b) none .D := by
  obtain ⟨c, hx⟩ := replay_addr4 (a := a) (b := b) hw h (.inl rfl) hc
  rw [hx, if_pos rfl, Panel.setRows, if_pos ⟨hab, hb⟩]
  have := h.sel
  cases P
  simp_all [Panel.setSel, Panel.setFrm, Panel.setAddr, Panel.setCmd, Panel.update]

theorem replay_cols {p : Params} {P : Panel} (hw : p.wf = true) (h : P.Idle) {a b ys ye : Coord}
    (hc : P.cmd = some (p.opcCaset, [])) (ha : P.addr = .rows ys ye) (hab : a ≤ b) (hb : b < p.width) :
    P.replay p true (dataSession (addr4 a b)) = P.update (.rowsCols ys ye a b) none .D := by
  obtain ⟨c, hx⟩ := replay_addr4 (a := a) (b := b) hw h (.inr rfl) hc
  rw [hx, if_neg (Params.opcodes_ne hw).1, Panel.setCols]
  simp only [Panel.setCmd_addr, Panel.setFrm_addr, Panel.setSel_addr, ha]
  rw [if_pos ⟨hab, hb⟩]
  have := h.sel
  cases P
  simp_all [Panel.setSel, Panel.setFrm, Panel.setAddr, Panel.setCmd, Panel.update]

theorem replay_cols_out_of_order {p : Params} {P : Panel} (hw : p.wf = true) (h : P.Idle) {a b : Coord}
    (hc : P.cmd = some (p.opcCaset, [])) (ha : P.addr = .undef) (hab : a ≤ b) (hb : b < p.width) :
    P.replay p true (dataSession (addr4 a b)) = P.update .undef none .D := by
  obtain ⟨c, hx⟩ := replay_addr4 (a := a) (b := b) hw h (.inr rfl) hc
  rw [hx, if_neg (Params.opcodes_ne hw).1, Panel.setCols]
  simp only [Panel.setCmd_addr, Panel.setFrm_addr, Panel.setSel_addr, ha]
  rw [if_pos ⟨hab, hb⟩]
  have := h.sel
  cases P
  simp_all [Panel.setSel, Panel.setFrm, Panel.setCmd, Panel.update]

/-- A panel at power-on is initialized by the script, whether or not its lines were driven before (R53, R193). -/
theorem replay_initPlan (p : Params) (d : Bool) :
    (Panel.powerOn.replay p d (initPlan p)).quiet ∧ (Panel.powerOn.replay p d (initPlan p)).addr = .undef ∧
      (Panel.powerOn.replay p d (initPlan p)).gram = [] := by
  cases h : p.placement <;> cases d <;>
    simp [initPlan, resetPulse, h, Panel.replay, cmdSession, dataSession, Panel.see, dirAfter, Event.onPanelLine,
      Panel.onEvent, Panel.powerOn, Panel.framedByte, Panel.initByte, initBytes, Panel.quiet]

end Sys2Proof.Machine
end

