-- ==== Sys2Proof/Laws/Streaming.lean ====
section
/-! SUPPORT. What the items of a drawing plan do (R166, R170), and the lengths and lines of the plans. -/

namespace Sys2Proof.Machine

/-- The working registers and the pixel latch replaced. -/
def State.withStream (w : WorkRegs) (q : Pixel) (s : State) : State := { s with work := w, pix := q }

@[simp] theorem State.withStream_params (w : WorkRegs) (q : Pixel) (s : State) : (s.withStream w q).params = s.params := rfl
@[simp] theorem State.withStream_initState (w : WorkRegs) (q : Pixel) (s : State) : (s.withStream w q).initState = s.initState := rfl
@[simp] theorem State.withStream_lines (w : WorkRegs) (q : Pixel) (s : State) : (s.withStream w q).lines = s.lines := rfl
@[simp] theorem State.withStream_busy (w : WorkRegs) (q : Pixel) (s : State) : (s.withStream w q).busy = s.busy := rfl
@[simp] theorem State.withStream_req (w : WorkRegs) (q : Pixel) (s : State) : (s.withStream w q).req = s.req := rfl
@[simp] theorem State.withStream_work (w : WorkRegs) (q : Pixel) (s : State) : (s.withStream w q).work = w := rfl
@[simp] theorem State.withStream_pix (w : WorkRegs) (q : Pixel) (s : State) : (s.withStream w q).pix = q := rfl
@[simp] theorem State.withStream_plan (w : WorkRegs) (q : Pixel) (s : State) : (s.withStream w q).plan = s.plan := rfl
@[simp] theorem State.withStream_seq (w : WorkRegs) (q : Pixel) (s : State) : (s.withStream w q).seq = s.seq := rfl
@[simp] theorem State.withStream_trace (w : WorkRegs) (q : Pixel) (s : State) : (s.withStream w q).trace = s.trace := rfl
@[simp] theorem State.withStream_fault (w : WorkRegs) (q : Pixel) (s : State) : (s.withStream w q).fault = s.fault := rfl
@[simp] theorem State.withStream_port (w : WorkRegs) (q : Pixel) (s : State) : (s.withStream w q).port = s.port := rfl
@[simp] theorem State.withStream_src (w : WorkRegs) (q : Pixel) (s : State) : (s.withStream w q).src = s.src := rfl
@[simp] theorem State.withStream_panel (w : WorkRegs) (q : Pixel) (s : State) : (s.withStream w q).panel = s.panel := rfl

theorem emitAll_withStream (es : List Event) (w : WorkRegs) (q : Pixel) (s : State) :
    State.emitAll es (s.withStream w q) = (State.emitAll es s).withStream w q := by
  induction es generalizing s with
  | nil => rfl
  | cons e es ih => exact ih (s.emit e)

theorem withStream_withStream (w w' : WorkRegs) (q q' : Pixel) (s : State) :
    (s.withStream w' q').withStream w q = s.withStream w q := rfl

/-- The registers after `n` pixels: `REM` is `n` lower, `SIDX` `n` higher. -/
def WorkRegs.afterPixels (n : Nat) (w : WorkRegs) : WorkRegs :=
  { w with rem := w.rem - BitVec.ofNat 32 n, sidx := w.sidx + BitVec.ofNat 32 n }

theorem WorkRegs.afterPixels_zero (w : WorkRegs) : w.afterPixels 0 = w := by
  simp [WorkRegs.afterPixels]

theorem WorkRegs.afterPixels_pixelSent (n : Nat) (w : WorkRegs) : w.pixelSent.afterPixels n = w.afterPixels (n + 1) := by
  simp only [WorkRegs.afterPixels, WorkRegs.pixelSent, WorkRegs.mk.injEq, true_and]
  constructor
  · apply BitVec.eq_of_toNat_eq
    simp [BitVec.toNat_sub]
    omega
  · apply BitVec.eq_of_toNat_eq
    simp
    omega

theorem rep_succ {α : Type} (n : Nat) (l : List α) : rep (n + 1) l = l ++ rep n l := by
  simp [rep, List.replicate_succ]

/-- `n` fill pixels (R166). -/
theorem runItems_fill (c : Pixel) (n : Nat) (s : State) :
    runItems (repeatItems n (fillPixel c)) s =
      some ((State.emitAll ((rep n (pixelBytes c)).map .byte) s).withStream (s.work.afterPixels n) s.pix) := by
  induction n generalizing s with
  | zero =>
    rw [WorkRegs.afterPixels_zero]
    rfl
  | succ n ih =>
    have h : runItems (repeatItems (n + 1) (fillPixel c)) s = runItems (repeatItems n (fillPixel c))
        (((s.emit (.byte (hi8 c))).emit (.byte (lo8 c))).withStream s.work.pixelSent s.pix) := rfl
    rw [h, ih, emitAll_withStream, withStream_withStream, rep_succ, ← WorkRegs.afterPixels_pixelSent]
    rfl

/-- `n` bitmap pixels from position `SIDX`, each entry being there (R170, R171); the last one stays in the latch. -/
theorem runItems_bitmap (n : Nat) (v : Nat → Pixel) (s : State) (hb : s.work.sidx.toNat + n < 2 ^ 32)
    (hv : ∀ j < n, s.src[bitmapIndex s.params.clipMode s.work.weff s.req.rw (s.work.sidx.toNat + j)]? = some (v j)) :
    ∃ q, runItems (repeatItems n bitmapPixel) s =
      some ((State.emitAll (((List.range n).flatMap fun j => pixelBytes (v j)).map .byte) s).withStream
        (s.work.afterPixels n) q) := by
  induction n generalizing s v with
  | zero =>
    refine ⟨s.pix, ?_⟩
    rw [WorkRegs.afterPixels_zero]
    rfl
  | succ n ih =>
    have hr : s.memRead s.entryIndex = some (v 0) := by
      simpa [State.memRead, State.entryIndex] using hv 0 (by omega)
    obtain ⟨u, hu⟩ : ∃ u, u = ((s.emit (.byte (hi8 (v 0)))).emit (.byte (lo8 (v 0)))).withStream s.work.pixelSent (v 0) :=
      ⟨_, rfl⟩
    have h : runItems (repeatItems (n + 1) bitmapPixel) s = runItems (repeatItems n bitmapPixel) u := by
      rw [hu]
      simp only [repeatItems, bitmapPixel, List.cons_append, List.nil_append, runItems, PlanItem.run, hr,
        Option.bind_some]
      rfl
    have hw : u.work = s.work.pixelSent := by rw [hu]; rfl
    have hs : u.work.sidx.toNat = s.work.sidx.toNat + 1 := by
      rw [hw]
      simp
      omega
    obtain ⟨q, hq⟩ := ih (fun j => v (j + 1)) u (by omega) (by
      intro j hj
      have := hv (j + 1) (by omega)
      rw [hs, Nat.add_assoc, Nat.add_comm 1 j, hu]
      exact this)
    refine ⟨q, ?_⟩
    rw [h, hq, hw, WorkRegs.afterPixels_pixelSent, hu, emitAll_withStream, withStream_withStream,
      List.range_succ_eq_map]
    simp only [List.flatMap_cons, List.flatMap_map, pixelBytes, List.cons_append, List.nil_append, List.map_cons,
      State.emitAll]

/-- The window and the opening of the pixel session: `REM` and `SIDX` are loaded at its SEL. -/
theorem runItems_open (W : List Event) (n : Cnt) (s : State) :
    runItems (W.map .ev ++ [.openStream n, .ev (.frm .D)]) s =
      some ((State.emitAll (W ++ [.sel, .frm .D]) s).withStream (s.work.streamStart n) s.pix) := by
  have hob := emitAll_onlyBusChanged W s
  rw [runItems_append, runItems_ev, Option.bind_some]
  simp only [runItems, PlanItem.run, Option.bind_some, emitAll_append]
  rw [← hob.2.2.2.2.1, ← hob.2.2.2.2.2.1]
  rfl

/-- A whole drawing plan, from what its pixels do once the session is open. -/
theorem runItems_stream (p : Params) (x y w h : Coord) (px : List PlanItem) (bs : List Byte) (s u : State) (q : Pixel)
    (hu : u = (State.emitAll (windowPlan p x y (x + w - 1) (y + h - 1) ++ [.sel, .frm .D]) s).withStream
      (s.work.streamStart (BitVec.ofNat 32 (pixelCount w h))) s.pix)
    (hpx : runItems (repeatItems (pixelCount w h) px) u =
      some ((State.emitAll (bs.map .byte) u).withStream (u.work.afterPixels (pixelCount w h)) q)) :
    runItems (streamPlan p x y w h px) s =
      some ((State.emitAll (windowPlan p x y (x + w - 1) (y + h - 1) ++ dataSession bs) s).withStream
        { s.work with rem := 0, sidx := BitVec.ofNat 32 (pixelCount w h) } q) := by
  have hw : u.work = s.work.streamStart (BitVec.ofNat 32 (pixelCount w h)) := by rw [hu]; rfl
  have hs : streamPlan p x y w h px =
      ((windowPlan p x y (x + w - 1) (y + h - 1)).map .ev
        ++ [.openStream (BitVec.ofNat 32 (pixelCount w h)), .ev (.frm .D)])
      ++ repeatItems (pixelCount w h) px ++ [.ev .desel] := rfl
  rw [hs, runItems_append, runItems_append, runItems_open, Option.bind_some, ← hu, hpx, Option.bind_some, hw, hu,
    emitAll_withStream, withStream_withStream]
  simp only [runItems, PlanItem.run, Option.bind_some, dataSession, emitAll_append]
  congr 1
  simp [WorkRegs.afterPixels, WorkRegs.streamStart, State.withStream, State.emitAll, State.emit]

/-! ### Lengths and lines -/

@[simp] theorem initPlan_length (p : Params) : (initPlan p).length = 33 := by
  cases h : p.placement <;> simp [initPlan, resetPulse, h, cmdSession, dataSession]

@[simp] theorem windowPlan_length (p : Params) (x0 y0 x1 y1 : Coord) : (windowPlan p x0 y0 x1 y1).length = 26 := by
  simp [windowPlan, cmdSession, dataSession, addr4]

@[simp] theorem repeatItems_length (n : Nat) (l : List PlanItem) : (repeatItems n l).length = n * l.length := by
  induction n with
  | zero => simp [repeatItems]
  | succ n ih =>
    simp [repeatItems, ih, Nat.succ_mul]
    omega

@[simp] theorem rep_length {α : Type} (n : Nat) (l : List α) : (rep n l).length = n * l.length := by
  simp [rep]

@[simp] theorem dataSession_length (bs : List Byte) : (dataSession bs).length = bs.length + 3 := by
  simp [dataSession]

theorem streamPlan_length (p : Params) (x y w h : Coord) (px : List PlanItem) :
    (streamPlan p x y w h px).length = 29 + pixelCount w h * px.length := by
  simp [streamPlan]
  omega

/-- A window sequence ends deselected, under command framing. -/
theorem windowPlan_lines (p : Params) (x0 y0 x1 y1 : Coord) (l : Lines) :
    Lines.afterAll (windowPlan p x0 y0 x1 y1) l = { l with csSel := false, dcFrm := some .C, sessDirty := false } := by
  simp [windowPlan, afterAll_append, cmdSession_lines, dataSession_lines]

/-- The lines after the initialization script. -/
theorem initPlan_lines (p : Params) (l : Lines) : Lines.afterAll (initPlan p) l = {
    dir := true, csSel := false, dcFrm := some .C, sessDirty := false, rstLvl := some .inactive, blOn := true } := by
  cases h : p.placement <;>
    simp [initPlan, resetPulse, h, Lines.afterAll, afterAll_append, cmdSession_lines, dataSession_lines]

/-- A pixel count fits the counter (R163). -/
theorem pixelCount_lt (w h : Coord) : pixelCount w h < 2 ^ 32 :=
  calc w.toNat * h.toNat < 2 ^ 16 * 2 ^ 16 := Nat.mul_lt_mul'' w.isLt h.isLt
    _ = 2 ^ 32 := by norm_num

end Sys2Proof.Machine
end

