-- ==== Sys2Proof/Tests/Slice0.lean ====
section
/-! SUPPORT. Tests. Expected values are those of spec/95_test_vectors.md (the vector is named), of the encodings of
spec/30_encoding.md, or of the rule named. The second part holds a witness for the hypotheses of every obligation. -/

namespace Sys2Proof.Tests

open Sys2Proof Sys2Proof.Machine

/-- The 4 by 3 panel of program P4, with delays of the test's own. -/
def tp : Params := {
  Config.params with
  width := 4, height := 3, tRst1 := 1, tRst2 := 2, tSlpout := 3, tDispon := 4
  pins := { csActiveHigh := false, dcCommandHigh := false, rstActiveHigh := false, blOnHigh := true, msbFirst := true
            spiMode := 0 } }

/-- The panel of the source, 320 by 240. -/
def big : Params := { tp with width := 320, height := 240 }

/-- A panel after INITIALIZE. -/
def ready : Panel := { Panel.powerOn with ready := true, pulse := .released, initGot := 6, frm := some .C }

/-- An initialized idle block with the panel `p`, driven lines, and no session. -/
def idle (p : Params) : State := {
  State.reset with
  params := p
  initState := .done
  lines := { dir := true, csSel := false, dcFrm := some .C, sessDirty := false, rstLvl := some .inactive, blOn := true }
  panel := ready }

/-- The lines as the vectors V40 write them. -/
def withLines (dir cs : Bool) (frm : Option Framing) (dirty : Bool) (rst : Option RstLevel) (bl : Bool) : State := {
  idle tp with
  lines := { dir := dir, csSel := cs, dcFrm := frm, sessDirty := dirty, rstLvl := rst, blOn := bl } }

/-- The new events and the lines of a next state that began with an empty trace. -/
def seen : Result → Option (List Event × Lines)
  | .next s => some (s.trace, s.lines)
  | _ => none

def faultOf : Result → Option Fault
  | .fault f => some f
  | _ => none

def refusedOf : Result → Option Refusal
  | .refused q => some q
  | _ => none

def workOf : Result → Option WorkRegs
  | .next s => some s.work
  | _ => none

def planOf : Result → Option (List PlanItem × Nat × Bool × InitState)
  | .next s => some (s.plan.take 4, s.plan.length, s.busy, s.initState)
  | _ => none

/-- The state `s` with the instruction `i` presented to it. -/
def presenting (s : State) (i : Instr) (src : List Pixel) : State :=
  { s with port := [{ word := encode s.params i, src := src }] }

/-! ### Well-formedness -/

theorem test_wf_defaults : tp.wf = true ∧ big.wf = true := by decide
theorem test_wf_rejects_zero_width : Params.wf { tp with width := 0 } = false := by decide
theorem test_wf_rejects_zero_height : Params.wf { tp with height := 0 } = false := by decide
theorem test_wf_rejects_equal_opcodes : Params.wf { tp with opcRamwr := 0x2A } = false := by decide
theorem test_wf_rejects_ambiguous_command : Instr.wf { tp with opcRamwr := 0x2A } .ramwr = false := by decide
theorem test_wf_accepts_operations_then : Instr.wf { tp with opcRamwr := 0x2A } (.write []) = true := by decide

/-! ### Decoding: every constructor, from a word written out from spec/30_encoding.md -/

theorem test_decode_internal :
    [0x0, 0x1, 0x2, 0x3, 0x4, 0x5, 0x6, 0x7, 0x8].map (decodeTableWord 8) =
      [some .select, some .deselect, some .setCmdFraming, some .setDataFraming, some (.write []), some (.sleepMs 0),
        some .cfgOut, some (.rstSet .inactive), some .blEnable] := by decide
theorem test_decode_internal_more :
    [0x9, 0xA, 0xB, 0xC, 0xD].map (decodeTableWord 8) =
      [some (.sendCmd 0), some (.sendData []), some (.setWindow 0 0 0 0), some (.clip 0 0 0 0), none] := by decide
theorem test_decode_rst_set_active : decode tp (.internal 0x7 [1]) = .ok (.rstSet .active) := by decide
theorem test_decode_rst_set_rejects : decode tp (.internal 0x7 [2]) = .error .malformedOperands := by decide
theorem test_decode_sleep : decode tp (.internal 0x5 [0x01, 0x2C]) = .ok (.sleepMs 300) := by decide
theorem test_decode_write : decode tp (.internal 0x4 [0x00, 0x8C]) = .ok (.write [0x00, 0x8C]) := by decide
theorem test_decode_select_rejects_operands : decode tp (.internal 0x0 [0]) = .error .malformedOperands := by decide
theorem test_decode_clip : decode tp (.internal 0xC [1, 2, 3, 4, 5, 6, 7, 8]) =
    .ok (.clip 0x0102 0x0304 0x0506 0x0708) := by decide
theorem test_decode_wire :
    [0x11, 0x29, 0x2A, 0x2B, 0x2C, 0x36, 0x3A, 0x12].map (decodeTableWord 8) =
      [some .slpout, some .dispon, some (.caset 0 0), some (.raset 0 0), some .ramwr, some .madctl, some .colmod,
        none] := by decide
/-- V41-8, V41-10: the parameter blocks. -/
theorem test_decode_addr4 : decode tp (.wire 0x2A [0x00, 0x6E, 0x00, 0xD1]) = .ok (.caset 110 209) ∧
    decode tp (.wire 0x2B [0x00, 0x8C, 0x00, 0xB3]) = .ok (.raset 140 179) := by decide
/-- V30-1 to V30-6. -/
theorem test_decode_requests :
    decodeTableWord 88 0x000000000000000000000 = some (.initPanel 0 0 0 0 0) ∧
      decodeTableWord 88 0x1006E008C00640028F800 = some (.fillRect 110 140 100 40 0xF800) ∧
      decodeTableWord 88 0x20000000000000000FFFF = some (.fillScreen 0 0 0 0 0xFFFF) ∧
      decodeTableWord 88 0x3013E00EE000200020000 = some (.drawBitmap 318 238 2 2 0) ∧
      decodeTableWord 88 0x500000000000000000000 = none ∧ decodeTableWord 88 0xF00000000000000000000 = none := by decide
/-- The encoder, on the descriptor of V43-1 and the row command of V41-10. -/
theorem test_encode : encode tp (.fillRect 110 140 100 40 0xF800) = .request 0x1006E008C00640028F800 ∧
    encode tp (.raset 140 179) = .wire 0x2B [0x00, 0x8C, 0x00, 0xB3] := by decide

/-! ### Transport (V40) -/

theorem test_select : seen (execSelect (withLines true false (some .C) false (some .inactive) true)) =
    some ([.sel], (withLines true true (some .C) false (some .inactive) true).lines) := by decide
theorem test_select_nested : faultOf (execSelect (withLines true true (some .C) false (some .inactive) true)) =
    some .nestedSession := by decide
theorem test_deselect : seen (execDeselect (withLines true true (some .D) true (some .inactive) true)) =
    some ([.desel], (withLines true false (some .D) false (some .inactive) true).lines) := by decide
theorem test_deselect_unpaired : faultOf (execDeselect (withLines true false (some .D) false (some .inactive) true)) =
    some .unpairedDeselect := by decide
theorem test_set_data_framing : seen (execSetDataFraming (withLines true true (some .C) false (some .inactive) true)) =
    some ([.frm .D], (withLines true true (some .D) false (some .inactive) true).lines) := by decide
theorem test_set_data_framing_late : faultOf (execSetDataFraming (withLines true true (some .C) true (some .inactive) true)) =
    some .framingChangeInSession := by decide
theorem test_set_cmd_framing_idle : seen (execSetCmdFraming (withLines true false (some .D) false (some .inactive) true)) =
    some ([.frm .C], (withLines true false (some .C) false (some .inactive) true).lines) := by decide
theorem test_set_cmd_framing_late : faultOf (execSetCmdFraming (withLines true true (some .D) true (some .inactive) true)) =
    some .framingChangeInSession := by decide
theorem test_write : seen (execWrite [0x00, 0x8C, 0x00, 0xB3] (withLines true true (some .D) false (some .inactive) true)) =
    some ([.byte 0x00, .byte 0x8C, .byte 0x00, .byte 0xB3],
      (withLines true true (some .D) true (some .inactive) true).lines) := by decide
theorem test_write_unframed : faultOf (execWrite [0x11] (withLines true true none false none false)) =
    some .writeOutsideSession := by decide
theorem test_sleep : seen (execSleepMs 0 (withLines true false none false none false)) =
    some ([.sleep 0], (withLines true false none false none false).lines) := by decide
theorem test_cfg_out : seen (execCfgOut (withLines false false none false none false)) =
    some ([.cfgOut], (withLines true false none false none false).lines) := by decide
theorem test_rst_set : seen (execRstSet .active (withLines true false none false (some .inactive) false)) =
    some ([.rst .active], (withLines true false none false (some .active) false).lines) := by decide
theorem test_bl_enable : seen (execBlEnable (withLines true false none false (some .inactive) false)) =
    some ([.bl], (withLines true false none false (some .inactive) true).lines) := by decide

/-! ### Command protocol (V41) and window (V42) -/

theorem test_send_cmd : (seen (execSendCmd 0x2C (idle tp))).map Prod.fst =
    some [.sel, .frm .C, .byte 0x2C, .desel] := by decide
theorem test_send_data_empty : (seen (execSendData [] (idle tp))).map Prod.fst = some [.sel, .frm .D, .desel] := by decide
theorem test_slpout : (seen (execSlpout (idle tp))).map Prod.fst = some [.sel, .frm .C, .byte 0x11, .desel] := by decide
theorem test_dispon : (seen (execDispon (idle tp))).map Prod.fst = some [.sel, .frm .C, .byte 0x29, .desel] := by decide
theorem test_caset : (seen (execCaset 110 209 (idle tp))).map Prod.fst =
    some [.sel, .frm .C, .byte 0x2A, .desel, .sel, .frm .D, .byte 0x00, .byte 0x6E, .byte 0x00, .byte 0xD1, .desel] := by
  decide
theorem test_raset : (seen (execRaset 140 179 (idle tp))).map Prod.fst =
    some [.sel, .frm .C, .byte 0x2B, .desel, .sel, .frm .D, .byte 0x00, .byte 0x8C, .byte 0x00, .byte 0xB3, .desel] := by
  decide
theorem test_ramwr : (seen (execRamwr (idle tp))).map Prod.fst = some [.sel, .frm .C, .byte 0x2C, .desel] := by decide
theorem test_madctl : (seen (execMadctl (idle tp))).map Prod.fst =
    some [.sel, .frm .C, .byte 0x36, .desel, .sel, .frm .D, .byte 0x00, .desel] := by decide
theorem test_colmod : (seen (execColmod (idle tp))).map Prod.fst =
    some [.sel, .frm .C, .byte 0x3A, .desel, .sel, .frm .D, .byte 0x55, .desel] := by decide
/-- V42-1. -/
theorem test_set_window : (seen (execSetWindow 110 140 209 179 (idle big))).map Prod.fst = some
    [.sel, .frm .C, .byte 0x2B, .desel, .sel, .frm .D, .byte 0x00, .byte 0x8C, .byte 0x00, .byte 0xB3, .desel,
      .sel, .frm .C, .byte 0x2A, .desel, .sel, .frm .D, .byte 0x00, .byte 0x6E, .byte 0x00, .byte 0xD1, .desel,
      .sel, .frm .C, .byte 0x2C, .desel] := by decide
/-- V42-7. -/
theorem test_set_window_outside : faultOf (execSetWindow 0 0 320 0 (idle big)) =
    some (.badWindow 0 0 320 0) := by decide

/-! ### Clipping (V43-C) -/

theorem test_clip_windows : clip big 300 0 50 10 = .window 300 0 20 10 ∧
    clip big 319 239 65535 65535 = .window 319 239 1 1 ∧ clip big 220 0 100 1 = .window 220 0 100 1 ∧
    clip big 1 1 65535 1 = .window 1 1 319 1 ∧ clip big 0 230 5 50 = .window 0 230 5 10 := by decide
theorem test_clip_nothing : clip big 320 0 1 1 = .nothing ∧ clip big 0 240 1 1 = .nothing ∧
    clip big 0 0 0 5 = .nothing ∧ clip big 0 0 5 0 = .nothing ∧ clip big 256 255 1 1 = .nothing := by decide
theorem test_clip_registers : workOf (execClip 300 0 50 10 (idle big)) = some {
    wx0 := 300, wy0 := 0, wx1 := 319, wy1 := 9, weff := 20, heff := 10, rem := 0, sidx := 0 } := by decide

/-! ### Requests: acceptance, and the traces of V43 -/

theorem test_initialize_accepted : planOf (execInitPanel 1 2 3 4 5 { State.reset with params := tp }) =
    some ([.ev .cfgOut, .ev (.rst .inactive), .ev (.sleep 1), .ev (.rst .active)], 33, true, .running) := by decide
theorem test_initialize_after_edges :
    planOf (execInitPanel 0 0 0 0 0 { State.reset with params := { tp with placement := .afterEdges } }) =
      some ([.ev .cfgOut, .ev (.rst .inactive), .ev (.rst .active), .ev (.sleep 1)], 33, true, .running) := by decide
/-- P4: 37 events, the height clipped. -/
theorem test_fill_rect_accepted : planOf (execFillRect 1 1 2 5 0xF800 (idle tp)) =
    some ([.ev .sel, .ev (.frm .C), .ev (.byte 0x2B), .ev .desel], 37, true, .done) := by decide
/-- V43-24. -/
theorem test_fill_rect_before_init : faultOf (execFillRect 320 0 1 1 0 { State.reset with params := tp }) =
    some .useBeforeInit := by decide
/-- P4: 53 events; V43-5: the ignored operands. -/
theorem test_fill_screen_accepted : planOf (execFillScreen 7 7 7 7 0 (idle tp)) =
    some ([.ev .sel, .ev (.frm .C), .ev (.byte 0x2B), .ev .desel], 53, true, .done) := by decide
theorem test_draw_bitmap_accepted : planOf (execDrawBitmap 2 0 2 2 0 (idle tp)) =
    some ([.ev .sel, .ev (.frm .C), .ev (.byte 0x2B), .ev .desel], 37, true, .done) := by decide
/-- V43-21: accepted and complete at once. -/
theorem test_draw_bitmap_nothing : planOf (execDrawBitmap 4 0 2 2 0 (idle tp)) = some ([], 0, false, .done) := by decide

/-- R111, R239: FillPlan begins with a SELECT, and a session is open; one that draws nothing sends no SELECT (R174). -/
theorem test_draw_in_open_session :
    faultOf (execFillRect 1 1 1 1 0 (withLines true true (some .D) true (some .inactive) true)) = some .nestedSession ∧
      planOf (execFillRect 4 0 1 1 0 (withLines true true (some .D) true (some .inactive) true)) =
        some ([], 0, false, .done) := by decide

/-- V43-11. -/
theorem test_fill_trace : fillTrace big 5 5 1 1 0xA55A =
    cmdSession 0x2B ++ dataSession [0x00, 0x05, 0x00, 0x05] ++ cmdSession 0x2A ++ dataSession [0x00, 0x05, 0x00, 0x05]
      ++ cmdSession 0x2C ++ dataSession [0xA5, 0x5A] := by decide
/-- V43-17 and V43-18: the two clip modes. -/
theorem test_bitmap_traces :
    bitmapTrace big 319 10 3 2 [0x1111, 0x2222, 0x3333, 0x4444, 0x5555, 0x6666] =
        cmdSession 0x2B ++ dataSession [0x00, 0x0A, 0x00, 0x0B] ++ cmdSession 0x2A
          ++ dataSession [0x01, 0x3F, 0x01, 0x3F] ++ cmdSession 0x2C ++ dataSession [0x11, 0x11, 0x22, 0x22] ∧
      bitmapTrace { big with clipMode := .strided } 319 10 3 2 [0x1111, 0x2222, 0x3333, 0x4444, 0x5555, 0x6666] =
        cmdSession 0x2B ++ dataSession [0x00, 0x0A, 0x00, 0x0B] ++ cmdSession 0x2A
          ++ dataSession [0x01, 0x3F, 0x01, 0x3F] ++ cmdSession 0x2C ++ dataSession [0x11, 0x11, 0x44, 0x44] := by decide

/-! ### The panel (V20) -/

/-- The end of V20-1. -/
def windowed : Panel := ready.replay tp true
  (cmdSession 0x2B ++ dataSession [0, 0, 0, 1] ++ cmdSession 0x2A ++ dataSession [0, 2, 0, 3] ++ cmdSession 0x2C)

theorem test_panel_window : windowed.addr = .writing 2 3 0 1 2 0 ∧ windowed.bad = false := by decide
/-- The end of V20-2. -/
def written : Panel := windowed.replay tp true (dataSession [0x11, 0x11, 0x22, 0x22, 0x33, 0x33, 0x44, 0x44])

/-- V20-2: column 2 row 0, column 3 row 0, column 2 row 1, column 3 row 1, in the order of their keys. -/
theorem test_panel_pixels : written.gram =
    [(cellKey 2 0, 0x1111), (cellKey 3 0, 0x2222), (cellKey 2 1, 0x3333), (cellKey 3 1, 0x4444)] := by decide
theorem test_panel_exhausted : written.addr = .exhausted 2 3 0 1 ∧ written.bad = false := by decide
/-- V20-3: the payload may span sessions. -/
theorem test_panel_two_sessions :
    (windowed.replay tp true (dataSession [0x11, 0x11, 0x22, 0x22] ++ dataSession [0x33, 0x33])).gram =
      [(cellKey 2 0, 0x1111), (cellKey 3 0, 0x2222), (cellKey 2 1, 0x3333)] := by decide
/-- V20-4, V20-5, V20-6, V20-8. -/
theorem test_panel_poisoned :
    (windowed.replay tp true (dataSession [1, 1, 2, 2, 3, 3, 4, 4] ++ dataSession [0x55, 0x55])).bad = true ∧
      (windowed.replay tp true (dataSession [0x11])).bad = true ∧
      (ready.replay tp true (cmdSession 0x2C ++ dataSession [0x11, 0x11])).bad = true ∧
      (Panel.powerOn.replay tp true (cmdSession 0x11)).bad = true := by decide
/-- V20-7: columns first lose the window. -/
theorem test_panel_columns_first :
    (ready.replay tp true
      (cmdSession 0x2A ++ dataSession [0, 2, 0, 3] ++ cmdSession 0x2B ++ dataSession [0, 0, 0, 1] ++ cmdSession 0x2C)).addr
      = .undef := by decide
/-- U26, R61: a reversed column range before any row range, a column range outside the panel, two of the four address bytes. -/
theorem test_panel_bad_addresses :
    (ready.replay tp true (cmdSession 0x2A ++ dataSession [0, 3, 0, 2])).bad = true ∧
      (ready.replay tp true (cmdSession 0x2A ++ dataSession [0, 0, 0, 4])).bad = true ∧
      (ready.replay tp true (cmdSession 0x2B ++ dataSession [0, 0] ++ cmdSession 0x2A)).bad = true ∧
      (ready.replay tp true (cmdSession 0x2A ++ dataSession [0, 0, 0, 3])).bad = false := by decide
/-- R54, R62: a command outside the seven ends the window. -/
theorem test_panel_unknown_command : (windowed.replay tp true (cmdSession 0x12)).addr = .undef ∧
    (windowed.replay tp true (cmdSession 0x12)).bad = true := by decide
/-- V44-1's end for the panel. -/
theorem test_panel_initialized : (Panel.powerOn.replay tp false (initPlan tp)).ready = true ∧
    (Panel.powerOn.replay tp false (initPlan tp)).bad = false := by decide

/-! ### The step -/

/-- V44-5's first event: the acceptance step drives the lines. -/
theorem test_step_initialize :
    seen (step (presenting { State.reset with params := tp } (.initPanel 0 0 0 0 0) [])) =
      some ([.cfgOut], (withLines true false none false none false).lines) := by decide
/-- P7 c. -/
theorem test_step_reserved :
    refusedOf (step { idle tp with port := [{ word := .request 0x500000000000000000000, src := [] }] }) =
      some (.reservedRequest 5) := by decide
/-- A recorded fault ends the run (R31). -/
theorem test_step_faulted : faultOf (step { idle tp with fault := some .initTwice }) = some .initTwice := by decide
theorem test_step_idle : step (idle tp) = .next (idle tp) := rfl
/-- The word given by `withFetchWord` is the one the next step runs. -/
theorem test_with_fetch_word : seen (step ((withLines true true (some .C) false none false).withFetchWord 8 0x1)) =
    some ([.desel], (withLines true false (some .C) false none false).lines) := by decide

/-! ### The ports and the pins (R33, R34, R36, R12) -/

/-- A block in the middle of a bitmap's pixel session, the next item reading entry 1. -/
def reading (src : List Pixel) : State := {
  idle tp with
  lines := { (idle tp).lines with csSel := true, dcFrm := some .D }
  busy := true
  req := latched 0x3 0 0 2 2 0
  work := { wx0 := 0, wy0 := 0, wx1 := 1, wy1 := 1, weff := 2, heff := 2, rem := 3, sidx := 1 }
  plan := [.bitmapHigh, .bitmapLow, .ev .desel]
  src := src }

theorem test_source_port : (reading [0x1111]).srcRequest = some 1 ∧ (reading [0x1111]).srcAnswer = none ∧
    (reading [0x1111, 0x2222]).srcAnswer = some 0x2222 ∧ (reading []).reqReady = false := by decide
theorem test_step_reads_entry : seen (step (reading [0x1111, 0xABCD])) =
    some ([.byte 0xAB], (reading []).lines |>.after (.byte 0xAB)) := by decide
theorem test_pins : (idle tp).csPin = some true ∧ (idle tp).dcPin = some false ∧ (idle tp).rstPin = some true ∧
    (idle tp).blPin = some true ∧ State.reset.csPin = none ∧
    serialBits tp.pins 0x2C = [false, false, true, false, true, true, false, false] := by decide

/-! ## Witnesses: the hypotheses of every obligation that has some, met together by concrete values -/

/-- An initialized block with a session open, framed `D`, a byte sent, the panel in the same session. -/
def opened : State := {
  withLines true true (some .D) true (some .inactive) true with
  panel := { ready with sel := true, frm := some .D } }

/-- A block after power-on with the test parameters. -/
def fresh : State := { State.reset with params := tp }

theorem witness_DecodeOfEncodeIsTheInstruction : Instr.wf tp (.caset 0 65535) = true ∧ Instr.wf tp (.write []) = true ∧
    Instr.wf tp (.sleepMs 0) = true ∧ Instr.wf tp (.fillRect 0 0 65535 65535 0xFFFF) = true := by decide

theorem witness_EncodeOfDecodeIsTheWord :
    decode tp (.wire 0x2B [0x00, 0x00, 0xFF, 0xFF]) = .ok (.raset 0 65535) ∧
      decode tp (.internal 0x7 [1]) = .ok (.rstSet .active) ∧
      decode tp (.request 0x3013E00EE00020002DEAD) = .ok (.drawBitmap 318 238 2 2 0xDEAD) := by decide

theorem witness_DescriptorDecodesUnlessReserved :
    Descriptor.op 0x000000000000000000001 = 0x0 ∧ Descriptor.op 0x100000000000000000000 = 0x1 ∧
      Descriptor.op 0x200000000000000000000 = 0x2 ∧ Descriptor.op 0x3FFFFFFFFFFFFFFFFFFFF = 0x3 ∧
      Descriptor.op 0x400000000000000000000 ≠ 0x0 ∧ Descriptor.op 0x400000000000000000000 ≠ 0x1 ∧
      Descriptor.op 0x400000000000000000000 ≠ 0x2 ∧ Descriptor.op 0x400000000000000000000 ≠ 0x3 := by decide

theorem witness_SelectOpensASession : (idle tp).fault = none ∧ (idle tp).lines.csSel = false ∧
    (idle tp).lines.dir = true ∧ opened.fault = none ∧ opened.lines.csSel = true := by decide

theorem witness_DeselectClosesTheSession : opened.fault = none ∧ opened.lines.csSel = true ∧ opened.lines.dir = true ∧
    opened.panel.half = none ∧ (idle tp).fault = none ∧ (idle tp).lines.csSel = false := by decide

/-- Allowed: no session open, no byte sent, the same framing again; not allowed: the other framing after a byte. -/
theorem witness_FramingIsSetBeforeTheBytes :
    let s1 := withLines true false (some .D) true none true
    let s2 := withLines true true (some .D) false none true
    s1.fault = none ∧ s2.fault = none ∧ opened.fault = none ∧
      ¬ (s1.lines.csSel = true ∧ s1.lines.sessDirty = true ∧ s1.lines.dcFrm ≠ some .C) ∧
      ¬ (s2.lines.csSel = true ∧ s2.lines.sessDirty = true ∧ s2.lines.dcFrm ≠ some .C) ∧
      ¬ (opened.lines.csSel = true ∧ opened.lines.sessDirty = true ∧ opened.lines.dcFrm ≠ some .D) ∧
      (opened.lines.csSel = true ∧ opened.lines.sessDirty = true ∧ opened.lines.dcFrm ≠ some .C) := by decide

theorem witness_WriteSendsEveryByteInOrder :
    let s1 := withLines true true none false none false
    opened.fault = none ∧ (opened.lines.csSel = true ∧ opened.lines.dcFrm ≠ none) ∧ (idle tp).fault = none ∧
      (idle tp).lines.csSel = false ∧ s1.fault = none ∧ s1.lines.csSel = true ∧ s1.lines.dcFrm = none := by decide

theorem witness_ResetLineResetsThePanelOnly : (idle tp).lines.dir = true := by decide

theorem witness_SendCmdIsOneCommandSession : (idle tp).fault = none ∧ (idle tp).lines.csSel = false ∧
    opened.fault = none ∧ opened.lines.csSel = true := by decide

theorem witness_SendDataIsOneDataSession : (idle tp).fault = none ∧ (idle tp).lines.csSel = false ∧
    opened.fault = none ∧ opened.lines.csSel = true := by decide

theorem witness_WireCommandsSendTheirSessions : (idle tp).fault = none ∧ (idle tp).lines.csSel = false ∧
    opened.fault = none ∧ opened.lines.csSel = true ∧
    (Instr.caset 0 65535, cmdSession 0x2A ++ dataSession [0, 0, 0xFF, 0xFF]) ∈ [
      (Instr.slpout, cmdSession (idle tp).params.opcSlpout),
      (.dispon, cmdSession (idle tp).params.opcDispon),
      (.caset 0 65535, cmdSession (idle tp).params.opcCaset ++ dataSession [hi8 0, lo8 0, hi8 65535, lo8 65535]),
      (.raset 0 65535, cmdSession (idle tp).params.opcRaset ++ dataSession [hi8 0, lo8 0, hi8 65535, lo8 65535]),
      (.ramwr, cmdSession (idle tp).params.opcRamwr),
      (.madctl, cmdSession (idle tp).params.opcMadctl ++ dataSession [(idle tp).params.parMadctlNorot]),
      (.colmod, cmdSession (idle tp).params.opcColmod ++ dataSession [(idle tp).params.parColmod16bpp])] := by
  decide

theorem ready_quiet : ready.quiet := ⟨rfl, rfl, rfl, rfl, rfl, rfl⟩

/-- The last column and the last row of the panel. -/
theorem witness_CommandsStoreNoPixel : (idle tp).fault = none ∧ (idle tp).params.wf = true ∧ (idle tp).panel.quiet ∧
    (idle tp).lines.dir = true ∧ (idle tp).lines.csSel = false ∧ (3 : Coord) ≤ 3 ∧ 3 < (idle tp).params.width ∧
    (2 : Coord) ≤ 2 ∧ 2 < (idle tp).params.height ∧ Instr.ramwr ∈ [Instr.slpout, .dispon, .ramwr, .madctl, .colmod] :=
  ⟨rfl, by decide, ready_quiet, rfl, rfl, by decide, by decide, by decide, by decide, by decide⟩

/-- The whole panel; one column, one row too far; a reversed range. -/
theorem witness_SetWindowSendsTheWholeSequence :
    let inside : Coord → Coord → Coord → Coord → Prop := fun x0 y0 x1 y1 =>
      x0 ≤ x1 ∧ x1 < (idle tp).params.width ∧ y0 ≤ y1 ∧ y1 < (idle tp).params.height
    (idle tp).fault = none ∧ (idle tp).lines.csSel = false ∧ inside 0 0 3 2 ∧ inside 3 2 3 2 ∧ ¬ inside 0 0 4 0 ∧
      ¬ inside 0 0 0 3 ∧ ¬ inside 3 0 2 0 ∧ opened.fault = none ∧ opened.params = tp ∧ opened.lines.csSel = true :=
  ⟨rfl, rfl, by decide, by decide, by decide, by decide, by decide, rfl, rfl, rfl⟩

theorem witness_WindowSequenceSetsThePointer : tp.wf = true ∧ ready.quiet ∧ (3 : Coord) ≤ 3 ∧ 3 < tp.width ∧
    (2 : Coord) ≤ 2 ∧ 2 < tp.height := ⟨by decide, ready_quiet, by decide, by decide, by decide, by decide⟩

theorem witness_ClipTruncatesToThePanel :
    (4 : Coord).toNat ≥ tp.width.toNat ∧ (3 : Coord).toNat ≥ tp.height.toNat ∧ (0 : Coord).toNat = 0 ∧
      (3 : Coord).toNat < tp.width.toNat ∧ (2 : Coord).toNat < tp.height.toNat ∧ (65535 : Coord).toNat ≠ 0 := by decide

theorem witness_ClippedWindowIsInsideThePanel : clip tp 3 2 65535 1 = .window 3 2 1 1 ∧
    clip tp 0 0 4 3 = .window 0 0 4 3 := by decide

theorem witness_PixelCountIsTheWindowsSize : clip tp 1 1 9 9 = .window 1 1 3 2 := by decide

theorem witness_ClipWritesTheWorkingRegisters : clip (idle tp).params 4 0 1 1 = .nothing ∧
    clip (idle tp).params 3 0 2 1 = .window 3 0 1 1 := by decide

/-- A busy block whose next item reads an entry the source has; an idle one with a word presented. -/
theorem witness_BusyBlockTakesNoRequest : (reading [1, 2]).busy = true ∧ (∃ t, step (reading [1, 2]) = .next t) ∧
    (presenting (idle tp) (.fillRect 0 0 1 1 5) []).reqReady = true ∧
    (presenting (idle tp) (.fillRect 0 0 1 1 5) []).reqValid = true ∧
    ∃ t, step (presenting (idle tp) (.fillRect 0 0 1 1 5) []) = .next t := ⟨rfl, ⟨_, rfl⟩, rfl, rfl, _, rfl⟩

theorem witness_AcceptanceLatchesTheDescriptor : (idle tp).busy = false ∧ (idle tp).initState = .done ∧
    (idle tp).lines.csSel = false := by decide

/-- Each of the four grounds on which nothing is drawn. -/
theorem witness_RequestThatDrawsNothingEmitsNothing :
    (presenting (idle tp) (.fillRect 4 0 1 1 0) []).presents (.fillRect 4 0 1 1 0) [] [] ∧
      (presenting (idle tp) (.drawBitmap 0 3 1 1 0) [7]).presents (.drawBitmap 0 3 1 1 0) [7] [] ∧
      (idle tp).initState = .done ∧ (4 : Coord).toNat ≥ (idle tp).params.width.toNat ∧
      (3 : Coord).toNat ≥ (idle tp).params.height.toNat ∧ (0 : Coord).toNat = 0 :=
  ⟨⟨rfl, rfl, rfl⟩, ⟨rfl, rfl, rfl⟩, rfl, by decide, by decide, rfl⟩

theorem witness_DrawingBeforeInitializationFaults : fresh.fault = none ∧ fresh.busy = false ∧ fresh.initState ≠ .done ∧
    Instr.fillScreen 0 0 0 0 0 ∈ [Instr.fillRect 0 0 0 0 0, .fillScreen 0 0 0 0 0, .drawBitmap 0 0 0 0 0] := by decide

theorem witness_InitializeRunsItsScript :
    (presenting fresh (.initPanel 1 2 3 4 5) []).presents (.initPanel 1 2 3 4 5) [] [] ∧
      (presenting fresh (.initPanel 1 2 3 4 5) []).initState = .notRun ∧
      (presenting fresh (.initPanel 1 2 3 4 5) []).panel = Panel.powerOn ∧
      (presenting (idle tp) (.initPanel 1 2 3 4 5) []).presents (.initPanel 1 2 3 4 5) [] [] ∧
      (presenting (idle tp) (.initPanel 1 2 3 4 5) []).initState ≠ .notRun :=
  ⟨⟨rfl, rfl, rfl⟩, rfl, rfl, ⟨rfl, rfl, rfl⟩, by decide⟩

/-- A drawing request presented with a session left open by a direct SELECT. -/
theorem opened_presents (i : Instr) (src : List Pixel) : (presenting opened i src).presents i src [] ∧
    (presenting opened i src).initState = .done ∧ (presenting opened i src).lines.csSel = true ∧
    (presenting opened i src).params = tp := ⟨⟨rfl, rfl, rfl⟩, rfl, rfl, rfl⟩

/-- A rectangle that is truncated, one outside the panel, one before the initialization, one in an open session. -/
theorem witness_FillRectEmitsFillPlan :
    (presenting (idle tp) (.fillRect 3 2 9 9 5) []).presents (.fillRect 3 2 9 9 5) [] [] ∧
      (presenting (idle tp) (.fillRect 4 0 1 1 5) []).presents (.fillRect 4 0 1 1 5) [] [] ∧
      (idle tp).initState = .done ∧ (idle tp).lines.csSel = false ∧
      clip (idle tp).params 3 2 9 9 = .window 3 2 1 1 ∧ clip (idle tp).params 4 0 1 1 = .nothing ∧
      (presenting fresh (.fillRect 4 0 1 1 5) []).presents (.fillRect 4 0 1 1 5) [] [] ∧ fresh.initState ≠ .done ∧
      (presenting opened (.fillRect 3 2 9 9 5) []).presents (.fillRect 3 2 9 9 5) [] [] ∧ opened.initState = .done ∧
      opened.lines.csSel = true ∧ clip opened.params 3 2 9 9 ≠ .nothing :=
  ⟨⟨rfl, rfl, rfl⟩, ⟨rfl, rfl, rfl⟩, rfl, rfl, by decide, by decide, ⟨rfl, rfl, rfl⟩, by decide,
    (opened_presents _ _).1, rfl, rfl, by decide⟩

theorem witness_FillScreenFillsTheWholePanel :
    (presenting (idle tp) (.fillScreen 7 7 7 7 5) []).presents (.fillScreen 7 7 7 7 5) [] [] ∧
      (idle tp).initState = .done ∧ (idle tp).lines.csSel = false ∧ (idle tp).params.wf = true ∧
      (presenting fresh (.fillScreen 7 7 7 7 5) []).presents (.fillScreen 7 7 7 7 5) [] [] ∧
      fresh.params.wf = true ∧ fresh.initState ≠ .done ∧
      (presenting opened (.fillScreen 7 7 7 7 5) []).presents (.fillScreen 7 7 7 7 5) [] [] ∧ opened.params.wf = true ∧
      opened.initState = .done ∧ opened.lines.csSel = true :=
  ⟨⟨rfl, rfl, rfl⟩, rfl, rfl, by decide, ⟨rfl, rfl, rfl⟩, by decide, by decide, (opened_presents _ _).1, by decide, rfl, rfl⟩

/-- The bitmap of V43-17, with one entry more than it reads. -/
theorem source_suffices : sourceSuffices tp 3 0 3 2 [1, 2, 3] := by
  show ∀ i ∈ entriesRead tp 3 1 2, i < 3
  decide

theorem witness_DrawBitmapStreamsTheEntries :
    (presenting (idle tp) (.drawBitmap 3 0 3 2 0) [1, 2, 3]).presents (.drawBitmap 3 0 3 2 0) [1, 2, 3] [] ∧
      (idle tp).initState = .done ∧ (idle tp).lines.csSel = false ∧ sourceSuffices (idle tp).params 3 0 3 2 [1, 2, 3] ∧
      clip (idle tp).params 3 0 3 2 = .window 3 0 1 2 ∧ sourceSuffices (idle tp).params 4 0 3 2 [] ∧
      clip (idle tp).params 4 0 3 2 = .nothing ∧
      (presenting fresh (.drawBitmap 3 0 3 2 0) []).presents (.drawBitmap 3 0 3 2 0) [] [] ∧ fresh.initState ≠ .done ∧
      (presenting opened (.drawBitmap 3 0 3 2 0) []).presents (.drawBitmap 3 0 3 2 0) [] [] ∧ opened.initState = .done ∧
      opened.lines.csSel = true ∧ clip opened.params 3 0 3 2 ≠ .nothing :=
  ⟨⟨rfl, rfl, rfl⟩, rfl, rfl, source_suffices, by decide, trivial, by decide, ⟨rfl, rfl, rfl⟩, by decide,
    (opened_presents _ _).1, rfl, rfl, by decide⟩

theorem witness_MissingEntryLeavesTheBlockStuck : (reading [1]).fault = none ∧ (reading [1]).busy = true ∧
    (reading [1]).plan[(reading [1]).seq]? = some .bitmapHigh ∧
    (reading [1]).memRead (reading [1]).entryIndex = none := by decide

theorem witness_ShortBitmapStopsMidSession :
    (presenting (idle tp) (.drawBitmap 2 1 2 2 0) [1, 2, 3]).presents (.drawBitmap 2 1 2 2 0) [1, 2, 3] [] ∧
      (idle tp).initState = .done ∧ (idle tp).lines.csSel = false ∧
      (2 : Coord).toNat + 2 ≤ (idle tp).params.width.toNat ∧ (1 : Coord).toNat + 2 ≤ (idle tp).params.height.toNat :=
  ⟨⟨rfl, rfl, rfl⟩, rfl, rfl, by decide, by decide⟩

theorem witness_StepRunsTheDecodedInstruction :
    let s := presenting (idle tp) (.caset 1 2) []
    s.fault = none ∧ s.busy = false ∧ s.port = [{ word := .wire 0x2A [0, 1, 0, 2], src := [] }] ∧
      decode s.params (.wire 0x2A [0, 1, 0, 2]) = .ok (.caset 1 2) := by decide

/-- A busy block with the two items a bitmap has not. -/
def filling : State := { reading [] with plan := [.openStream 4, .fillLow 7] }

/-- One item of each kind: a bitmap pixel's two bytes, the last event of a plan, the opening of a pixel session, a fill's low
byte. -/
theorem witness_BusyStepEmitsTheNextEvent : (reading [1, 2]).fault = none ∧ (reading [1, 2]).busy = true ∧
    (reading [1, 2]).plan[(reading [1, 2]).seq]? = some .bitmapHigh ∧
    (reading [1, 2]).memRead (reading [1, 2]).entryIndex ≠ none ∧
    (reading [1, 2]).memRead
      (bitmapIndex tp.clipMode (reading []).work.weff (reading []).req.rw (reading []).work.sidx.toNat) = some 2 ∧
    ((reading []).goto 1).plan[((reading []).goto 1).seq]? = some .bitmapLow ∧
    ((reading []).goto 2).plan[((reading []).goto 2).seq]? = some (.ev .desel) ∧
    filling.fault = none ∧ filling.busy = true ∧ filling.plan[filling.seq]? = some (.openStream 4) ∧
    (filling.goto 1).plan[(filling.goto 1).seq]? = some (.fillLow 7) := by decide

theorem witness_ReservedRequestIsRefused :
    let s := { idle tp with port := [{ word := .request 0x400000000000000000000, src := [] }] }
    s.fault = none ∧ s.busy = false ∧ 3 < (Descriptor.op 0x400000000000000000000).toNat := by decide

/-- A step that takes a word, a step of a busy block, a step of an idle one. -/
theorem witness_StepOnlyAppendsToTheTrace : (∃ t, step (presenting fresh (.initPanel 0 0 0 0 0) []) = .next t) ∧
    (∃ t, step (reading [1, 2]) = .next t) ∧ ∃ t, step (idle tp) = .next t := ⟨⟨_, rfl⟩, ⟨_, rfl⟩, _, rfl⟩

/-- A recorded fault, and a request that would raise another one there. -/
theorem witness_RecordedFaultEndsTheRun :
    let s := { fresh with fault := some .initTwice }
    s.fault = some .initTwice ∧ ∃ g, exec (.fillRect 0 0 1 1 0) s = .fault g := ⟨rfl, _, rfl⟩

/-- A bitmap's pixel session with `FRM(D)` due before the next pixel; its working registers stand at entry 1. -/
def framing (src : List Pixel) : State :=
  { reading src with plan := [.ev (.frm .D), .bitmapHigh, .bitmapLow, .ev .desel] }

/-- The step to a state that asks for entry 1: answered, and not answered. -/
theorem witness_SourcePortAsksForTheNextEntry :
    (framing [1, 2]).sourceInv ∧
      (∃ t, step (framing [1, 2]) = .next t ∧ t.srcRequest = some 1 ∧ t.srcAnswer = some 2) ∧
      (framing [1]).sourceInv ∧ ∃ t, step (framing [1]) = .next t ∧ t.srcRequest = some 1 ∧ t.srcAnswer = none :=
  ⟨fun _ _ => rfl, ⟨_, rfl, rfl, rfl⟩, fun _ _ => rfl, _, rfl, rfl, rfl⟩

/-- Undriven lines; driven ones in each of their values. -/
theorem witness_PinsFollowTheLines : fresh.lines.dir = false ∧
    (∀ f ∈ [none, some Framing.C, some .D], ∀ l ∈ [none, some RstLevel.active, some .inactive],
      (withLines true false f false l false).lines.dir = true ∧ (withLines true true f false l true).lines.dcFrm = f ∧
        (withLines true true f false l true).lines.rstLvl = l) := by decide

theorem witness_StickyBitsAreNeverCleared :
    let s := { idle tp with panel := ready.poison }
    (∃ t, step s = .next t) ∧ s.lines.dir = true ∧ s.lines.blOn = true ∧ s.panel.bad = true := ⟨⟨_, rfl⟩, rfl, rfl, rfl⟩

/-- The three ways: unchanged, NOT_RUN to RUNNING, RUNNING to DONE with the last event of a plan. -/
theorem witness_OnlyInitializeMovesInitState :
    (∃ t, step (idle tp) = .next t) ∧ (∃ t, step (presenting fresh (.initPanel 0 0 0 0 0) []) = .next t) ∧
      ∃ t, step { idle tp with initState := .running, busy := true, plan := [.ev (.sleep 4)] } = .next t ∧
        t.initState = .done := ⟨⟨_, rfl⟩, ⟨_, rfl⟩, _, rfl, rfl⟩

/-- In the middle of the sleep-out session of INITIALIZE: the select has been sent, three events are left. -/
def midSession : State := {
  fresh with
  initState := .running
  busy := true
  lines := { dir := true, csSel := true, dcFrm := none, sessDirty := false, rstLvl := some .inactive, blOn := true }
  plan := (cmdSession 0x11).map .ev
  seq := 1
  trace := [.cfgOut, .sel] }

theorem witness_SessionShapeIsKeptByEveryStep : midSession.sessionInv ∧ ∃ t, step midSession = .next t := by
  refine ⟨⟨by simp [State.requestsOnly, midSession, fresh, State.reset], by decide, .selected, rfl, by decide,
    by decide, ?_⟩, _, rfl⟩
  intro _ es h
  have h : mayEmit ([Event.frm .C, .byte 0x11, .desel].map .ev) es := h
  obtain rfl := mayEmit_ev.mp h
  rfl

/-- An idle block that is about to take a request. -/
theorem witness_OpenSessionMeansBusy :
    (presenting (idle tp) (.fillRect 0 0 1 1 0) []).sessionInv ∧
      ∃ t, step (presenting (idle tp) (.fillRect 0 0 1 1 0) []) = .next t := by
  refine ⟨⟨?_, by decide, .closed, rfl, by decide, by decide, fun h => by cases h⟩, _, rfl⟩
  intro q hq
  obtain rfl := List.mem_singleton.mp hq
  exact ⟨_, rfl⟩

/-- INITIALIZE after its first event. -/
def initializing : State := {
  fresh with
  initState := .running
  busy := true
  lines := { fresh.lines with dir := true }
  plan := (initPlan tp).map .ev
  seq := 1
  trace := [.cfgOut] }

theorem witness_InitializationOrderIsKeptByEveryStep : initializing.initInv ∧ ∃ t, step initializing = .next t := by
  refine ⟨⟨by simp [State.requestsOnly, initializing, fresh, State.reset], by decide, ?_⟩, _, rfl⟩
  exact ⟨rfl, rfl, rfl, rfl, by decide, by decide⟩

theorem witness_PanelIsNeverPoisonedByRequests : initializing.panelInv ∧ ∃ t, step initializing = .next t := by
  refine ⟨⟨by decide, witness_InitializationOrderIsKeptByEveryStep.1, rfl, fun h => (by cases h), fun h => (by cases h), ?_⟩,
    _, rfl⟩
  intro _ es h
  have h : mayEmit ((initPlan tp).tail.map .ev) es := h
  obtain rfl := mayEmit_ev.mp h
  have hq := (replay_initPlan tp false).1
  rw [show initPlan tp = .cfgOut :: (initPlan tp).tail from rfl, replay_cons] at hq
  exact hq

/-- A panel that holds a pixel and waits for another. -/
def painted : Panel := { ready with gram := Gram.write [] 3 2 0xF800, addr := .writing 3 3 2 2 3 2 }

theorem painted_sound : painted.sound tp := by
  refine ⟨by decide, ?_, by decide, ?_, by decide⟩
  · intro c r h
    simp only [painted, Gram.read_write] at h
    split at h
    · next hc =>
      obtain ⟨rfl, rfl⟩ := hc
      decide
    · exact absurd (Gram.read_nil c r) h
  · show (2 : Coord) ≤ 2 ∧ 2 < tp.height ∧ (3 : Coord) ≤ 3 ∧ 3 < tp.width ∧ (3 : Coord) ≤ 3 ∧ (3 : Coord) ≤ 3 ∧
      (2 : Coord) ≤ 2 ∧ (2 : Coord) ≤ 2
    decide

theorem witness_PixelMemoryStaysCanonicalAndInside :
    Panel.sound ({ idle tp with panel := painted }).params ({ idle tp with panel := painted }).panel ∧
      ∃ t, step (presenting { idle tp with panel := painted } (.sendData [1, 2]) []) = .next t := ⟨painted_sound, _, rfl⟩

theorem witness_PanelIsAFunctionOfTheTrace :
    let s := presenting fresh (.initPanel 0 0 0 0 0) []
    (s.panel = Panel.powerOn.replay s.params false s.trace ∧ (s.lines.dir = true ↔ Event.cfgOut ∈ s.trace)) ∧
      ∃ t, step s = .next t := ⟨⟨rfl, by decide⟩, _, rfl⟩

theorem witness_CellWriteIsExact : Gram.wf [(0, 1), (65536, 2)] = true ∧ ¬ ((0 : Coord) = 1 ∧ (1 : Coord) = 1) := by decide

/-- The pointer at the end of a row, and at the last cell of the window. -/
theorem witness_PixelBytesStoreAtThePointer :
    let s := { opened with panel := { opened.panel with addr := .writing 1 2 0 1 2 1 } }
    s.fault = none ∧ s.lines.csSel = true ∧ s.lines.dir = true ∧ s.lines.dcFrm = some .D ∧ s.panel.sel = true ∧
      s.panel.frm = some .D ∧ s.panel.ready = true ∧ s.panel.pulse = .released ∧ s.panel.bad = false ∧
      s.panel.cmd = none ∧ s.panel.half = none ∧ s.panel.addr = .writing 1 2 0 1 2 1 := by decide

theorem witness_PoisonedPanelShowsNothing : ready.poison.bad = true ∧ ready.poison.gram = [] := ⟨rfl, rfl⟩

/-- The panel after its reset pulse, one byte of the script received. -/
def scripted : Panel := { Panel.powerOn with pulse := .released, initGot := 1, frm := some .C }

/-- A case for each clause: no window waits, or one waits with no half pixel pending; a command outside the seven; the lines
before and during the reset pulse; a byte of the script under the wrong framing, and a wrong one; ranges reversed and
outside by one; no and three address bytes; a byte outside a session, and under no framing. -/
theorem witness_StrayPixelDataPoisonsThePanel :
    (ready.ready = true ∧ ready.pulse = .released ∧ ready.cmd = none ∧
      (∀ xs xe ys ye c r, ready.addr ≠ .writing xs xe ys ye c r) ∧ painted.ready = true ∧ painted.pulse = .released ∧
      painted.cmd = none ∧ painted.half = none) ∧
    ((0x12 : Byte) ∉ tp.opcodes ∧ Panel.powerOn.pulse ≠ .released ∧
      ({ Panel.powerOn with pulse := .held } : Panel).pulse ≠ .released) ∧
    (scripted.pulse = .released ∧ scripted.ready = false ∧ (initBytes tp)[scripted.initGot]? ≠ some (.C, 0x29) ∧
      (initBytes tp)[scripted.initGot]? ≠ some (.D, 0x3A)) ∧
    (tp.wf = true ∧ ¬ ((2 : Coord) ≤ 1 ∧ (1 : Coord) < tp.height) ∧ ¬ ((0 : Coord) ≤ 3 ∧ (3 : Coord) < tp.height) ∧
      ¬ ((3 : Coord) ≤ 2 ∧ (2 : Coord) < tp.width) ∧ ¬ ((0 : Coord) ≤ 4 ∧ (4 : Coord) < tp.width) ∧
      ([] : List Byte).length < 4 ∧ ([0, 1, 2] : List Byte).length < 4) ∧
    ready.sel = false ∧ Panel.powerOn.frm = none :=
  ⟨⟨rfl, rfl, rfl, by simp [ready, Panel.powerOn], rfl, rfl, rfl, rfl⟩, by decide, by decide, by decide, rfl, rfl⟩

theorem witness_FillRectPaintsTheClippedRectangle : tp.wf = true ∧ ready.quiet ∧
    clip tp 1 1 2 5 = .window 1 1 2 2 ∧ clip tp 3 2 65535 65535 = .window 3 2 1 1 :=
  ⟨by decide, ready_quiet, by decide, by decide⟩

theorem witness_DrawBitmapPaintsTheEntries : tp.wf = true ∧ ready.quiet ∧ clip tp 3 0 3 2 = .window 3 0 1 2 ∧
    sourceSuffices tp 3 0 3 2 [1, 2, 3] := ⟨by decide, ready_quiet, by decide, source_suffices⟩

theorem witness_FillScreenIsIdempotent : tp.wf = true ∧ ready.quiet ∧ (3 : Coord) < tp.width ∧ (2 : Coord) < tp.height :=
  ⟨by decide, ready_quiet, by decide, by decide⟩

/-- The three requests of program P4, and a request that draws nothing. -/
theorem witness_RunOverRequestsEnds : tp.wf = true ∧
    ∀ q ∈ [({ word := .request 0x200000000000000000000, src := [] } : Presented),
      { word := .request 0x10001000100020005F800, src := [] },
      { word := .request 0x300020000000200020000, src := [0x1111, 0x2222, 0x3333, 0x4444] },
      { word := .request 0x100040000000100010000, src := [] }], drawable tp q := by
  refine ⟨by decide, ?_⟩
  intro q hq
  simp only [List.mem_cons, List.not_mem_nil, or_false] at hq
  rcases hq with rfl | rfl | rfl | rfl
  · trivial
  · trivial
  · show ∀ i ∈ entriesRead tp 2 2 2, i < 4
    decide
  · trivial

end Sys2Proof.Tests
end

/-! PROOFS. Sessions stay well shaped over every step (O44): an accepted request's plan opens and closes its own sessions, and
one item of a plan moves the phase of the trace and leaves the rest of the plan closing it. -/

namespace Sys2Proof.Machine

/-! ### Requests -/

/-- A descriptor that decodes names one of the four requests (R90). -/
theorem decodeRequest_cases {d : Descriptor} {i : Instr} (h : decodeRequest d = .ok i) :
    i = .initPanel d.x d.y d.w d.h d.color ∨ i = .fillRect d.x d.y d.w d.h d.color ∨
      i = .fillScreen d.x d.y d.w d.h d.color ∨ i = .drawBitmap d.x d.y d.w d.h d.color := by
  unfold decodeRequest at h
  split at h <;> cases h <;> simp

/-- A request that an idle block executes to a next state is accepted: of the cases of `exec_cases` only that one is left. -/
theorem exec_request_accepted {d : Descriptor} {i : Instr} {s t : State} (hd : decodeRequest d = .ok i)
    (hb : s.busy = false) (h : exec i s = .next t) : Accepted s i t := by
  have taken (r : Result) : whenReady s r = r := by simp [whenReady, hb]
  rcases decodeRequest_cases hd with rfl | rfl | rfl | rfl
  · simp only [exec, execInitPanel, taken] at h
    split at h
    · simp [raise_eq] at h
    · next hi =>
      cases h
      exact .initialization _ _ _ _ _ (by simpa using hi)
  · simp only [exec, execFillRect, taken] at h
    exact startDrawing_accepted (.inl ⟨_, rfl⟩) (by simp [latched]) h
  · simp only [exec, execFillScreen, taken] at h
    exact startDrawing_accepted (.inl ⟨_, rfl⟩) (by simp [latched]) h
  · simp only [exec, execDrawBitmap, taken] at h
    exact startDrawing_accepted (.inr ⟨rfl, rfl⟩) (by simp [latched]) h

/-! ### Plans and phases -/

/-- Whatever the items may emit leads from phase `q` to the end of a session. -/
def closesFrom (q : Phase) (items : List PlanItem) : Prop := ∀ es, mayEmit items es → q.after es = some .closed

theorem closesFrom_nil {q : Phase} : closesFrom q [] ↔ q = .closed := by
  simp [closesFrom, mayEmit, Phase.after]

/-- After an event of its first item, the rest of a closing list closes from the next phase. -/
theorem closesFrom.next {q : Phase} {item : PlanItem} {items : List PlanItem} {e : Event}
    (h : closesFrom q (item :: items)) (he : item.emits e) : ∃ q', q.next e = some q' ∧ closesFrom q' items := by
  have bind (es : List Event) (hm : mayEmit items es) : ((q.next e).bind fun q' => q'.after es) = some .closed :=
    h (e :: es) (mayEmit_cons.mpr ⟨he, hm⟩)
  obtain ⟨es, hm⟩ := exists_mayEmit items
  obtain ⟨q', hq', -⟩ := Option.bind_eq_some_iff.mp (bind es hm)
  exact ⟨q', hq', fun es hm => by simpa [hq'] using bind es hm⟩

theorem closesFrom_initPlan (p : Params) : closesFrom .closed ((initPlan p).map .ev) := by
  intro es hm
  rw [mayEmit_ev.mp hm, Phase.after_initPlan]

theorem closesFrom_streamPlan (p : Params) (x y w h : Coord) {px : List PlanItem}
    (hpx : (∃ c, px = fillPixel c) ∨ px = bitmapPixel) : closesFrom .closed (streamPlan p x y w h px) := by
  intro es hm
  obtain ⟨bs, -, rfl⟩ := mayEmit_streamPlan hpx hm
  simp [Phase.after_append, Phase.after_windowPlan, Phase.after_dataSession]

/-! ### What keeps the invariant -/

/-- The invariant after completion is tested: a busy block whose trace stands in `q`, and whose rest of the plan closes from
there. Where nothing is left, `q` is closed. -/
theorem State.sessionInv_settle {s : State} {q : Phase} (hr : s.requestsOnly) (hb : s.busy = true)
    (hq : Phase.closed.after s.trace = some q) (hl : s.lines.csSel = true ↔ q ≠ .closed)
    (hp : closesFrom q (s.plan.drop s.seq)) : s.settle.sessionInv := by
  by_cases hlt : s.seq < s.plan.length
  · rw [State.settle_of_lt hlt]
    exact ⟨hr, fun _ => hlt, q, hq, hl, by simp [hb], fun _ => hp⟩
  · rw [State.settle_of_not_lt hlt]
    have closed : q = .closed := by
      rw [List.drop_eq_nil_of_le (by omega)] at hp
      exact closesFrom_nil.mp hp
    exact ⟨hr, by simp, q, hq, hl, fun _ => closed, by simp⟩

/-- Taking a word leaves an idle block with fewer words presented. -/
theorem State.sessionInv.take {s : State} (hs : s.sessionInv) {w : Presented} {rest : List Presented}
    (hport : s.port = w :: rest) : (s.take w rest).sessionInv := by
  obtain ⟨hr, hlt, hq⟩ := hs
  refine ⟨fun x hx => hr x ?_, hlt, hq⟩
  rw [hport]
  exact List.mem_cons_of_mem w hx

/-- Acceptance loads a plan that opens and closes its own sessions. -/
theorem State.sessionInv.load {s v : State} (hs : s.sessionInv) (hb : s.busy = false) {plan : List PlanItem}
    (hplan : closesFrom .closed plan) (hport : v.port = s.port) (htrace : v.trace = s.trace)
    (hlines : v.lines = s.lines) : (State.load plan v).sessionInv := by
  obtain ⟨hr, -, q, hq, hl, hidle, -⟩ := hs
  obtain rfl := hidle hb
  refine State.sessionInv_settle (q := .closed) ?_ rfl ?_ ?_ hplan
  · simpa [State.requestsOnly, hport] using hr
  · simpa [htrace] using hq
  · simpa [hlines] using hl

theorem Accepted.sessionInv {s u : State} {i : Instr} (ha : Accepted s i u) (hs : s.sessionInv) (hb : s.busy = false) :
    u.sessionInv := by
  cases ha with
  | initialization x y w h c hi => exact hs.load hb (closesFrom_initPlan _) rfl rfl rfl
  | nothing i r hi hr => exact hs.load hb (closesFrom_nil.mpr rfl) rfl rfl rfl
  | draw i r px x y w h hpx hi hr hc hcs =>
    exact hs.load hb (closesFrom_streamPlan _ _ _ _ _ (hpx.imp_right And.left)) rfl rfl rfl

/-- The next event of a plan moves the phase of the trace, and `CS_SEL` with it. -/
theorem State.sessionInv.advance {s t : State} (hs : s.sessionInv) (hb : s.busy = true)
    (h : Machine.advance s = .next t) : t.sessionInv := by
  rcases advance_cases h with ⟨hnone, rfl⟩ | ⟨item, -, -, rfl⟩ | ⟨item, u, hitem, hrun, rfl⟩
  · exact absurd (hs.2.1 hb) (by simpa using hnone)
  · exact hs
  · obtain ⟨hr, -, q, hq, hl, -, hrest⟩ := hs
    obtain ⟨e, he, htrace, hlines, -, -, -, hbusy, -, hplan, -, -, hport, -⟩ := PlanItem.run_spec hrun
    have hdrop : s.plan.drop s.seq = item :: s.plan.drop (s.seq + 1) := by
      obtain ⟨hlt, rfl⟩ := List.getElem?_eq_some_iff.mp hitem
      exact List.drop_eq_getElem_cons hlt
    have hclose : closesFrom q (item :: s.plan.drop (s.seq + 1)) := hdrop ▸ hrest hb
    obtain ⟨q', hq', hclose'⟩ := hclose.next he
    refine State.sessionInv_settle (q := q') ?_ ?_ ?_ ?_ ?_
    · simpa [State.requestsOnly, hport] using hr
    · simpa [hbusy] using hb
    · simp [htrace, Phase.after_append, hq, Phase.after, hq']
    · simpa [hlines] using Phase.csSel_after hq' s.lines hl
    · simpa [hplan] using hclose'

theorem State.sessionInv.firstEvent {s t : State} (hs : s.sessionInv) (h : Machine.firstEvent s = .next t) :
    t.sessionInv := by
  unfold Machine.firstEvent at h
  split at h
  · next hb => exact hs.advance hb h
  · cases h
    exact hs

/-- Settles O44: a busy block sends the next event of its plan, an idle one accepts a request. -/
theorem sessionShapeIsKeptByEveryStep : Obligations.SessionShapeIsKeptByEveryStep := by
  intro s t hs hstep
  obtain ⟨-, ⟨hb, h⟩ | ⟨-, -, rfl⟩ | ⟨w, rest, i, u, hb, hport, hdec, hexec, hfirst⟩⟩ := step_cases hstep
  · exact hs.advance hb h
  · exact hs
  · obtain ⟨d, hd⟩ := hs.1 w (by simp [hport])
    rw [hd] at hdec
    have accepted := exec_request_accepted (s := s.take w rest) hdec hb hexec
    exact (accepted.sessionInv (hs.take hport) hb).firstEvent hfirst

end Sys2Proof.Machine

/-! PROOFS. The sample words (O6). -/

namespace Sys2Proof

/-- Settles O6: each word is closed, and the decoder reads of the parameters only the opcodes, which have values. -/
theorem sampleWordsDecode : Obligations.SampleWordsDecode := by
  unfold Obligations.SampleWordsDecode
  decide

end Sys2Proof

/-! PROOFS. The level of each control pin (O40), by whether the block drives the lines and by the line's register. -/

namespace Sys2Proof.Machine

theorem pinLevel_eq (high asserted : Bool) : pinLevel high asserted = if asserted then high else !high := by
  cases asserted <;> simp [pinLevel]

/-- R22: the block drives no line while `DIR = 0`. -/
theorem pins_undriven {s : State} (h : s.lines.dir = false) :
    s.csPin = none ∧ s.dcPin = none ∧ s.rstPin = none ∧ s.blPin = none := by
  simp [State.csPin, State.dcPin, State.rstPin, State.blPin, h]

theorem csPin_driven {s : State} (h : s.lines.dir = true) :
    s.csPin = some (if s.lines.csSel then s.params.pins.csActiveHigh else !s.params.pins.csActiveHigh) := by
  simp [State.csPin, h, pinLevel_eq]

theorem blPin_driven {s : State} (h : s.lines.dir = true) :
    s.blPin = some (if s.lines.blOn then s.params.pins.blOnHigh else !s.params.pins.blOnHigh) := by
  simp [State.blPin, h, pinLevel_eq]

theorem dcPin_driven {s : State} (h : s.lines.dir = true) :
    s.dcPin = s.lines.dcFrm.map fun f =>
      if f = .C then s.params.pins.dcCommandHigh else !s.params.pins.dcCommandHigh := by
  simp [State.dcPin, h, pinLevel_eq]

theorem rstPin_driven {s : State} (h : s.lines.dir = true) :
    s.rstPin = s.lines.rstLvl.map fun l =>
      if l = .active then s.params.pins.rstActiveHigh else !s.params.pins.rstActiveHigh := by
  simp [State.rstPin, h, pinLevel_eq]

/-- R117: CFG_OUT drives the lines, with chip select deselected. -/
theorem cfgOut_pins (s : State) : ∃ t, exec .cfgOut s = .next t ∧ t.csPin = some (!s.params.pins.csActiveHigh) ∧
    t.dcPin.isSome = s.lines.dcFrm.isSome ∧ t.rstPin.isSome = s.lines.rstLvl.isSome := by
  have driven : (s.emit .cfgOut).lines.dir = true := rfl
  refine ⟨s.emit .cfgOut, rfl, ?_, ?_, ?_⟩
  · simp [csPin_driven driven]
  · simp [dcPin_driven driven]
  · simp [rstPin_driven driven]

/-- Settles O40: the lines undriven, driven with each value of their registers, and after CFG_OUT. -/
theorem pinsFollowTheLines : Obligations.PinsFollowTheLines := by
  intro s
  refine ⟨pins_undriven, fun h => ⟨csPin_driven h, blPin_driven h, ?_⟩, cfgOut_pins s⟩
  rw [dcPin_driven h, rstPin_driven h]
  refine ⟨?_, ?_, ?_, ?_, ?_, ?_⟩ <;> intro hv <;> simp [hv]

end Sys2Proof.Machine

/-! PROOFS. What one step can do, said once for all instructions (R27, R31, R33), and what the trace, the line registers, the
panel and the ports of a next state are (O23, O37, O41, O42, O52). -/

namespace Sys2Proof.Machine

/-! ### Emission leaves the block's other registers -/

/-- What no single event changes, no list of events changes. -/
theorem emitAll_keeps {α : Type} (f : State → α) (hf : ∀ e s, f (State.emit e s) = f s) (es : List Event) (s : State) :
    f (State.emitAll es s) = f s := by
  induction es generalizing s with
  | nil => rfl
  | cons e es ih => exact (ih (s.emit e)).trans (hf e s)

@[simp] theorem emitAll_initState (es : List Event) (s : State) : (State.emitAll es s).initState = s.initState :=
  emitAll_keeps State.initState (fun _ _ => rfl) es s

@[simp] theorem emitAll_busy (es : List Event) (s : State) : (State.emitAll es s).busy = s.busy :=
  emitAll_keeps State.busy (fun _ _ => rfl) es s

@[simp] theorem emitAll_req (es : List Event) (s : State) : (State.emitAll es s).req = s.req :=
  emitAll_keeps State.req (fun _ _ => rfl) es s

@[simp] theorem emitAll_work (es : List Event) (s : State) : (State.emitAll es s).work = s.work :=
  emitAll_keeps State.work (fun _ _ => rfl) es s

@[simp] theorem emitAll_plan (es : List Event) (s : State) : (State.emitAll es s).plan = s.plan :=
  emitAll_keeps State.plan (fun _ _ => rfl) es s

@[simp] theorem emitAll_fault (es : List Event) (s : State) : (State.emitAll es s).fault = s.fault :=
  emitAll_keeps State.fault (fun _ _ => rfl) es s

@[simp] theorem emitAll_port (es : List Event) (s : State) : (State.emitAll es s).port = s.port :=
  emitAll_keeps State.port (fun _ _ => rfl) es s

@[simp] theorem emitAll_src (es : List Event) (s : State) : (State.emitAll es s).src = s.src :=
  emitAll_keeps State.src (fun _ _ => rfl) es s

/-! ### The ways a step can go -/

/-- Every way a step can answer a next state. A busy block has nothing left to send, waits for the source, or sends its next
item; an idle one is presented nothing, runs a direct use whole, or accepts a request and sends the first event of its plan. -/
inductive Stepped (s : State) : State → Prop
  | exhausted (hb : s.busy = true) (hitem : s.plan[s.seq]? = none) : Stepped s s.finish
  | waiting (item : PlanItem) (hb : s.busy = true) (hitem : s.plan[s.seq]? = some item) (hrun : item.run s = none) :
    Stepped s s
  | sent (item : PlanItem) (u : State) (hb : s.busy = true) (hitem : s.plan[s.seq]? = some item)
    (hrun : item.run s = some u) : Stepped s (State.settle (u.goto (s.seq + 1)))
  | idle (hb : s.busy = false) (hport : s.port = []) : Stepped s s
  | emitted (q : Presented) (rest : List Presented) (es : List Event) (hb : s.busy = false) (hport : s.port = q :: rest)
    (hq : ∀ d, q.word ≠ .request d) : Stepped s (State.emitAll es (s.take q rest))
  | clipped (q : Presented) (rest : List Presented) (w : WorkRegs) (hb : s.busy = false) (hport : s.port = q :: rest)
    (hq : ∀ d, q.word ≠ .request d) : Stepped s { s.take q rest with work := w }
  | initialization (q : Presented) (rest : List Presented) (x y w h : Coord) (c : Pixel) (hb : s.busy = false)
    (hport : s.port = q :: rest) (hdec : decode s.params q.word = .ok (.initPanel x y w h c))
    (hi : s.initState = .notRun) :
    Stepped s (State.goto 1 (State.emit .cfgOut { s.take q rest with
      req := latched 0x0 x y w h c, initState := .running, busy := true, plan := (initPlan s.params).map .ev }))
  | nothing (q : Presented) (rest : List Presented) (r : ReqRegs) (hb : s.busy = false) (hport : s.port = q :: rest)
    (hi : s.initState = .done) (hr : r.op ≠ 0) : Stepped s (State.load [] ((s.take q rest).latch r))
  | draw (q : Presented) (rest : List Presented) (r : ReqRegs) (px : List PlanItem) (x y w h : Coord)
    (hb : s.busy = false) (hport : s.port = q :: rest)
    (hpx : (∃ c, px = fillPixel c) ∨ px = bitmapPixel ∧ r.op = 0x3) (hi : s.initState = .done) (hr : r.op ≠ 0)
    (hcs : s.lines.csSel = false) :
    Stepped s (State.goto 1 (State.emit .sel { s.take q rest with
      req := r, work := s.work.clipped x y w h, busy := true, plan := streamPlan s.params x y w h px }))

/-- What a word that is taken by an idle block does: a request is accepted, any other word is a direct use. -/
theorem exec_word_cases {s u : State} {q : Presented} {i : Instr} (hb : s.busy = false)
    (hdec : decode s.params q.word = .ok i) (hexec : exec i s = .next u) :
    Accepted s i u ∨ (∀ d, q.word ≠ .request d) ∧ ((∃ es, u = State.emitAll es s) ∨ ∃ w, u = { s with work := w }) := by
  by_cases hreq : ∃ d, q.word = .request d
  · obtain ⟨d, hd⟩ := hreq
    rw [hd] at hdec
    exact .inl (exec_request_accepted hdec hb hexec)
  · have hq (d : Descriptor) (hd : q.word = .request d) : False := hreq ⟨d, hd⟩
    rcases exec_cases hexec with emitted | clipped | ⟨-, ⟨busy, -⟩ | ⟨-, accepted⟩⟩
    · exact .inr ⟨hq, .inl emitted⟩
    · exact .inr ⟨hq, .inr clipped⟩
    · simp [hb] at busy
    · exact .inl accepted

theorem firstEvent_of_idle {u : State} (hb : u.busy = false) : firstEvent u = .next u := by
  simp [firstEvent, hb]

/-- A step answers a next state only without a recorded fault, and in one of the ways listed. -/
theorem step_stepped {s t : State} (h : step s = .next t) : s.fault = none ∧ Stepped s t := by
  obtain ⟨hf, ⟨hb, hadv⟩ | ⟨hb, hport, rfl⟩ | ⟨q, rest, i, u, hb, hport, hdec, hexec, hfirst⟩⟩ := step_cases h
  · refine ⟨hf, ?_⟩
    rcases advance_cases hadv with ⟨hnone, rfl⟩ | ⟨item, hitem, hrun, rfl⟩ | ⟨item, u, hitem, hrun, rfl⟩
    · exact .exhausted hb hnone
    · exact .waiting item hb hitem hrun
    · exact .sent item u hb hitem hrun
  · exact ⟨hf, .idle hb hport⟩
  · refine ⟨hf, ?_⟩
    rcases exec_word_cases (s := s.take q rest) hb hdec hexec with accepted | ⟨hq, ⟨es, rfl⟩ | ⟨w, rfl⟩⟩
    · rcases accepted.first hfirst with ⟨x, y, w, hh, c, rfl, hi, rfl⟩ | ⟨r, hi, hr, rfl⟩ |
        ⟨r, px, x, y, w, hh, hpx, hi, hr, -, hcs, rfl⟩
      · exact .initialization q rest x y w hh c hb hport hdec hi
      · exact .nothing q rest r hb hport hi hr
      · exact .draw q rest r px x y w hh hb hport hpx hi hr hcs
    · rw [firstEvent_of_idle (by simpa using hb)] at hfirst
      cases hfirst
      exact .emitted q rest es hb hport hq
    · rw [firstEvent_of_idle (by simpa using hb)] at hfirst
      cases hfirst
      exact .clipped q rest w hb hport hq

/-! ### A step appends to the trace -/

/-- `t` has the events `es` more than `s`, its lines and panel are what they make of those of `s`, and the parameters and the
recorded fault are those of `s`. -/
def State.appended (es : List Event) (s t : State) : Prop :=
  t.trace = s.trace ++ es ∧ t.lines = Lines.afterAll es s.lines ∧
    t.panel = s.panel.replay s.params s.lines.dir es ∧ t.params = s.params ∧ t.fault = s.fault

/-- A state with the bus side, the parameters and the fault of `s` has no new event. -/
theorem appended_nil {s t : State} (htrace : t.trace = s.trace) (hlines : t.lines = s.lines) (hpanel : t.panel = s.panel)
    (hparams : t.params = s.params) (hfault : t.fault = s.fault) : State.appended [] s t :=
  ⟨by simpa using htrace, hlines, by rw [replay_nil, hpanel], hparams, hfault⟩

/-- A state with the bus side, the parameters and the fault of `s` after `e` has that one event more. -/
theorem appended_one {e : Event} {s t : State} (htrace : t.trace = s.trace ++ [e]) (hlines : t.lines = s.lines.after e)
    (hpanel : t.panel = s.panel.see s.params s.lines.dir e) (hparams : t.params = s.params) (hfault : t.fault = s.fault) :
    State.appended [e] s t :=
  ⟨htrace, hlines, by rw [replay_cons, replay_nil, hpanel], hparams, hfault⟩

theorem Stepped.appended {s t : State} (h : Stepped s t) : ∃ es, State.appended es s t := by
  cases h with
  | exhausted => exact ⟨[], appended_nil rfl rfl rfl rfl rfl⟩
  | waiting => exact ⟨[], appended_nil rfl rfl rfl rfl rfl⟩
  | sent item u _ _ hrun =>
    obtain ⟨e, -, htrace, hlines, hpanel, hparams, -, -, -, -, -, hfault, -⟩ := PlanItem.run_spec hrun
    exact ⟨[e], appended_one (by simpa using htrace) (by simpa using hlines) (by simpa using hpanel)
      (by simpa using hparams) (by simpa using hfault)⟩
  | idle => exact ⟨[], appended_nil rfl rfl rfl rfl rfl⟩
  | emitted q rest es => exact ⟨es, by simp [State.appended]⟩
  | clipped => exact ⟨[], appended_nil rfl rfl rfl rfl rfl⟩
  | initialization => exact ⟨[.cfgOut], appended_one rfl rfl rfl rfl rfl⟩
  | nothing => exact ⟨[], appended_nil rfl rfl rfl rfl rfl⟩
  | draw => exact ⟨[.sel], appended_one rfl rfl rfl rfl rfl⟩

/-- Settles O37: every way a step can go appends events, and it goes only without a recorded fault. -/
theorem stepOnlyAppendsToTheTrace : Obligations.StepOnlyAppendsToTheTrace := by
  intro s t h
  obtain ⟨hf, stepped⟩ := step_stepped h
  obtain ⟨es, htrace, hlines, hpanel, hparams, hfault⟩ := stepped.appended
  exact ⟨es, htrace, hlines, hpanel, hparams, hfault.trans hf⟩

/-! ### Sticky bits -/

/-- `DIR` after a list of events: it was 1, or `CFG_OUT` is among them (R22). -/
theorem afterAll_dir (es : List Event) (l : Lines) : (Lines.afterAll es l).dir = true ↔ l.dir = true ∨ .cfgOut ∈ es := by
  induction es generalizing l with
  | nil => simp [Lines.afterAll]
  | cons e es ih =>
    rw [Lines.afterAll, ih]
    cases e <;> simp

/-- R25: no event clears `BL_ON`. -/
theorem afterAll_blOn {es : List Event} {l : Lines} (h : l.blOn = true) : (Lines.afterAll es l).blOn = true := by
  induction es generalizing l with
  | nil => exact h
  | cons e es ih => exact ih (by cases e <;> simp [h])

/-- Settles O41: the new events clear none of the three bits. -/
theorem stickyBitsAreNeverCleared : Obligations.StickyBitsAreNeverCleared := by
  intro s t h
  obtain ⟨es, -, hlines, hpanel, -⟩ := stepOnlyAppendsToTheTrace s t h
  rw [hlines, hpanel]
  exact ⟨fun hd => (afterAll_dir es s.lines).mpr (.inl hd), afterAll_blOn, replay_bad⟩

/-! ### The panel follows the trace -/

/-- Whether a replay's lines are driven after its events is what `DIR` is after them. -/
theorem foldl_dirAfter_eq (es : List Event) (l : Lines) :
    es.foldl (fun v e => dirAfter e v) l.dir = (Lines.afterAll es l).dir := by
  induction es generalizing l with
  | nil => rfl
  | cons e es ih => exact ih (l.after e)

/-- The replay of a whole trace meets driven lines exactly when `DIR` is 1. -/
theorem foldl_dirAfter_trace {s : State} (h : s.lines.dir = true ↔ Event.cfgOut ∈ s.trace) :
    s.trace.foldl (fun v e => dirAfter e v) false = s.lines.dir := by
  have undriven := foldl_dirAfter_eq s.trace { s.lines with dir := false }
  rw [undriven, Bool.eq_iff_iff, afterAll_dir, h]
  simp

/-- Settles O52: the replay of the longer trace is that of the new events on the panel before the step. -/
theorem panelIsAFunctionOfTheTrace : Obligations.PanelIsAFunctionOfTheTrace := by
  rintro s t ⟨hreplay, hdir⟩ h
  obtain ⟨es, htrace, hlines, hpanel, hparams, -⟩ := stepOnlyAppendsToTheTrace s t h
  constructor
  · rw [hpanel, htrace, hparams, replay_append, ← hreplay, foldl_dirAfter_trace hdir]
  · rw [hlines, htrace, afterAll_dir, hdir, List.mem_append]

/-! ### What a step takes -/

/-- A busy block leaves the port, the operand registers and the source. -/
theorem Stepped.of_busy {s t : State} (h : Stepped s t) (hb : s.busy = true) :
    t.port = s.port ∧ t.req = s.req ∧ t.src = s.src := by
  cases h with
  | exhausted => exact ⟨rfl, rfl, rfl⟩
  | waiting => exact ⟨rfl, rfl, rfl⟩
  | sent item u _ _ hrun =>
    obtain ⟨e, -, -, -, -, -, -, -, hreq, -, -, -, hport, hsrc⟩ := PlanItem.run_spec hrun
    simp [hreq, hport, hsrc]
  | idle hb' | emitted _ _ _ hb' | clipped _ _ _ hb' | initialization _ _ _ _ _ _ _ hb' | nothing _ _ _ hb'
  | draw _ _ _ _ _ _ _ _ hb' => simp [hb] at hb'

/-- An idle block takes the first presented word, where there is one. -/
theorem Stepped.port_of_idle {s t : State} (h : Stepped s t) (hb : s.busy = false) : t.port = s.port.tail := by
  cases h with
  | exhausted hb' | waiting _ hb' | sent _ _ hb' => simp [hb] at hb'
  | idle _ hport | emitted _ _ _ _ hport | clipped _ _ _ _ hport | initialization _ _ _ _ _ _ _ _ hport
  | nothing _ _ _ _ hport | draw _ _ _ _ _ _ _ _ _ hport => simp [hport, State.load]

/-- R33: a request given to a busy block has no effect. -/
theorem whenReady_of_busy {s : State} (hb : s.busy = true) (r : Result) : whenReady s r = .next s := if_pos hb

/-- Settles O23: by whether the block is busy. -/
theorem busyBlockTakesNoRequest : Obligations.BusyBlockTakesNoRequest := by
  intro s x y w h c
  refine ⟨by simp [State.reqReady], fun t ht => ?_, fun hb => ⟨fun t ht => (step_stepped ht).2.of_busy hb, ?_⟩⟩
  · have stepped := (step_stepped ht).2
    cases hb : s.busy with
    | true => simp [State.reqReady, hb, (stepped.of_busy hb).1]
    | false => cases hp : s.port <;> simp [State.reqReady, State.reqValid, hb, hp, stepped.port_of_idle hb]
  · simp [exec, execInitPanel, execFillRect, execFillScreen, execDrawBitmap, whenReady_of_busy hb]

/-! ### INIT_STATE -/

/-- Settles O42: only an accepted INITIALIZE and a completion move it. -/
theorem onlyInitializeMovesInitState : Obligations.OnlyInitializeMovesInitState := by
  intro s t hstep
  have completes {v : State} (hi : v.initState = s.initState) (hb : s.busy = true) :
      v.finish.initState = s.initState ∨
        (s.initState = .running ∧ v.finish.initState = .done ∧ s.busy = true ∧ v.finish.busy = false) := by
    by_cases hr : s.initState = .running <;> simp [hi, hr, hb]
  obtain ⟨-, stepped⟩ := step_stepped hstep
  cases stepped with
  | exhausted hb => exact (completes rfl hb).imp_right .inr
  | waiting => exact .inl rfl
  | sent item u hb _ hrun =>
    obtain ⟨e, -, -, -, -, -, hinit, -⟩ := PlanItem.run_spec hrun
    by_cases hlt : s.seq + 1 < u.plan.length
    · rw [State.settle_of_lt hlt]
      exact .inl hinit
    · rw [State.settle_of_not_lt hlt]
      exact (completes (v := u.goto (s.seq + 1)) hinit hb).imp_right .inr
  | idle => exact .inl rfl
  | emitted => exact .inl (by simp)
  | clipped => exact .inl rfl
  | initialization q rest x y w h c _ hport hdec hi =>
    exact .inr (.inl ⟨hi, rfl, q, rest, x, y, w, h, c, hport, hdec⟩)
  | nothing q rest r _ _ hi => exact .inl (by simp [State.load, State.settle_initState, hi])
  | draw => exact .inl rfl

end Sys2Proof.Machine

/-! PROOFS. What holds at reset (O1, O43, O46, O48), and the invariants of requests: the order of the initialization (O47), no
session open on an idle block (O45), and the bitmap source port (O39). -/

namespace Sys2Proof.Machine

/-! ### Reset -/

/-- Settles O1: the state after reset is written out. -/
theorem resetValuesOfTheBlock : Obligations.ResetValuesOfTheBlock :=
  ⟨rfl, rfl, rfl, rfl, rfl, rfl, rfl, rfl, rfl, rfl, rfl, rfl⟩

theorem reset_requestsOnly : State.reset.requestsOnly := fun q hq => absurd hq (by simp [State.reset])

/-- Settles O43: an empty trace stands in no session. -/
theorem sessionShapeHoldsAtReset : Obligations.SessionShapeHoldsAtReset :=
  ⟨reset_requestsOnly, by simp [State.reset], .closed, rfl, by simp [State.reset], fun _ => rfl, by simp [State.reset]⟩

/-- Settles O46: INITIALIZE has not run and nothing is emitted. -/
theorem initializationOrderHoldsAtReset : Obligations.InitializationOrderHoldsAtReset :=
  ⟨reset_requestsOnly, by simp [State.reset], rfl, rfl, rfl⟩

/-- The spec's own geometry is positive and its opcodes are distinct; the delays are not looked at. -/
theorem config_params_wf : Config.params.wf = true := by decide

/-- Settles O48: the panel is at power-on and no request has run. -/
theorem panelIsFineAtReset : Obligations.PanelIsFineAtReset :=
  ⟨config_params_wf, initializationOrderHoldsAtReset, rfl, fun _ _ => rfl, by simp [State.reset], by simp [State.reset]⟩

/-! ### Sessions -/

/-- Settles O45: the invariant O44 keeps says both. -/
theorem openSessionMeansBusy : Obligations.OpenSessionMeansBusy := by
  intro s t hs hstep
  obtain ⟨-, -, q, hq, hcs, hidle, -⟩ := sessionShapeIsKeptByEveryStep s t hs hstep
  refine ⟨fun hopen => ?_, fun hb => hidle hb ▸ hq⟩
  by_contra hb
  exact hcs.mp hopen (hidle (by simpa using hb))

/-! ### The order of the initialization -/

/-- The part of the invariant that speaks of `INIT_STATE`. -/
def State.orderInv (s : State) : Prop :=
  match s.initState with
  | .notRun => s.trace = [] ∧ s.busy = false ∧ s.lines.dir = false
  | .running =>
    s.busy = true ∧ s.req.op = 0 ∧ s.lines.dir = true ∧ s.plan = (initPlan s.params).map .ev ∧ 0 < s.seq ∧
      s.trace = (initPlan s.params).take s.seq
  | .done => s.lines.dir = true ∧ initPlan s.params <+: s.trace ∧ (s.busy = true → s.req.op ≠ 0)

theorem initInv_iff {s : State} :
    s.initInv ↔ s.requestsOnly ∧ (s.busy = true → s.seq < s.plan.length) ∧ s.orderInv := Iff.rfl

theorem orderInv_notRun {s : State} (hi : s.initState = .notRun) :
    s.orderInv ↔ s.trace = [] ∧ s.busy = false ∧ s.lines.dir = false := by
  simp [State.orderInv, hi]

theorem orderInv_running {s : State} (hi : s.initState = .running) :
    s.orderInv ↔ s.busy = true ∧ s.req.op = 0 ∧ s.lines.dir = true ∧ s.plan = (initPlan s.params).map .ev ∧
      0 < s.seq ∧ s.trace = (initPlan s.params).take s.seq := by
  simp [State.orderInv, hi]

theorem orderInv_done {s : State} (hi : s.initState = .done) :
    s.orderInv ↔ s.lines.dir = true ∧ initPlan s.params <+: s.trace ∧ (s.busy = true → s.req.op ≠ 0) := by
  simp [State.orderInv, hi]

/-- Words that are left after one is taken are requests too. -/
theorem State.requestsOnly.tail {s t : State} (h : s.requestsOnly) {q : Presented} {rest : List Presented}
    (hs : s.port = q :: rest) (ht : t.port = rest) : t.requestsOnly := by
  intro x hx
  rw [ht] at hx
  exact h x (by simp [hs, hx])

theorem State.requestsOnly.first {s : State} (h : s.requestsOnly) {q : Presented} {rest : List Presented}
    (hs : s.port = q :: rest) : ¬ ∀ d, q.word ≠ .request d := by
  obtain ⟨d, hd⟩ := h q (by simp [hs])
  exact fun hq => hq d hd

/-- Completion ends a running initialization whose whole script has been sent. -/
theorem orderInv_finish {s : State} (hs : s.orderInv) (hseq : s.plan.length ≤ s.seq) : s.finish.orderInv := by
  cases hi : s.initState with
  | notRun =>
    obtain ⟨htrace, -, hdir⟩ := (orderInv_notRun hi).mp hs
    exact (orderInv_notRun (by simp [hi])).mpr ⟨htrace, rfl, hdir⟩
  | running =>
    obtain ⟨-, -, hdir, hplan, -, htrace⟩ := (orderInv_running hi).mp hs
    rw [hplan, List.length_map] at hseq
    rw [List.take_of_length_le hseq] at htrace
    exact (orderInv_done (by simp [hi])).mpr ⟨hdir, by simp [htrace], by simp⟩
  | done =>
    obtain ⟨hdir, hprefix, -⟩ := (orderInv_done hi).mp hs
    exact (orderInv_done (by simp [hi])).mpr ⟨hdir, hprefix, by simp⟩

/-- The next item of a plan keeps the order: during INITIALIZE it is the next event of the script. -/
theorem orderInv_sent {s u : State} {item : PlanItem} (hs : s.orderInv) (hb : s.busy = true)
    (hitem : s.plan[s.seq]? = some item) (hrun : item.run s = some u) : (u.goto (s.seq + 1)).orderInv := by
  obtain ⟨e, he, htrace, hlines, -, hparams, hinit, hbusy, hreq, hplan, -⟩ := PlanItem.run_spec hrun
  cases hi : s.initState with
  | notRun => simp [((orderInv_notRun hi).mp hs).2.1] at hb
  | running =>
    obtain ⟨-, hop, hdir, hscript, -, hsent⟩ := (orderInv_running hi).mp hs
    have next : (initPlan s.params)[s.seq]? = some e := by
      rw [hscript, List.getElem?_map, Option.map_eq_some_iff] at hitem
      obtain ⟨e', hget, rfl⟩ := hitem
      rw [hget, show e = e' from he]
    refine (orderInv_running (by simp [hinit, hi])).mpr ⟨by simp [hbusy, hb], by simp [hreq, hop], ?_, ?_, ?_, ?_⟩
    · simp [hlines, hdir]
    · simp [hplan, hparams, hscript]
    · simp
    · simp [htrace, hsent, hparams, List.take_add_one, next]
  | done =>
    obtain ⟨hdir, hprefix, hop⟩ := (orderInv_done hi).mp hs
    refine (orderInv_done (by simp [hinit, hi])).mpr ⟨by simp [hlines, hdir], ?_, by simpa [hreq] using fun _ => hop hb⟩
    simpa [htrace, hparams] using hprefix.trans (List.prefix_append _ _)

theorem initInv_settle {s : State} (hr : s.requestsOnly) (hs : s.orderInv) : s.settle.initInv := by
  by_cases hlt : s.seq < s.plan.length
  · rw [State.settle_of_lt hlt]
    exact initInv_iff.mpr ⟨hr, fun _ => hlt, hs⟩
  · rw [State.settle_of_not_lt hlt]
    exact initInv_iff.mpr ⟨hr, by simp, orderInv_finish hs (by omega)⟩

/-- Settles O47: by the ways a step can go; no direct use is presented. -/
theorem initializationOrderIsKeptByEveryStep : Obligations.InitializationOrderIsKeptByEveryStep := by
  intro s t hs hstep
  obtain ⟨hr, hlt, order⟩ := initInv_iff.mp hs
  cases (step_stepped hstep).2 with
  | exhausted hb hitem => exact absurd (hlt hb) (by simpa using hitem)
  | waiting => exact hs
  | sent item u hb hitem hrun =>
    obtain ⟨-, -, -, -, -, -, -, -, -, -, -, -, hport, -⟩ := PlanItem.run_spec hrun
    exact initInv_settle (by simpa [State.requestsOnly, hport] using hr) (orderInv_sent order hb hitem hrun)
  | idle => exact hs
  | emitted q rest es _ hport hq | clipped q rest w _ hport hq => exact absurd hq (hr.first hport)
  | initialization q rest x y w h c _ hport _ hi =>
    obtain ⟨htrace, -, -⟩ := (orderInv_notRun hi).mp order
    obtain ⟨e, es, hplan, -⟩ := initPlan_shape s.params
    refine initInv_iff.mpr ⟨hr.tail hport rfl, fun _ => by simp, ?_⟩
    exact (orderInv_running rfl).mpr ⟨rfl, rfl, rfl, rfl, Nat.one_pos, by simp [htrace, hplan]⟩
  | nothing q rest r _ hport hi hop =>
    obtain ⟨hdir, hprefix, -⟩ := (orderInv_done hi).mp order
    exact initInv_settle (hr.tail hport rfl) ((orderInv_done (by exact hi)).mpr ⟨hdir, hprefix, fun _ => hop⟩)
  | draw q rest r px x y w h _ hport _ hi hop =>
    obtain ⟨hdir, hprefix, -⟩ := (orderInv_done hi).mp order
    refine initInv_iff.mpr ⟨hr.tail hport rfl, fun _ => by simp [streamPlan_length]; omega, ?_⟩
    exact (orderInv_done (by exact hi)).mpr ⟨hdir, hprefix.trans (List.prefix_append _ _), fun _ => hop⟩

/-! ### The source port -/

/-- The only items of a drawing plan that read an entry are those of a bitmap's pixels. -/
theorem bitmapHigh_mem_repeatItems {n : Nat} {px : List PlanItem} (h : .bitmapHigh ∈ repeatItems n px) :
    .bitmapHigh ∈ px := by
  induction n with
  | zero => simp [repeatItems] at h
  | succ n ih => exact (List.mem_append.mp h).elim id ih

theorem bitmapHigh_mem_streamPlan {p : Params} {x y w h : Coord} {px : List PlanItem}
    (hmem : .bitmapHigh ∈ streamPlan p x y w h px) : .bitmapHigh ∈ px := by
  refine bitmapHigh_mem_repeatItems (n := pixelCount w h) ?_
  simpa [streamPlan] using hmem

/-- The plan of a request that draws reads entries only where the request is a DRAW_BITMAP. -/
theorem op_of_bitmapHigh_mem {p : Params} {x y w h : Coord} {px : List PlanItem} {r : ReqRegs}
    (hpx : (∃ c, px = fillPixel c) ∨ px = bitmapPixel ∧ r.op = 0x3)
    (hmem : .bitmapHigh ∈ streamPlan p x y w h px) : r.op = 0x3 := by
  rcases hpx with ⟨c, rfl⟩ | ⟨-, hop⟩
  · simpa [fillPixel] using bitmapHigh_mem_streamPlan hmem
  · exact hop

theorem sourceInv_of_idle {s : State} (hb : s.busy = false) : s.sourceInv := fun h => by simp [hb] at h

/-- Every step keeps the invariant of the source port. -/
theorem Stepped.sourceInv {s t : State} (h : Stepped s t) (hs : s.sourceInv) : t.sourceInv := by
  cases h with
  | exhausted => exact sourceInv_of_idle rfl
  | waiting => exact hs
  | sent item u hb _ hrun =>
    obtain ⟨e, -, -, -, -, -, -, -, hreq, hplan, -⟩ := PlanItem.run_spec hrun
    intro _ hmem
    simpa [hreq] using hs hb (by simpa [hplan] using hmem)
  | idle => exact hs
  | emitted _ _ _ hb => exact sourceInv_of_idle (by simpa using hb)
  | clipped _ _ _ hb => exact sourceInv_of_idle hb
  | initialization => exact fun _ hmem => by simp at hmem
  | nothing => exact sourceInv_of_idle (by simp [State.load, State.settle_busy])
  | draw _ _ r px _ _ _ _ _ _ hpx => exact fun _ hmem => op_of_bitmapHigh_mem hpx hmem

/-- `SRC_REQ` is 1 while a busy block's next item reads an entry, and `SRC_IDX` is the entry due (R34). -/
theorem srcRequest_eq_some {s : State} {k : Nat} :
    s.srcRequest = some k ↔ s.busy = true ∧ s.plan[s.seq]? = some .bitmapHigh ∧ k = s.entryIndex := by
  simp [State.srcRequest, and_assoc, eq_comm (a := k)]

/-- R65: with no answer the block waits. -/
theorem step_waits {s : State} (hf : s.fault = none) (hb : s.busy = true) (hitem : s.plan[s.seq]? = some .bitmapHigh)
    (hread : s.memRead s.entryIndex = none) : step s = .next s := by
  simp [step_busy hf hb, advance, hitem, PlanItem.run, hread]

/-- R171: with an answer the block sends the entry's high byte and keeps the entry. -/
theorem step_reads {s : State} {v : Pixel} (hf : s.fault = none) (hb : s.busy = true)
    (hitem : s.plan[s.seq]? = some .bitmapHigh) (hread : s.memRead s.entryIndex = some v) :
    ∃ u, step s = .next u ∧ u.trace = s.trace ++ [.byte (hi8 v)] ∧ u.pix = v := by
  have hrun : PlanItem.run s .bitmapHigh = some { s.emit (.byte (hi8 v)) with pix := v } := by
    simp [PlanItem.run, hread]
  exact ⟨_, step_item hf hb hitem hrun, by simp, by simp⟩

/-- Settles O39: the next state has no recorded fault, so what it does next is what its next item does. -/
theorem sourcePortAsksForTheNextEntry : Obligations.SourcePortAsksForTheNextEntry := by
  refine ⟨sourceInv_of_idle rfl, fun s t hs hstep => ?_⟩
  have ht : t.sourceInv := (step_stepped hstep).2.sourceInv hs
  obtain ⟨-, -, -, -, -, hf⟩ := stepOnlyAppendsToTheTrace s t hstep
  refine ⟨ht, fun k hk => ?_⟩
  obtain ⟨hb, hitem, rfl⟩ := srcRequest_eq_some.mp hk
  have answer : t.srcAnswer = t.memRead t.entryIndex := by simp [State.srcAnswer, hk]
  rw [answer]
  exact ⟨hb, ht hb (List.mem_of_getElem? hitem), rfl, rfl, step_waits hf hb hitem, fun v => step_reads hf hb hitem⟩

end Sys2Proof.Machine

/-! PROOFS. The single step: a recorded fault (O38), the instruction a word decodes to (O34), the next item of a plan (O35), an
entry that never comes (O31), and acceptance (O24). -/

namespace Sys2Proof.Machine

/-! ### A recorded fault -/

/-- The result keeps the recorded fault `f`: a next state still records it, and a fault it answers is `f`. -/
def keepsFault (f : Fault) : Result → Prop
  | .next t => t.fault = some f
  | .fault g => g = f
  | .refused _ => True

theorem keepsFault.andThen {f : Fault} {r : Result} {k : State → Result} (hr : keepsFault f r)
    (hk : ∀ u, u.fault = some f → keepsFault f (k u)) : keepsFault f (thenDo r k) := by
  cases r with
  | next u => exact hk u hr
  | fault g => exact hr
  | refused q => trivial

theorem keepsFault_ite {f : Fault} {c : Prop} [Decidable c] {a b : Result} (ha : keepsFault f a) (hb : keepsFault f b) :
    keepsFault f (if c then a else b) := by
  split
  · exact ha
  · exact hb

section
variable {f : Fault} {s : State} (h : s.fault = some f)
include h

theorem keepsFault_raise (g : Fault) : keepsFault f (raise g s) := by
  simp [raise_eq, h, keepsFault]

theorem keepsFault_emitAll (es : List Event) : keepsFault f (.next (State.emitAll es s)) := by
  simp [keepsFault, h]

theorem keepsFault_load {plan : List PlanItem} {v : State} (hv : v.fault = s.fault) :
    keepsFault f (.next (State.load plan v)) := by
  simp [keepsFault, State.load, hv, h]

theorem keepsFault_whenReady {r : Result} (hr : keepsFault f r) : keepsFault f (whenReady s r) := keepsFault_ite h hr

theorem keepsFault_selectOp : keepsFault f (selectOp s) :=
  keepsFault_ite (keepsFault_raise h _) (keepsFault_emitAll h [.sel])

theorem keepsFault_deselectOp : keepsFault f (deselectOp s) :=
  keepsFault_ite (keepsFault_emitAll h [.desel]) (keepsFault_raise h _)

theorem keepsFault_setFraming (m : Framing) : keepsFault f (setFraming m s) :=
  keepsFault_ite (keepsFault_raise h _) (keepsFault_emitAll h [.frm m])

theorem keepsFault_writeOp (bs : List Byte) : keepsFault f (writeOp bs s) :=
  keepsFault_ite (keepsFault_raise h _) (keepsFault_emitAll h _)

theorem keepsFault_sendCmdOp (b : Byte) : keepsFault f (sendCmdOp b s) :=
  (keepsFault_selectOp h).andThen fun _ h => (keepsFault_setFraming h _).andThen fun _ h =>
    (keepsFault_writeOp h _).andThen fun _ h => keepsFault_deselectOp h

theorem keepsFault_sendDataOp (bs : List Byte) : keepsFault f (sendDataOp bs s) :=
  (keepsFault_selectOp h).andThen fun _ h => (keepsFault_setFraming h _).andThen fun _ h =>
    (keepsFault_writeOp h _).andThen fun _ h => keepsFault_deselectOp h

/-- A command and its parameters. -/
theorem keepsFault_command (b : Byte) (bs : List Byte) : keepsFault f (thenDo (sendCmdOp b s) (sendDataOp bs)) :=
  (keepsFault_sendCmdOp h b).andThen fun _ h => keepsFault_sendDataOp h bs

theorem keepsFault_setWindow (x0 y0 x1 y1 : Coord) : keepsFault f (execSetWindow x0 y0 x1 y1 s) :=
  keepsFault_ite
    ((keepsFault_sendCmdOp h _).andThen fun _ h => (keepsFault_sendDataOp h _).andThen fun _ h =>
      (keepsFault_sendCmdOp h _).andThen fun _ h => (keepsFault_sendDataOp h _).andThen fun _ h =>
        keepsFault_sendCmdOp h _)
    (keepsFault_raise h _)

theorem keepsFault_clip (x y w hh : Coord) : keepsFault f (execClip x y w hh s) := by
  unfold execClip
  split <;> exact h

theorem keepsFault_startDrawing (px : List PlanItem) : keepsFault f (startDrawing px s) := by
  refine keepsFault_ite (keepsFault_raise h _) ?_
  split
  · exact keepsFault_load h rfl
  · exact keepsFault_ite (keepsFault_raise h _) (keepsFault_load h rfl)

/-- R31, R203: no instruction replaces the recorded fault. -/
theorem keepsFault_exec (i : Instr) : keepsFault f (exec i s) := by
  cases i with
  | select => exact keepsFault_selectOp h
  | deselect => exact keepsFault_deselectOp h
  | setCmdFraming | setDataFraming => exact keepsFault_setFraming h _
  | write bs => exact keepsFault_writeOp h bs
  | sleepMs d => exact keepsFault_emitAll h [.sleep d]
  | cfgOut => exact keepsFault_emitAll h [.cfgOut]
  | rstSet l => exact keepsFault_emitAll h [.rst l]
  | blEnable => exact keepsFault_emitAll h [.bl]
  | sendCmd | slpout | dispon | ramwr => exact keepsFault_sendCmdOp h _
  | sendData bs => exact keepsFault_sendDataOp h bs
  | caset | raset | madctl | colmod => exact keepsFault_command h _ _
  | setWindow x0 y0 x1 y1 => exact keepsFault_setWindow h x0 y0 x1 y1
  | clip x y w hh => exact keepsFault_clip h x y w hh
  | initPanel => exact keepsFault_whenReady h (keepsFault_ite (keepsFault_raise h _) (keepsFault_load h rfl))
  | fillRect | fillScreen | drawBitmap => exact keepsFault_whenReady h (keepsFault_startDrawing (by exact h) _)

end

theorem step_of_fault {s : State} {f : Fault} (h : s.fault = some f) : step s = .fault f := by
  simp [step, h]

/-- Settles O38: the step looks at the fault first, and no instruction replaces it. -/
theorem recordedFaultEndsTheRun : Obligations.RecordedFaultEndsTheRun := by
  intro s f h
  refine ⟨step_of_fault h, fun k => by rw [runFor_succ, step_of_fault h, thenDo_fault], fun i g hg => ?_⟩
  have kept := keepsFault_exec h i
  rwa [hg] at kept

/-! ### The step of an idle block -/

/-- R33: an idle block takes the first presented word, runs the instruction it decodes to, and sends the first event of a
request it has accepted. -/
theorem step_presented {s : State} {q : Presented} {rest : List Presented} {i : Instr} (hf : s.fault = none)
    (hb : s.busy = false) (hport : s.port = q :: rest) (hdec : decode s.params q.word = .ok i) :
    step s = thenDo (exec i (s.take q rest)) firstEvent := by
  simp [step, hf, hb, hport, hdec]

/-- Settles O34: the taken word and the first event are written out. -/
theorem stepRunsTheDecodedInstruction : Obligations.StepRunsTheDecodedInstruction := by
  intro s q rest i hf hb hport hdec
  exact step_presented hf hb hport hdec

/-! ### The next item of a plan -/

/-- The event of a plan item in state `s`. -/
def PlanItem.event (s : State) : PlanItem → Event
  | .ev e => e
  | .openStream _ => .sel
  | .fillLow b => .byte b
  | .bitmapHigh => .byte (hi8 ((s.memRead s.entryIndex).getD 0))
  | .bitmapLow => .byte (lo8 s.pix)

/-- The working registers after a plan item. -/
def PlanItem.workAfter (s : State) : PlanItem → WorkRegs
  | .ev _ => s.work
  | .openStream n => s.work.streamStart n
  | .fillLow _ => s.work.pixelSent
  | .bitmapHigh => s.work
  | .bitmapLow => s.work.pixelSent

/-- The pixel latch after a plan item. -/
def PlanItem.pixAfter (s : State) : PlanItem → Pixel
  | .bitmapHigh => (s.memRead s.entryIndex).getD 0
  | .ev _ => s.pix
  | .openStream _ => s.pix
  | .fillLow _ => s.pix
  | .bitmapLow => s.pix

/-- An item that does not wait for the source emits its event and moves the registers of the stream; nothing else. -/
theorem PlanItem.run_eq {s : State} {item : PlanItem} (h : item = .bitmapHigh → s.memRead s.entryIndex ≠ none) :
    item.run s = some ((s.emit (item.event s)).withStream (item.workAfter s) (item.pixAfter s)) := by
  cases item with
  | ev e => rfl
  | openStream n => rfl
  | fillLow b => rfl
  | bitmapLow => rfl
  | bitmapHigh =>
    obtain ⟨v, hv⟩ := Option.ne_none_iff_exists'.mp (h rfl)
    simp only [PlanItem.run, PlanItem.event, PlanItem.workAfter, PlanItem.pixAfter, hv, Option.getD_some]
    rfl

/-- Settles O35: one item is run, `SEQ` moves on, and completion is tested. -/
theorem busyStepEmitsTheNextEvent : Obligations.BusyStepEmitsTheNextEvent := by
  intro s item hf hb hitem hanswer
  refine ⟨_, item.event s, step_item hf hb hitem (PlanItem.run_eq hanswer), by simp, by simp, by simp, ?_, by simp,
    by simp, by simp, by simp, by simp, by simp, by simpa using hf, ?_, ?_, ?_, ?_, ?_⟩
  · rw [State.settle_busy, Bool.and_eq_true, decide_eq_true_iff]
    simp [hb]
  · rintro e rfl
    simp [PlanItem.event, PlanItem.workAfter, PlanItem.pixAfter]
  · rintro n rfl
    simp [PlanItem.event, PlanItem.workAfter, PlanItem.pixAfter, WorkRegs.streamStart]
  · rintro b rfl
    simp [PlanItem.event, PlanItem.workAfter, PlanItem.pixAfter, WorkRegs.pixelSent]
  · rintro v rfl hread
    have hread : s.memRead s.entryIndex = some v := hread
    simp [PlanItem.event, PlanItem.workAfter, PlanItem.pixAfter, hread]
  · rintro rfl
    simp [PlanItem.event, PlanItem.workAfter, PlanItem.pixAfter, WorkRegs.pixelSent]

/-! ### An entry that never comes -/

/-- A state that its step leaves as it is stays for ever. -/
theorem runFor_of_fixed {s : State} (h : step s = .next s) (k : Nat) : runFor k s = .next s := by
  induction k with
  | zero => exact runFor_zero s
  | succ k ih => rw [runFor_succ, h, thenDo_next, ih]

/-- Settles O31: the step of a waiting block changes nothing. -/
theorem missingEntryLeavesTheBlockStuck : Obligations.MissingEntryLeavesTheBlockStuck :=
  fun _ k hf hb hitem hread => runFor_of_fixed (step_waits hf hb hitem hread) k

/-! ### Acceptance -/

theorem nothingEmitted_load {s v : State} {plan : List PlanItem} (h : nothingEmitted s v) :
    nothingEmitted s (State.load plan v) := by
  simpa [nothingEmitted, State.load] using h

/-- An initialized block with no session open accepts any operands, also those of a request that draws nothing. -/
theorem startDrawing_accepts (px : List PlanItem) (r : ReqRegs) {s : State} (hi : s.initState = .done)
    (hcs : s.lines.csSel = false) :
    ∃ t, startDrawing px (s.latch r) = .next t ∧ nothingEmitted s t ∧ t.req = r := by
  unfold startDrawing
  rw [if_neg (by simp [hi])]
  split
  · exact ⟨_, rfl, nothingEmitted_load (by simp [nothingEmitted]), by simp [State.load]⟩
  · rw [if_neg (by simp [hcs])]
    exact ⟨_, rfl, nothingEmitted_load (by simp [nothingEmitted]), by simp [State.load]⟩

theorem whenReady_of_idle {s : State} (hb : s.busy = false) (r : Result) : whenReady s r = r := by
  simp [whenReady, hb]

/-- Settles O24: the three drawing requests differ in the operands they latch. -/
theorem acceptanceLatchesTheDescriptor : Obligations.AcceptanceLatchesTheDescriptor := by
  intro s x y w h c hb hi hcs
  simp only [exec, execFillRect, execFillScreen, execDrawBitmap, whenReady_of_idle hb]
  exact ⟨startDrawing_accepts _ _ hi hcs, startDrawing_accepts _ _ hi hcs, startDrawing_accepts _ _ hi hcs⟩

end Sys2Proof.Machine

/-! PROOFS. Whole runs of a drawing request from the step that takes it: one that sends its whole plan, and so a list of them
(O60), and one whose source is too short (O32). -/

namespace Sys2Proof.Machine

/-! ### The words of two requests -/

theorem decode_encode_initPanel (p : Params) (x y w h : Coord) (c : Pixel) :
    decode p (encode p (.initPanel x y w h c)) = .ok (.initPanel x y w h c) := by
  simp [encode, decode, decodeRequest, Descriptor.make_fields]

theorem decode_encode_drawBitmap (p : Params) (x y w h : Coord) (c : Pixel) :
    decode p (encode p (.drawBitmap x y w h c)) = .ok (.drawBitmap x y w h c) := by
  simp [encode, decode, decodeRequest, Descriptor.make_fields]

/-! ### An accepted request -/

/-- The block at the start of a plan (R27). -/
def State.started (plan : List PlanItem) (s : State) : State := State.goto 0 { s with busy := true, plan := plan }

@[simp] theorem State.started_params (plan : List PlanItem) (s : State) : (s.started plan).params = s.params := rfl
@[simp] theorem State.started_initState (plan : List PlanItem) (s : State) :
    (s.started plan).initState = s.initState := rfl
@[simp] theorem State.started_lines (plan : List PlanItem) (s : State) : (s.started plan).lines = s.lines := rfl
@[simp] theorem State.started_busy (plan : List PlanItem) (s : State) : (s.started plan).busy = true := rfl
@[simp] theorem State.started_req (plan : List PlanItem) (s : State) : (s.started plan).req = s.req := rfl
@[simp] theorem State.started_work (plan : List PlanItem) (s : State) : (s.started plan).work = s.work := rfl
@[simp] theorem State.started_plan (plan : List PlanItem) (s : State) : (s.started plan).plan = plan := rfl
@[simp] theorem State.started_seq (plan : List PlanItem) (s : State) : (s.started plan).seq = 0 := rfl
@[simp] theorem State.started_trace (plan : List PlanItem) (s : State) : (s.started plan).trace = s.trace := rfl
@[simp] theorem State.started_fault (plan : List PlanItem) (s : State) : (s.started plan).fault = s.fault := rfl
@[simp] theorem State.started_port (plan : List PlanItem) (s : State) : (s.started plan).port = s.port := rfl
@[simp] theorem State.started_src (plan : List PlanItem) (s : State) : (s.started plan).src = s.src := rfl

/-- A plan that is not empty is started by acceptance, an empty one is complete. -/
theorem load_started {plan : List PlanItem} (h : plan ≠ []) (s : State) : State.load plan s = s.started plan :=
  State.settle_of_lt (List.length_pos_iff.mpr h)

/-- The step that accepts a request is the first step of its plan. -/
theorem runFor_started {s v : State} {plan : List PlanItem} (hne : plan ≠ [])
    (hstep : step s = firstEvent (State.load plan v)) (hf : v.fault = none) (k : Nat) :
    runFor (k + 1) s = runFor (k + 1) (v.started plan) := by
  rw [runFor_succ, runFor_succ, hstep, load_started hne, step_busy (s := v.started plan) hf rfl]
  rfl

/-- A request whose whole plan can run ends in one step for each item. -/
theorem runFor_accepted {s v t : State} {plan : List PlanItem} (hne : plan ≠ [])
    (hstep : step s = firstEvent (State.load plan v)) (hf : v.fault = none)
    (hrun : runItems plan (v.started plan) = some t) :
    runFor plan.length s = .next (t.goto plan.length).finish := by
  obtain ⟨k, hk⟩ : ∃ k, plan.length = k + 1 := Nat.exists_eq_succ_of_ne_zero (by simpa using hne)
  rw [hk, runFor_started hne hstep hf, ← hk]
  exact run_to_end (s := v.started plan) hf rfl rfl hne hrun

/-! ### Sending a drawing plan -/

/-- An accepted request that draws `w` by `h` pixels at `(x, y)`, before its first event. -/
def State.drawing (x y w h : Coord) (px : List PlanItem) (s : State) : State :=
  State.started (streamPlan s.params x y w h px) { s with work := s.work.clipped x y w h }

theorem streamPlan_ne_nil (p : Params) (x y w h : Coord) (px : List PlanItem) : streamPlan p x y w h px ≠ [] := by
  simp [streamPlan]

theorem startDrawing_nothing {s : State} {px : List PlanItem} (hi : s.initState = .done)
    (hc : clip s.params s.req.rx s.req.ry s.req.rw s.req.rh = .nothing) : startDrawing px s = .next (s.load []) := by
  simp [startDrawing, hi, hc]

theorem startDrawing_window {s : State} {px : List PlanItem} {x y w h : Coord} (hi : s.initState = .done)
    (hcs : s.lines.csSel = false) (hc : clip s.params s.req.rx s.req.ry s.req.rw s.req.rh = .window x y w h) :
    startDrawing px s =
      .next (State.load (streamPlan s.params x y w h px) { s with work := s.work.clipped x y w h }) := by
  simp [startDrawing, hi, hcs, hc]

/-- In every state with the parameters, the source and the operands of `s` that stands at the start of a pixel session of
width `w`, `n` pixels are sent as the bytes `bs`. -/
def sendsPixels (px : List PlanItem) (n : Nat) (w : Coord) (s : State) (bs : List Byte) : Prop :=
  ∀ u : State, u.params = s.params → u.src = s.src → u.req = s.req → u.work.weff = w → u.work.sidx = 0 →
    ∃ q, runItems (repeatItems n px) u =
      some ((State.emitAll (bs.map .byte) u).withStream (u.work.afterPixels n) q)

theorem sendsPixels_fill (c : Pixel) (n : Nat) (w : Coord) (s : State) :
    sendsPixels (fillPixel c) n w s (rep n (pixelBytes c)) :=
  fun u _ _ _ _ _ => ⟨u.pix, runItems_fill c n u⟩

theorem sendsPixels_bitmap {n : Nat} {w : Coord} {s : State} (hn : n < 2 ^ 32)
    (hsrc : ∀ j < n, bitmapIndex s.params.clipMode w s.req.rw j < s.src.length) :
    sendsPixels bitmapPixel n w s
      ((List.range n).flatMap fun j => pixelBytes (s.src.getD (bitmapIndex s.params.clipMode w s.req.rw j) 0)) := by
  intro u hparams husrc hreq hw hs
  refine runItems_bitmap n _ u (by simpa [hs] using hn) fun j hj => ?_
  simp [hs, hparams, husrc, hreq, hw, List.getElem?_eq_getElem (hsrc j hj)]

/-- A request that draws, from the step that takes it to its end: its window sequence and its pixel session are sent. -/
theorem runFor_drawing {s v : State} {px : List PlanItem} {x y w h : Coord} {bs : List Byte}
    (hstep : step s = thenDo (startDrawing px v) firstEvent) (hf : v.fault = none) (hi : v.initState = .done)
    (hcs : v.lines.csSel = false) (hc : clip v.params v.req.rx v.req.ry v.req.rw v.req.rh = .window x y w h)
    (hpx : sendsPixels px (pixelCount w h) w v bs) :
    ∃ q, runFor (streamPlan v.params x y w h px).length s =
      .next (State.goto (streamPlan v.params x y w h px).length
        ((State.emitAll (windowPlan v.params x y (x + w - 1) (y + h - 1) ++ dataSession bs)
          (v.drawing x y w h px)).withStream
            { v.work.clipped x y w h with rem := 0, sidx := BitVec.ofNat 32 (pixelCount w h) } q)).finish := by
  rw [startDrawing_window hi hcs hc, thenDo_next] at hstep
  obtain ⟨q, hq⟩ := hpx ((State.emitAll (windowPlan v.params x y (x + w - 1) (y + h - 1) ++ [.sel, .frm .D])
    (v.drawing x y w h px)).withStream
      ((v.work.clipped x y w h).streamStart (BitVec.ofNat 32 (pixelCount w h))) v.pix)
    (by simp [State.drawing]) (by simp [State.drawing]) (by simp [State.drawing]) rfl rfl
  exact ⟨q, runFor_accepted (streamPlan_ne_nil _ _ _ _ _ _) hstep hf
    (runItems_stream v.params x y w h px bs (v.drawing x y w h px) _ q rfl hq)⟩

/-! ### A list of requests -/

/-- An initialized block between two requests: no session is open, nothing is pending, and the words `qs` are presented. -/
structure State.awaits (qs : List Presented) (s : State) : Prop where
  fault : s.fault = none
  busy : s.busy = false
  initState : s.initState = .done
  csSel : s.lines.csSel = false
  seq : s.seq = s.plan.length
  port : s.port = qs

/-- Some number of steps from `s` sends the events `es` and leaves the block waiting for `qs`, under the same parameters. -/
def State.runsTo (es : List Event) (qs : List Presented) (s : State) : Prop :=
  ∃ k t, runFor k s = .next t ∧ t.awaits qs ∧ t.params = s.params ∧ t.trace = s.trace ++ es

theorem runsTo_nil {s : State} {qs : List Presented} (h : s.awaits qs) : s.runsTo [] qs :=
  ⟨0, s, runFor_zero s, h, rfl, by simp⟩

/-- Runs are joined. -/
theorem State.runsTo.trans {s : State} {as bs : List Event} {qs rs : List Presented} (h : s.runsTo as qs)
    (hnext : ∀ t : State, t.awaits qs → t.params = s.params → t.runsTo bs rs) : s.runsTo (as ++ bs) rs := by
  obtain ⟨j, t, hj, ht, hparams, htrace⟩ := h
  obtain ⟨k, u, hk, hu, hparams', htrace'⟩ := hnext t ht hparams
  exact ⟨j + k, u, by rw [runFor_add, hj, thenDo_next, hk], hu, hparams'.trans hparams, by simp [htrace', htrace]⟩

/-- The events of a drawing request on the operands in the registers of `s`, whose pixels are sent by the items `px`. -/
def drawsEvents (px : List PlanItem) (s : State) (es : List Event) : Prop :=
  match clip s.params s.req.rx s.req.ry s.req.rw s.req.rh with
  | .nothing => es = []
  | .window x y w h => ∃ bs, sendsPixels px (pixelCount w h) w s bs ∧
      es = windowPlan s.params x y (x + w - 1) (y + h - 1) ++ dataSession bs

theorem drawsEvents_fill (c : Pixel) (s : State) :
    drawsEvents (fillPixel c) s (fillTrace s.params s.req.rx s.req.ry s.req.rw s.req.rh c) := by
  unfold drawsEvents fillTrace
  cases clip s.params s.req.rx s.req.ry s.req.rw s.req.rh with
  | nothing => rfl
  | window x y w h => exact ⟨_, sendsPixels_fill c _ w s, rfl⟩

theorem drawsEvents_bitmap {s : State}
    (hsrc : sourceSuffices s.params s.req.rx s.req.ry s.req.rw s.req.rh s.src) :
    drawsEvents bitmapPixel s (bitmapTrace s.params s.req.rx s.req.ry s.req.rw s.req.rh s.src) := by
  unfold drawsEvents bitmapTrace
  unfold sourceSuffices at hsrc
  cases hc : clip s.params s.req.rx s.req.ry s.req.rw s.req.rh with
  | nothing => rfl
  | window x y w h =>
    rw [hc] at hsrc
    refine ⟨_, sendsPixels_bitmap (pixelCount_lt w h) fun j hj => hsrc _ ?_, ?_⟩
    · exact List.mem_map_of_mem (List.mem_range.mpr hj)
    · simp [entriesRead, List.flatMap_map, pixelCount]

/-- A drawing request taken by a block between two requests runs to its end. -/
theorem drawing_runsTo {s : State} {q : Presented} {rest : List Presented} {r : ReqRegs} {px : List PlanItem}
    {es : List Event} (hs : s.awaits (q :: rest))
    (hstep : step s = thenDo (startDrawing px ((s.take q rest).latch r)) firstEvent)
    (hes : drawsEvents px ((s.take q rest).latch r) es) : s.runsTo es rest := by
  unfold drawsEvents at hes
  split at hes
  · next hc =>
    rw [startDrawing_nothing (by simpa using hs.initState) hc, thenDo_next, firstEvent_load_nil] at hstep
    refine ⟨1, _, by rw [← Nat.zero_add 1, runFor_succ, hstep, thenDo_next, runFor_zero], ⟨?_, ?_, ?_, ?_, ?_, ?_⟩, ?_, ?_⟩
      <;> simp [State.load, State.settle_busy, State.settle_initState, hs.fault, hs.initState, hs.csSel, hes]
  · next x y w h hc =>
    obtain ⟨bs, hpx, rfl⟩ := hes
    obtain ⟨p, hp⟩ := runFor_drawing hstep (by simpa using hs.fault) (by simpa using hs.initState)
      (by simpa using hs.csSel) hc hpx
    refine ⟨_, _, hp, ⟨?_, ?_, ?_, ?_, ?_, ?_⟩, ?_, ?_⟩ <;>
      simp [State.drawing, hs.fault, hs.initState, afterAll_append, windowPlan_lines, dataSession_lines]

/-- A drawable word is one of the three drawing requests, and a DRAW_BITMAP's source suffices. -/
theorem drawable_cases {p : Params} {q : Presented} (h : drawable p q) :
    (∃ x y w hh c, decode p q.word = .ok (.fillRect x y w hh c)) ∨
      (∃ x y w hh c, decode p q.word = .ok (.fillScreen x y w hh c)) ∨
      ∃ x y w hh c, decode p q.word = .ok (.drawBitmap x y w hh c) ∧ sourceSuffices p x y w hh q.src := by
  unfold drawable at h
  split at h
  · next hd => exact .inl ⟨_, _, _, _, _, hd⟩
  · next hd => exact .inr (.inl ⟨_, _, _, _, _, hd⟩)
  · next hd => exact .inr (.inr ⟨_, _, _, _, _, hd, h⟩)
  · exact h.elim

/-- One drawable word taken by a block between two requests is executed to its end. -/
theorem drawable_runsTo {s : State} {q : Presented} {rest : List Presented} (hs : s.awaits (q :: rest))
    (hq : drawable s.params q) : s.runsTo (requestTrace s.params q) rest := by
  have ready (r : Result) : whenReady (s.take q rest) r = r := whenReady_of_idle (by simpa using hs.busy) r
  have presented {i : Instr} (hd : decode s.params q.word = .ok i) := step_presented hs.fault hs.busy hs.port hd
  unfold requestTrace
  rcases drawable_cases hq with ⟨x, y, w, h, c, hd⟩ | ⟨x, y, w, h, c, hd⟩ | ⟨x, y, w, h, c, hd, hsrc⟩ <;>
    have hstep := presented hd
  · simp only [exec, execFillRect, ready] at hstep
    simp only [hd]
    exact drawing_runsTo hs hstep (drawsEvents_fill c _)
  · simp only [exec, execFillScreen, ready] at hstep
    simp only [hd]
    exact drawing_runsTo hs hstep (drawsEvents_fill c _)
  · simp only [exec, execDrawBitmap, ready] at hstep
    simp only [hd]
    exact drawing_runsTo hs hstep (drawsEvents_bitmap hsrc)

/-- Drawable words are executed in the order presented. -/
theorem drawables_runTo {s : State} {qs : List Presented} (hs : s.awaits qs) (hqs : ∀ q ∈ qs, drawable s.params q) :
    s.runsTo (qs.flatMap (requestTrace s.params)) [] := by
  induction qs generalizing s with
  | nil => exact runsTo_nil hs
  | cons q qs ih =>
    refine (drawable_runsTo hs (hqs q (by simp))).trans fun t ht hparams => ?_
    rw [← hparams] at hqs ⊢
    exact ih ht fun q' hq' => hqs q' (by simp [hq'])

/-- INITIALIZE taken by a block after power-on runs to the end of its script. -/
theorem initPanel_runsTo {s : State} {x y w h : Coord} {c : Pixel} {src : List Pixel} {rest : List Presented}
    (hp : s.presents (.initPanel x y w h c) src rest) (hi : s.initState = .notRun) :
    s.runsTo (initPlan s.params) rest := by
  obtain ⟨hf, hb, hport⟩ := hp
  have hstep := step_presented hf hb hport (decode_encode_initPanel s.params x y w h c)
  rw [exec, execInitPanel, whenReady_of_idle (by simpa using hb), if_neg (by simp [hi]), thenDo_next] at hstep
  have hne : (initPlan s.params).map PlanItem.ev ≠ [] := by
    rw [← List.length_pos_iff]
    simp
  refine ⟨_, _, runFor_accepted hne hstep (by simpa using hf) (runItems_ev _ _), ⟨?_, ?_, ?_, ?_, ?_, ?_⟩, ?_, ?_⟩ <;>
    simp [hf, initPlan_lines]

/-- INITIALIZE and the drawable words after it. -/
theorem program_runsTo {s : State} {x y w h : Coord} {c : Pixel} {src : List Pixel} {qs : List Presented}
    (hp : s.presents (.initPanel x y w h c) src qs) (hi : s.initState = .notRun) (hqs : ∀ q ∈ qs, drawable s.params q) :
    s.runsTo (initPlan s.params ++ qs.flatMap (requestTrace s.params)) [] := by
  refine (initPanel_runsTo hp hi).trans fun t ht hparams => ?_
  rw [← hparams] at hqs ⊢
  exact drawables_runTo ht hqs

theorem State.awaits.final {s : State} (h : s.awaits []) : s.final := ⟨h.busy, h.csSel, h.seq, h.port, h.fault⟩

/-- Settles O60: the state after power-on presents INITIALIZE and has an empty trace. -/
theorem runOverRequestsEnds : Obligations.RunOverRequestsEnds := by
  intro p x y w h c src qs _ hqs
  obtain ⟨k, t, hk, ht, -, htrace⟩ := program_runsTo (s := { State.reset with
    params := p, port := { word := encode p (.initPanel x y w h c), src := src } :: qs }) ⟨rfl, rfl, rfl⟩ rfl hqs
  exact ⟨k, t, hk, ht.final, ht.initState, htrace⟩

/-! ### A source that is too short -/

/-- Where the width is not truncated both clip modes take the entries in order. -/
theorem bitmapIndex_whole (mode : ClipMode) (w : Coord) (i : Nat) : bitmapIndex mode w w i = i := by
  cases mode with
  | fromFront => rfl
  | strided => exact Nat.div_add_mod' i w.toNat

/-- A two by two rectangle inside the panel is not truncated. -/
theorem clip_two_by_two {p : Params} {x y : Coord} (hx : x.toNat + 2 ≤ p.width.toNat)
    (hy : y.toNat + 2 ≤ p.height.toNat) : clip p x y 2 2 = .window x y 2 2 := by
  have two : (2 : Coord).toNat = 2 := rfl
  rw [clip_eq, if_neg (by omega), clipExtent, clipExtent, if_neg (by omega), if_neg (by omega)]

/-- A two by two bitmap's plan up to the fourth entry. -/
def threeEntries (p : Params) (x y : Coord) : List PlanItem :=
  (windowPlan p x y (x + 1) (y + 1)).map .ev ++ [.openStream 4, .ev (.frm .D)] ++ repeatItems 3 bitmapPixel

theorem threeEntries_length (p : Params) (x y : Coord) : (threeEntries p x y).length = 34 := by
  simp [threeEntries, bitmapPixel]

theorem streamPlan_two_by_two (p : Params) (x y : Coord) :
    streamPlan p x y 2 2 bitmapPixel = threeEntries p x y ++ [.bitmapHigh, .bitmapLow, .ev .desel] := by
  have last (v : Coord) : v + 2 - 1 = v + 1 := by bv_omega
  simp only [streamPlan, last]
  simp [threeEntries, pixelCount, repeatItems, bitmapPixel]

/-- A request that draws, from the step that takes it, sends a part of its plan that can run and then stands at the next
item. -/
theorem runFor_drawing_part {s v t : State} {px items more : List PlanItem} {item : PlanItem} {x y w h : Coord}
    (hstep : step s = thenDo (startDrawing px v) firstEvent) (hf : v.fault = none) (hi : v.initState = .done)
    (hcs : v.lines.csSel = false) (hc : clip v.params v.req.rx v.req.ry v.req.rw v.req.rh = .window x y w h)
    (hplan : streamPlan v.params x y w h px = items ++ item :: more) (hitems : items ≠ [])
    (hrun : runItems items (v.drawing x y w h px) = some t) :
    ∃ u : State, runFor items.length s = .next u ∧ u = t.goto items.length ∧ u.fault = none ∧ u.busy = true ∧
      u.plan[u.seq]? = some item := by
  rw [startDrawing_window hi hcs hc, thenDo_next] at hstep
  obtain ⟨k, hk⟩ : ∃ k, items.length = k + 1 := Nat.exists_eq_succ_of_ne_zero (by simpa using hitems)
  have hpart := run_items (s := v.drawing x y w h px) hf rfl hplan (by simp) hrun
  obtain ⟨-, -, hbusy, -, hp, -, hfault, -⟩ := runItems_spec hrun
  refine ⟨t.goto items.length, ?_, rfl, hfault.trans hf, hbusy, ?_⟩
  · rw [hk, runFor_started (streamPlan_ne_nil _ _ _ _ _ _) hstep hf, ← hk]
    simpa [State.drawing] using hpart
  · simp [hp, State.drawing, hplan]

/-- The window sequence, the opening of the session and the first three entries of a two by two bitmap. -/
theorem runItems_three_entries {p : Params} {x y : Coord} {s : State} {a0 a1 a2 : Pixel} (hsrc : s.src = [a0, a1, a2])
    (hw : s.work.weff = 2) (hr : s.req.rw = 2) :
    ∃ q, runItems (threeEntries p x y) s =
      some ((State.emitAll (windowPlan p x y (x + 1) (y + 1) ++ [.sel, .frm .D, .byte (hi8 a0), .byte (lo8 a0),
        .byte (hi8 a1), .byte (lo8 a1), .byte (hi8 a2), .byte (lo8 a2)]) s).withStream
          { s.work with rem := 1, sidx := 3 } q) := by
  rw [threeEntries, runItems_append, runItems_open, Option.bind_some]
  obtain ⟨q, hq⟩ := sendsPixels_bitmap (n := 3) (w := 2) (s := s) (by norm_num)
    (by simp [hr, bitmapIndex_whole, hsrc]) ((State.emitAll (windowPlan p x y (x + 1) (y + 1) ++ [.sel, .frm .D])
      s).withStream (s.work.streamStart 4) s.pix) (by simp) (by simp) (by simp) (by simpa using hw) (by simp)
  have hwork : (s.work.streamStart 4).afterPixels 3 = { s.work with rem := 1, sidx := 3 } := by
    simp [WorkRegs.afterPixels, WorkRegs.streamStart]
  refine ⟨q, hq.trans ?_⟩
  rw [emitAll_withStream, withStream_withStream, State.withStream_work, hwork, ← emitAll_append]
  simp [hr, hsrc, bitmapIndex_whole, List.range_succ, pixelBytes]

/-- A two by two bitmap's fourth entry is not in a source of three. -/
theorem fourth_entry_missing {s : State} {a0 a1 a2 : Pixel} (hsrc : s.src = [a0, a1, a2]) (hw : s.work.weff = 2)
    (hr : s.req.rw = 2) (hs : s.work.sidx = 3) : s.memRead s.entryIndex = none := by
  simp [State.memRead, State.entryIndex, hsrc, hw, hr, hs, bitmapIndex_whole]

/-- Settles O32: after three entries the block asks for the fourth, which the source does not have. -/
theorem shortBitmapStopsMidSession : Obligations.ShortBitmapStopsMidSession := by
  intro s x y c a0 a1 a2 rest k hp hi hcs hx hy
  obtain ⟨hf, hb, hport⟩ := hp
  have hstep := step_presented hf hb hport (decode_encode_drawBitmap s.params x y 2 2 c)
  rw [exec, execDrawBitmap, whenReady_of_idle (by simpa using hb)] at hstep
  obtain ⟨q, hrun⟩ := runItems_three_entries (p := s.params) (x := x) (y := y) (a0 := a0) (a1 := a1) (a2 := a2)
    (s := ((s.take { word := encode s.params (.drawBitmap x y 2 2 c), src := [a0, a1, a2] } rest).latch
      (latched 0x3 x y 2 2 c)).drawing x y 2 2 bitmapPixel) rfl rfl rfl
  obtain ⟨u, hu, hut, hfault, hbusy, hitem⟩ := runFor_drawing_part hstep hf hi hcs (clip_two_by_two hx hy)
    (streamPlan_two_by_two s.params x y) (List.length_pos_iff.mp (by simp [threeEntries_length])) hrun
  rw [threeEntries_length] at hu
  have hread : u.memRead u.entryIndex = none := fourth_entry_missing (a0 := a0) (a1 := a1) (a2 := a2)
    (by simp [hut, State.drawing]) (by simp [hut, State.drawing, WorkRegs.clipped])
    (by simp [hut, State.drawing, latched]) (by simp [hut])
  have waits : step u = .next u := step_waits hfault hbusy hitem hread
  refine ⟨u, by rw [runFor_add, hu, thenDo_next, runFor_of_fixed waits], ⟨hbusy, ?_, hfault, waits⟩, by simp [hut], ?_⟩
  · simp [hut, afterAll_append, Lines.afterAll]
  · simp [hut, State.drawing]

end Sys2Proof.Machine

/-! PROOFS. The pixel memory: the panel at reset (O2, O50), one cell written (O53), soundness over every step (O51), and a
poisoned panel, which shows nothing (O55). -/

namespace Sys2Proof.Machine

/-! ### Reset -/

/-- Settles O2: the panel at power-on is written out. -/
theorem panelIsAtPowerOnAfterReset : Obligations.PanelIsAtPowerOnAfterReset :=
  ⟨Gram.read_nil, rfl, rfl, rfl, rfl, rfl, rfl, rfl⟩

/-- A panel at power-on holds no cell, has no pointer and is not ready. -/
theorem powerOn_sound (p : Params) : Panel.powerOn.sound p :=
  ⟨rfl, fun c r h => absurd (Gram.read_nil c r) h, fun _ => rfl, trivial, fun h => nomatch h⟩

/-- Settles O50: the panel is at power-on. -/
theorem panelIsSoundAtReset : Obligations.PanelIsSoundAtReset := powerOn_sound _

/-! ### One cell -/

/-- Settles O53: a read after a write, and the canonical form kept by it. -/
theorem cellWriteIsExact : Obligations.CellWriteIsExact := by
  intro m c r v
  refine ⟨?_, fun c' r' h => ?_, Gram.write_wf m c r v⟩
  · rw [Gram.read_write, if_pos ⟨rfl, rfl⟩]
  · rw [Gram.read_write, if_neg h]

/-! ### Soundness over every step -/

/-- A list of events keeps the panel sound. -/
theorem Panel.sound.replay {p : Params} {d : Bool} {P : Panel} (h : P.sound p) (es : List Event) :
    (P.replay p d es).sound p := by
  induction es generalizing d P with
  | nil => rwa [replay_nil]
  | cons e es ih => exact ih h.see

/-- Settles O51: the panel after a step is a replay of the step's events. -/
theorem pixelMemoryStaysCanonicalAndInside : Obligations.PixelMemoryStaysCanonicalAndInside := by
  intro s t hs hstep
  obtain ⟨es, -, -, hpanel, hparams, -⟩ := stepOnlyAppendsToTheTrace s t hstep
  rw [hpanel, hparams]
  exact hs.replay es

/-! ### A poisoned panel -/

theorem Panel.dropHalf_gram {P : Panel} (h : P.gram = []) : P.dropHalf.gram = [] := by
  unfold Panel.dropHalf
  split <;> simp [h]

theorem Panel.endParameters_gram {p : Params} {P : Panel} (h : P.gram = []) : (P.endParameters p).gram = [] := by
  unfold Panel.endParameters
  repeat' split
  all_goals simp [h]

theorem Panel.command_gram {p : Params} {op : Byte} {P : Panel} (h : P.gram = []) : (P.command p op).gram = [] := by
  unfold Panel.command
  repeat' split
  all_goals simp [h]

theorem Panel.setRows_gram {p : Params} {a b : Coord} {P : Panel} (h : P.gram = []) : (P.setRows p a b).gram = [] := by
  unfold Panel.setRows
  split <;> simp [h]

theorem Panel.setCols_gram {p : Params} {a b : Coord} {P : Panel} (h : P.gram = []) : (P.setCols p a b).gram = [] := by
  unfold Panel.setCols
  repeat' split
  all_goals simp [h]

theorem Panel.parameterByte_gram {p : Params} {op b : Byte} {bs : List Byte} {P : Panel} (h : P.gram = []) :
    (P.parameterByte p op bs b).gram = [] := by
  unfold Panel.parameterByte
  repeat' split
  all_goals simp [h, Panel.setRows_gram, Panel.setCols_gram]

/-- Once `P_BAD` is set no pixel is stored (R61). -/
theorem Panel.store_of_bad {P : Panel} (h : P.bad = true) (c r : Coord) (v : Pixel) : P.store c r v = P := if_pos h

/-- With `P_BAD` set a data byte makes no cell known: the one store of the model is `Panel.store`. -/
theorem Panel.dataByte_gram {p : Params} {b : Byte} {P : Panel} (hb : P.bad = true) (hg : P.gram = []) :
    (P.dataByte p b).gram = [] := by
  unfold Panel.dataByte
  split
  · exact Panel.parameterByte_gram hg
  · split
    · unfold Panel.pixelByte
      split <;> simp [Panel.store_of_bad hb, hg]
    · rfl

theorem Panel.framedByte_gram {p : Params} {f : Framing} {b : Byte} {P : Panel} (hb : P.bad = true) (hg : P.gram = []) :
    (P.framedByte p f b).gram = [] := by
  unfold Panel.framedByte
  split
  · rfl
  · split
    · unfold Panel.initByte
      split
      · exact hg
      · rfl
    · split
      · exact Panel.command_gram (Panel.endParameters_gram (Panel.dropHalf_gram hg))
      · exact Panel.dataByte_gram hb hg

theorem Panel.onEvent_gram {p : Params} {e : Event} {P : Panel} (hb : P.bad = true) (hg : P.gram = []) :
    (P.onEvent p e).gram = [] := by
  cases e with
  | byte b =>
    simp only [Panel.onEvent]
    split
    · exact Panel.framedByte_gram hb hg
    · rfl
  | desel =>
    simp only [Panel.onEvent]
    split <;> simp [hg]
  | rst l =>
    cases l
    · exact hg
    · rfl
  | sel | frm | sleep | cfgOut | bl => exact hg

theorem Panel.see_gram {p : Params} {d : Bool} {e : Event} {P : Panel} (hb : P.bad = true) (hg : P.gram = []) :
    (P.see p d e).gram = [] := by
  unfold Panel.see
  split
  · exact Panel.onEvent_gram hb hg
  · rfl

/-- A poisoned panel with no known cell has none after a list of events. -/
theorem replay_gram {p : Params} {d : Bool} {P : Panel} {es : List Event} (hb : P.bad = true) (hg : P.gram = []) :
    (P.replay p d es).gram = [] := by
  induction es generalizing d P with
  | nil => rwa [replay_nil]
  | cons e es ih => exact ih (Panel.see_bad hb) (Panel.see_gram hb hg)

/-- Settles O55: an empty memory reads as unknown everywhere. -/
theorem poisonedPanelShowsNothing : Obligations.PoisonedPanelShowsNothing := by
  intro p P d es hb hg
  refine ⟨replay_bad hb, fun c r => ?_⟩
  rw [replay_gram hb hg]
  exact Gram.read_nil c r

end Sys2Proof.Machine

/-! PROOFS. What the window sequence and a pixel payload do to a quiet panel (O16, O18, O54), and what a drawing request
paints (O57, O58, O59). -/

namespace Sys2Proof.Machine

/-! ### Commands and the window -/

/-- The end of a session that keeps the cells: the panel is quiet again once no parameter is missing. -/
theorem Panel.quiet.update {P : Panel} (h : P.quiet) (a : PanelAddr) (f : Framing) : (P.update a none f).quiet := by
  obtain ⟨hidle, hbad, -⟩ := Panel.quiet_iff.mp h
  exact Panel.quiet_iff.mpr ⟨hidle.update a none f, hbad, rfl⟩

/-- The window sequence sets the pointer and changes nothing else (R54, R55, R151). -/
theorem replay_windowPlan {p : Params} {P : Panel} {x0 y0 x1 y1 : Coord} (hw : p.wf = true) (h : P.quiet) (hx : x0 ≤ x1)
    (hx1 : x1 < p.width) (hy : y0 ≤ y1) (hy1 : y1 < p.height) :
    P.replay p true (windowPlan p x0 y0 x1 y1) = P.update (.writing x0 x1 y0 y1 x0 y0) none .C := by
  obtain ⟨hidle, -, hcmd⟩ := Panel.quiet_iff.mp h
  simp only [windowPlan, replay_append_driven]
  rw [replay_raset_cmd hidle hcmd, replay_rows hw (hidle.update _ _ _) rfl hy hy1, Panel.update_update,
    replay_caset_cmd hw (hidle.update _ _ _) rfl rfl, Panel.update_update,
    replay_cols hw (hidle.update _ _ _) rfl rfl hx hx1, Panel.update_update,
    replay_ramwr_cmd hw (hidle.update _ _ _) rfl rfl, Panel.update_update]

/-- Settles O18: of the panel only the pointer and the framing have moved. -/
theorem windowSequenceSetsThePointer : Obligations.WindowSequenceSetsThePointer := by
  intro p P x0 y0 x1 y1 hw h hx hx1 hy hy1
  rw [replay_windowPlan hw h hx hx1 hy hy1]
  exact ⟨rfl, rfl, h.update _ _⟩

/-- The row range, whatever the address state was (R55). -/
theorem replay_raset {p : Params} {P : Panel} {a b : Coord} (hw : p.wf = true) (h : P.Idle) (hc : P.cmd = none)
    (hab : a ≤ b) (hb : b < p.height) :
    P.replay p true (cmdSession p.opcRaset ++ dataSession (addr4 a b)) = P.update (.rows a b) none .D := by
  rw [replay_append_driven, replay_raset_cmd h hc, replay_rows hw (h.update _ _ _) rfl hab hb, Panel.update_update]

/-- The column range, after a row range or out of order (R55). -/
theorem replay_caset {p : Params} {P : Panel} {a b : Coord} (hw : p.wf = true) (h : P.Idle) (hc : P.cmd = none)
    (hab : a ≤ b) (hb : b < p.width) :
    ∃ addr, P.replay p true (cmdSession p.opcCaset ++ dataSession (addr4 a b)) = P.update addr none .D := by
  rw [replay_append_driven]
  by_cases hrows : ∃ ys ye, P.addr = .rows ys ye
  · obtain ⟨ys, ye, ha⟩ := hrows
    refine ⟨.rowsCols ys ye a b, ?_⟩
    rw [replay_caset_cmd hw h ha hc, replay_cols hw (h.update _ _ _) rfl rfl hab hb, Panel.update_update]
  · refine ⟨.undef, ?_⟩
    rw [replay_caset_cmd_out_of_order hw h hc fun ys ye ha => hrows ⟨ys, ye, ha⟩,
      replay_cols_out_of_order hw (h.update _ _ _) rfl rfl hab hb, Panel.update_update]

/-- COLMOD and MADCTL with their parameter byte. -/
theorem replay_one_byte_command {p : Params} {P : Panel} {op b : Byte} (hw : p.wf = true) (h : P.Idle)
    (hc : P.cmd = none) (ho : op = p.opcColmod ∨ op = p.opcMadctl) :
    P.replay p true (cmdSession op ++ dataSession [b]) = P.update .undef none .D := by
  rw [replay_append_driven, replay_one_byte_cmd hw h hc ho, replay_one_byte hw (h.update _ _ _) ho rfl,
    Panel.update_update, Panel.update_addr]

/-- A command and its parameters are two sessions (R83). -/
theorem sendCmdOp_sendDataOp_closed (op : Byte) (bs : List Byte) {s : State} (h : s.lines.csSel = false) :
    thenDo (sendCmdOp op s) (sendDataOp bs) = .next (State.emitAll (cmdSession op ++ dataSession bs) s) := by
  rw [sendCmdOp_closed op h, thenDo_next, sendDataOp_closed bs (by simp [cmdSession_lines]), emitAll_append]

/-- Events that leave an address state and a framing on a quiet panel store no pixel. -/
theorem storesNoPixel {s : State} {r : Result} {es : List Event} (h : s.panel.quiet) (hdir : s.lines.dir = true)
    (hr : r = .next (State.emitAll es s))
    (hes : ∃ a f, s.panel.replay s.params true es = s.panel.update a none f) :
    ∃ t, r = .next t ∧ sameCells s t ∧ t.panel.quiet := by
  obtain ⟨a, f, hes⟩ := hes
  refine ⟨_, hr, ?_⟩
  rw [sameCells, emitAll_panel, hdir, hes]
  exact ⟨fun _ _ => rfl, h.update a f⟩

/-- Settles O16: each command is one session, or two where it has parameters. -/
theorem commandsStoreNoPixel : Obligations.CommandsStoreNoPixel := by
  intro s a b i _ hw h hdir hcs hab hi
  obtain ⟨hidle, -, hcmd⟩ := Panel.quiet_iff.mp h
  have one (op : Byte) := storesNoPixel h hdir (sendCmdOp_closed op hcs)
  have two (op : Byte) (bs : List Byte) := storesNoPixel h hdir (sendCmdOp_sendDataOp_closed op bs hcs)
  rcases hi with hi | ⟨rfl, hb⟩ | ⟨rfl, hb⟩
  · simp only [List.mem_cons, List.not_mem_nil, or_false] at hi
    rcases hi with rfl | rfl | rfl | rfl | rfl
    · exact one _ ⟨_, _, replay_plain_cmd hw hidle hcmd (.inl rfl)⟩
    · exact one _ ⟨_, _, replay_plain_cmd hw hidle hcmd (.inr rfl)⟩
    · obtain ⟨addr, hes⟩ := replay_ramwr_cmd_any hw hidle hcmd
      exact one _ ⟨addr, _, hes⟩
    · exact two _ _ ⟨_, _, replay_one_byte_command hw hidle hcmd (.inr rfl)⟩
    · exact two _ _ ⟨_, _, replay_one_byte_command hw hidle hcmd (.inl rfl)⟩
  · obtain ⟨addr, hes⟩ := replay_caset hw hidle hcmd hab hb
    exact two _ _ ⟨addr, _, hes⟩
  · exact two _ _ ⟨_, _, replay_raset hw hidle hcmd hab hb⟩

/-! ### The bytes of pixels -/

/-- The panel in the open data session of a pixel payload, with no half pixel pending. -/
structure Panel.Receiving (P : Panel) : Prop where
  ready : P.ready = true
  pulse : P.pulse = .released
  bad : P.bad = false
  sel : P.sel = true
  frm : P.frm = some .D
  cmd : P.cmd = none
  half : P.half = none

/-- The cells and the pointer replaced. -/
def Panel.written (g : Gram) (a : PanelAddr) (P : Panel) : Panel := { P with gram := g, addr := a }

@[simp] theorem Panel.written_gram (g : Gram) (a : PanelAddr) (P : Panel) : (P.written g a).gram = g := rfl
@[simp] theorem Panel.written_addr (g : Gram) (a : PanelAddr) (P : Panel) : (P.written g a).addr = a := rfl
@[simp] theorem Panel.written_written (g g' : Gram) (a a' : PanelAddr) (P : Panel) :
    (P.written g a).written g' a' = P.written g' a' := rfl

theorem Panel.Receiving.written {P : Panel} (h : P.Receiving) (g : Gram) (a : PanelAddr) : (P.written g a).Receiving :=
  ⟨h.ready, h.pulse, h.bad, h.sel, h.frm, h.cmd, h.half⟩

/-- A byte of a pixel payload goes to the write pointer (R56). -/
theorem Panel.onEvent_pixelByte {p : Params} {P : Panel} {b : Byte} {xs xe ys ye c r : Coord} (hr : P.ready = true)
    (hs : P.sel = true) (hp : P.pulse = .released) (hf : P.frm = some .D) (hc : P.cmd = none)
    (ha : P.addr = .writing xs xe ys ye c r) : P.onEvent p (.byte b) = P.pixelByte xs xe ys ye c r b := by
  rw [Panel.onEvent_byte hr hs hp hf]
  simp [Panel.dataByte, hc, ha]

/-- The two bytes of a pixel are stored at the pointer, high byte first, and move it (R56, R59). -/
theorem replay_pixel {p : Params} {P : Panel} {hi lo : Byte} {xs xe ys ye c r : Coord} (h : P.Receiving)
    (ha : P.addr = .writing xs xe ys ye c r) :
    P.replay p true [.byte hi, .byte lo] =
      P.written (P.gram.write c r (be16 hi lo)) (.afterCell xs xe ys ye c r) := by
  have high : P.onEvent p (.byte hi) = P.setHalf (some hi) := by
    rw [Panel.onEvent_pixelByte h.ready h.sel h.pulse h.frm h.cmd ha]
    simp [Panel.pixelByte, h.half]
  rw [replay_cons_driven, high, replay_cons_driven, replay_nil,
    Panel.onEvent_pixelByte (P := P.setHalf (some hi)) h.ready h.sel h.pulse h.frm h.cmd ha]
  have hbad := h.bad
  have hhalf := h.half
  cases P
  simp_all [Panel.pixelByte, Panel.store, Panel.setHalf, Panel.setAddr, Panel.written]

/-- Settles O54: WRITE sends the two bytes to the panel as it is. -/
theorem pixelBytesStoreAtThePointer : Obligations.PixelBytesStoreAtThePointer := by
  intro s xs xe ys ye c r hi lo _ hcs hdir hdc hsel hfrm hready hpulse hbad hcmd hhalf haddr
  have receiving : s.panel.Receiving := ⟨hready, hpulse, hbad, hsel, hfrm, hcmd, hhalf⟩
  have sent : exec (.write [hi, lo]) s = .next (State.emitAll [.byte hi, .byte lo] s) := by
    simp [exec, execWrite, writeOp, hcs, hdc]
  refine ⟨_, sent, ?_⟩
  rw [emitAll_panel, hdir, replay_pixel receiving haddr, emitAll_trace, emitAll_lines]
  refine ⟨?_, fun c' r' h => ?_, rfl, hbad, hhalf, rfl, ?_, emitAll_onlyBusChanged _ s⟩
  · rw [Panel.written_gram, Gram.read_write, if_pos ⟨rfl, rfl⟩]
    rfl
  · rw [Panel.written_gram, Gram.read_write, if_neg h]
  · simpa using afterAll_bytes [hi, lo] s.lines

/-- The bytes of pixels from position `j` of a window paint the pixels from there. -/
theorem replay_pixels {p : Params} {P : Panel} {W : Win} (ok : W.ok) (vs : List Pixel) (j : Nat) (h : P.Receiving)
    (ha : P.addr = W.addr j) (hl : j + vs.length ≤ W.w.toNat * W.h.toNat) :
    P.replay p true ((vs.flatMap pixelBytes).map .byte) =
      P.written (W.paint P.gram j vs) (W.addr (j + vs.length)) := by
  induction vs generalizing P j with
  | nil =>
    rw [List.length_nil, Nat.add_zero, ← ha]
    exact replay_nil p true P
  | cons v vs ih =>
    rw [List.length_cons] at hl
    have hj : j < W.w.toNat * W.h.toNat := by omega
    have pixel := replay_pixel (p := p) (hi := hi8 v) (lo := lo8 v) h (ha.trans (if_pos hj))
    rw [be16_hi8_lo8, Win.afterCell ok hj] at pixel
    rw [List.flatMap_cons, List.map_append, replay_append_driven]
    have rest := ih (j + 1) (h.written (P.gram.write (W.col j) (W.row j) v) (W.addr (j + 1))) rfl (by omega)
    rw [show (pixelBytes v).map Event.byte = [.byte (hi8 v), .byte (lo8 v)] from rfl, pixel, rest,
      Panel.written_written, Panel.written_gram, List.length_cons, Nat.add_assoc, Nat.add_comm 1]
    rfl

/-! ### A drawing request's events -/

/-- What a whole drawing request leaves of a panel: the pixels painted, the pointer exhausted, data framing. -/
def Panel.drawn (W : Win) (vs : List Pixel) (P : Panel) : Panel :=
  (P.update .undef none .D).written (W.paint P.gram 0 vs) (.exhausted W.x (W.x + W.w - 1) W.y (W.y + W.h - 1))

theorem Panel.quiet.drawn {P : Panel} (h : P.quiet) (W : Win) (vs : List Pixel) : (P.drawn W vs).quiet := by
  obtain ⟨hr, hb, hs, -, hh, hp⟩ := h
  exact ⟨hr, hb, hs, rfl, hh, hp⟩

theorem Panel.drawn_read {W : Win} {vs : List Pixel} (ok : W.ok) (hl : vs.length = W.w.toNat * W.h.toNat) (P : Panel)
    (c r : Coord) :
    (P.drawn W vs).gram.read c r = if W.contains c r then vs[W.position c r]? else P.gram.read c r := by
  rw [Panel.drawn, Panel.written_gram, Win.paint_read ok vs P.gram 0 (by omega)]
  by_cases hh : W.contains c r
  · have := Win.position_lt hh
    rw [if_pos hh, if_pos ⟨hh, by omega, by omega⟩, Nat.sub_zero]
  · rw [if_neg hh, if_neg fun h => hh h.1]

/-- A window inside the panel is not empty, and no coordinate of it wraps. -/
structure Win.inside (p : Params) (W : Win) : Prop where
  w_pos : 1 ≤ W.w.toNat
  h_pos : 1 ≤ W.h.toNat
  x_le : W.x.toNat + W.w.toNat ≤ p.width.toNat
  y_le : W.y.toNat + W.h.toNat ≤ p.height.toNat

theorem Win.inside.ok {p : Params} {W : Win} (h : W.inside p) : W.ok := by
  obtain ⟨h1, h2, h3, h4⟩ := h
  have := p.width.isLt
  have := p.height.isLt
  exact ⟨h1, h2, by omega, by omega⟩

/-- R162: the window CLIP returns begins at the requested origin and is inside the panel. -/
theorem clip_inside {p : Params} {x y w h x' y' w' h' : Coord} (hc : clip p x y w h = .window x' y' w' h') :
    x' = x ∧ y' = y ∧ Win.inside p ⟨x', y', w', h'⟩ := by
  rw [clip_eq] at hc
  split at hc
  · cases hc
  · cases hc
    refine ⟨rfl, rfl, ?_, ?_, ?_, ?_⟩
    all_goals
      simp only []
      rw [clipExtent_toNat _ _ _ (by omega)]
      split <;> omega

/-- The window sequence of a window inside the panel. -/
theorem replay_window {p : Params} {P : Panel} {W : Win} (hw : p.wf = true) (h : P.quiet) (hW : W.inside p) :
    P.replay p true (windowPlan p W.x W.y (W.x + W.w - 1) (W.y + W.h - 1)) = P.update (W.addr 0) none .C := by
  obtain ⟨h1, h2, h3, h4⟩ := hW.ok
  have hx := last_toNat h1 h3
  have hy := last_toNat h2 h4
  have := hW.x_le
  have := hW.y_le
  have col : W.col 0 = W.x := by simp [Win.col]
  have row : W.row 0 = W.y := by simp [Win.row]
  rw [Win.addr, if_pos (Nat.mul_pos h1 h2), col, row]
  apply replay_windowPlan hw h
  · rw [BitVec.le_def]; omega
  · rw [BitVec.lt_def]; omega
  · rw [BitVec.le_def]; omega
  · rw [BitVec.lt_def]; omega

/-- R166, R170: the window sequence and the session with a pixel for each cell. -/
theorem replay_drawing {p : Params} {P : Panel} {W : Win} {vs : List Pixel} (hw : p.wf = true) (h : P.quiet)
    (hW : W.inside p) (hl : vs.length = W.w.toNat * W.h.toNat) :
    P.replay p true (windowPlan p W.x W.y (W.x + W.w - 1) (W.y + W.h - 1) ++ dataSession (vs.flatMap pixelBytes)) =
      P.drawn W vs := by
  obtain ⟨hidle, hbad, -⟩ := Panel.quiet_iff.mp h
  have start : (P.update (W.addr 0) none .C).replay p true [.sel, .frm .D] =
      (P.update (W.addr 0) none .D).setSel true := rfl
  have receiving : ((P.update (W.addr 0) none .D).setSel true).Receiving :=
    ⟨hidle.ready, hidle.pulse, hbad, rfl, rfl, rfl, hidle.half⟩
  have last : W.addr (0 + vs.length) = .exhausted W.x (W.x + W.w - 1) W.y (W.y + W.h - 1) := by
    rw [Win.addr, if_neg (by omega)]
  rw [replay_append_driven, replay_window hw h hW, dataSession, replay_append_driven, replay_append_driven, start,
    replay_pixels hW.ok vs 0 receiving rfl (by omega), last, replay_cons_driven, replay_nil]
  have hsel := hidle.sel
  have hhalf := hidle.half
  cases P
  simp_all [Panel.onEvent, Panel.drawn, Panel.written, Panel.update, Panel.setSel]

/-- `FillPlan` of a request that draws. -/
theorem fillTrace_window {p : Params} {x y w h x' y' w' h' : Coord} (c : Pixel)
    (hc : clip p x y w h = .window x' y' w' h') :
    fillTrace p x y w h c = windowPlan p x' y' (x' + w' - 1) (y' + h' - 1) ++
      dataSession ((List.replicate (w'.toNat * h'.toNat) c).flatMap pixelBytes) := by
  simp [fillTrace, hc, rep, List.flatMap]

/-- The entries that `BitmapPlan` sends. -/
def bitmapPixels (p : Params) (w w' h' : Coord) (src : List Pixel) : List Pixel :=
  (entriesRead p w w' h').map fun i => src.getD i 0

/-- `BitmapPlan` of a request that draws. -/
theorem bitmapTrace_window {p : Params} {x y w h x' y' w' h' : Coord} (src : List Pixel)
    (hc : clip p x y w h = .window x' y' w' h') :
    bitmapTrace p x y w h src = windowPlan p x' y' (x' + w' - 1) (y' + h' - 1) ++
      dataSession ((bitmapPixels p w w' h' src).flatMap pixelBytes) := by
  simp [bitmapTrace, hc, bitmapPixels, List.flatMap_map]

theorem bitmapPixels_length (p : Params) (w w' h' : Coord) (src : List Pixel) :
    (bitmapPixels p w w' h' src).length = w'.toNat * h'.toNat := by
  simp [bitmapPixels, entriesRead]

/-- The pixel of position `j` is the entry `idx(j)` (R171). -/
theorem bitmapPixels_getElem? {p : Params} {w w' h' : Coord} {src : List Pixel} {j : Nat}
    (hsrc : ∀ i ∈ entriesRead p w w' h', i < src.length) (hj : j < w'.toNat * h'.toNat) :
    (bitmapPixels p w w' h' src)[j]? = src[bitmapIndex p.clipMode w' w j]? := by
  have hlt : bitmapIndex p.clipMode w' w j < src.length :=
    hsrc _ (List.mem_map_of_mem (List.mem_range.mpr hj))
  simp [bitmapPixels, entriesRead, hj, List.getElem?_eq_getElem hlt]

/-- Settles O57: every position of the payload has the colour. -/
theorem fillRectPaintsTheClippedRectangle : Obligations.FillRectPaintsTheClippedRectangle := by
  intro p P x y w h w' h' color hw hq hc
  obtain ⟨-, -, hW⟩ := clip_inside hc
  have hl : (List.replicate (w'.toNat * h'.toNat) color).length = w'.toNat * h'.toNat := List.length_replicate
  rw [fillTrace_window color hc, replay_drawing hw hq hW hl]
  refine ⟨fun c r => ?_, rfl, hq.drawn _ _⟩
  rw [Panel.drawn_read hW.ok hl]
  by_cases hh : Win.contains ⟨x, y, w', h'⟩ c r
  · rw [if_pos hh, if_pos hh, List.getElem?_replicate, if_pos (Win.position_lt hh)]
  · rw [if_neg hh, if_neg hh]

/-- Settles O58: position `j` of the payload has the entry `idx(j)`. -/
theorem drawBitmapPaintsTheEntries : Obligations.DrawBitmapPaintsTheEntries := by
  intro p P x y w h w' h' src hw hq hc hsrc
  obtain ⟨-, -, hW⟩ := clip_inside hc
  have hl := bitmapPixels_length p w w' h' src
  rw [sourceSuffices, hc] at hsrc
  rw [bitmapTrace_window src hc, replay_drawing hw hq hW hl]
  refine ⟨fun c r => ?_, rfl, hq.drawn _ _⟩
  rw [Panel.drawn_read hW.ok hl]
  by_cases hh : Win.contains ⟨x, y, w', h'⟩ c r
  · rw [if_pos hh, if_pos hh, bitmapPixels_getElem? hsrc (Win.position_lt hh), Win.position]
  · rw [if_neg hh, if_neg hh]

/-- Settles O59: the second fill writes the colour where it is already. -/
theorem fillScreenIsIdempotent : Obligations.FillScreenIsIdempotent := by
  intro p P color c r hw hq
  have hc := clip_whole hw
  obtain ⟨once, -, quiet⟩ := fillRectPaintsTheClippedRectangle p P _ _ _ _ _ _ color hw hq hc
  obtain ⟨twice, -, -⟩ := fillRectPaintsTheClippedRectangle p _ _ _ _ _ _ _ color hw quiet hc
  refine ⟨?_, fun hcw hrh => ?_⟩
  · rw [twice, once]
    split <;> rfl
  · rw [BitVec.lt_def] at hcw hrh
    rw [once, if_pos (by simpa using ⟨hcw, hrh⟩)]

end Sys2Proof.Machine

/-! PROOFS. Requests never drive the panel in an undefined way (O49): whatever bytes a plan emits, the whole of it leaves a
panel that fits it quiet, and one event of it leaves a rest that does. -/

namespace Sys2Proof.Machine

/-! ### Plans that leave the panel quiet -/

/-- Whatever the items may emit leaves the panel of `s` quiet. -/
def State.quietAfter (items : List PlanItem) (s : State) : Prop :=
  ∀ es, mayEmit items es → (s.panel.replay s.params s.lines.dir es).quiet

theorem quietAfter_nil {s : State} : s.quietAfter [] ↔ s.panel.quiet := by
  simp [State.quietAfter, mayEmit, replay_nil]

/-- After an event of its first item, the rest of a plan leaves the panel quiet. -/
theorem State.quietAfter.next {s u : State} {item : PlanItem} {items : List PlanItem} {e : Event}
    (h : s.quietAfter (item :: items)) (he : item.emits e) (hpanel : u.panel = s.panel.see s.params s.lines.dir e)
    (hparams : u.params = s.params) (hlines : u.lines = s.lines.after e) : u.quietAfter items := by
  intro es hm
  rw [hpanel, hparams, hlines]
  exact h (e :: es) (mayEmit_cons.mpr ⟨he, hm⟩)

/-- INITIALIZE brings a panel at power-on to its quiet state (R193). -/
theorem quietAfter_initPlan {s : State} (h : s.panel = Panel.powerOn) :
    s.quietAfter ((initPlan s.params).map .ev) := by
  intro es hm
  obtain ⟨quiet, -, -⟩ := replay_initPlan s.params s.lines.dir
  rwa [mayEmit_ev.mp hm, h]

/-- A drawing plan for a window inside the panel may emit the bytes of some pixels only, and every pixel is painted (R75). -/
theorem quietAfter_streamPlan {s : State} {x y w h : Coord} {px : List PlanItem} (hw : s.params.wf = true)
    (hq : s.panel.quiet) (hdir : s.lines.dir = true) (hW : Win.inside s.params ⟨x, y, w, h⟩)
    (hpx : (∃ c, px = fillPixel c) ∨ px = bitmapPixel) : s.quietAfter (streamPlan s.params x y w h px) := by
  intro es hm
  obtain ⟨bs, hlen, rfl⟩ := mayEmit_streamPlan hpx hm
  obtain ⟨vs, hvs, rfl⟩ := exists_pixels bs _ hlen
  rw [hdir, replay_drawing hw hq hW hvs]
  exact hq.drawn _ vs

/-! ### What every step keeps -/

/-- The part of the invariant that speaks of the panel, with what a busy block needs to go on. -/
structure State.panelPart (s : State) : Prop where
  left : s.busy = true → s.seq < s.plan.length
  begun : s.busy = true → s.initState ≠ .notRun
  powerOn : s.busy = false → s.initState = .notRun → s.panel = Panel.powerOn
  quiet : s.busy = false → s.initState = .done → s.panel.quiet
  rest : s.busy = true → s.quietAfter (s.plan.drop s.seq)

theorem State.panelInv.panelPart {s : State} (h : s.panelInv) : s.panelPart := by
  obtain ⟨-, hinit, -, hpower, hquiet, hrest⟩ := h
  obtain ⟨-, hleft, order⟩ := initInv_iff.mp hinit
  refine ⟨hleft, fun hb hi => ?_, hpower, hquiet, hrest⟩
  obtain ⟨-, hidle, -⟩ := (orderInv_notRun hi).mp order
  simp [hb] at hidle

/-- `P_BAD` is 0: of a busy block because a poisoned panel would not come out quiet, of an idle one because its panel is at
power-on or quiet. -/
theorem State.panelPart.bad {s : State} (h : s.panelPart) (hi : s.initInv) : s.panel.bad = false := by
  obtain ⟨-, -, order⟩ := initInv_iff.mp hi
  cases hb : s.busy with
  | true =>
    obtain ⟨es, hm⟩ := exists_mayEmit (s.plan.drop s.seq)
    obtain ⟨-, fine, -⟩ := h.rest hb es hm
    by_contra hbad
    simp [replay_bad (by simpa using hbad)] at fine
  | false =>
    cases hs : s.initState with
    | notRun => rw [h.powerOn hb hs]; rfl
    | running =>
      obtain ⟨busy, -⟩ := (orderInv_running hs).mp order
      simp [hb] at busy
    | done =>
      obtain ⟨-, fine, -⟩ := h.quiet hb hs
      exact fine

/-- Completion leaves the panel quiet where nothing is left to send. -/
theorem panelPart_settle {s : State} (hb : s.busy = true) (hi : s.initState ≠ .notRun)
    (hrest : s.quietAfter (s.plan.drop s.seq)) : s.settle.panelPart := by
  by_cases hlt : s.seq < s.plan.length
  · rw [State.settle_of_lt hlt]
    exact ⟨fun _ => hlt, fun _ => hi, by simp [hb], by simp [hb], fun _ => hrest⟩
  · rw [State.settle_of_not_lt hlt]
    rw [List.drop_eq_nil_of_le (by omega), quietAfter_nil] at hrest
    refine ⟨by simp, by simp, fun _ hn => absurd hn ?_, fun _ _ => hrest, by simp⟩
    rw [State.finish_initState]
    split
    · simp
    · exact hi

/-- The next item of a plan, whatever byte it emits. -/
theorem State.panelPart.advance {s t : State} (hs : s.panelPart) (hb : s.busy = true)
    (h : Machine.advance s = .next t) : t.panelPart := by
  rcases advance_cases h with ⟨hnone, rfl⟩ | ⟨item, -, -, rfl⟩ | ⟨item, u, hitem, hrun, rfl⟩
  · exact absurd (hs.left hb) (by simpa using hnone)
  · exact hs
  · obtain ⟨e, he, -, hlines, hpanel, hparams, hinit, hbusy, -, hplan, -⟩ := PlanItem.run_spec hrun
    have hdrop : s.plan.drop s.seq = item :: s.plan.drop (s.seq + 1) := by
      obtain ⟨hlt, rfl⟩ := List.getElem?_eq_some_iff.mp hitem
      exact List.drop_eq_getElem_cons hlt
    have hrest := hs.rest hb
    rw [hdrop] at hrest
    refine panelPart_settle (by simpa [hbusy] using hb) (by simpa [hinit] using hs.begun hb) ?_
    rw [State.goto_plan, State.goto_seq, hplan]
    exact hrest.next he hpanel hparams hlines

theorem State.panelPart.firstEvent {s t : State} (hs : s.panelPart) (h : Machine.firstEvent s = .next t) :
    t.panelPart := by
  unfold Machine.firstEvent at h
  split at h
  · next hb => exact hs.advance hb h
  · cases h
    exact hs

/-- An accepted request: each of the three plans fits the panel it is loaded for. -/
theorem Accepted.panelPart {s u : State} {i : Instr} (ha : Accepted s i u) (hw : s.params.wf = true)
    (hb : s.busy = false) (hs : s.panelPart) (hdir : s.initState = .done → s.lines.dir = true) : u.panelPart := by
  cases ha with
  | initialization x y w h c hi =>
    exact panelPart_settle rfl (by simp) (quietAfter_initPlan (hs.powerOn hb hi))
  | nothing i r hi hr => exact panelPart_settle rfl (by simp [hi]) (quietAfter_nil.mpr (hs.quiet hb hi))
  | draw i r px x y w h hpx hi hr hc hcs =>
    obtain ⟨-, -, hW⟩ := clip_inside hc
    exact panelPart_settle rfl (by simp [hi])
      (quietAfter_streamPlan hw (hs.quiet hb hi) (hdir hi) hW (hpx.imp_right And.left))

/-- Settles O49: a busy block sends the next event of its plan, an idle one accepts a request. -/
theorem panelIsNeverPoisonedByRequests : Obligations.PanelIsNeverPoisonedByRequests := by
  intro s t hs hstep
  have hp := hs.panelPart
  obtain ⟨hw, hinit, -⟩ := hs
  obtain ⟨-, -, -, -, hparams, -⟩ := stepOnlyAppendsToTheTrace s t hstep
  have hinit' : t.initInv := initializationOrderIsKeptByEveryStep s t hinit hstep
  have ht : t.panelPart := by
    obtain ⟨hr, -, order⟩ := initInv_iff.mp hinit
    obtain ⟨-, ⟨hb, h⟩ | ⟨-, -, rfl⟩ | ⟨q, rest, i, u, hb, hport, hdec, hexec, hfirst⟩⟩ := step_cases hstep
    · exact hp.advance hb h
    · exact hp
    · obtain ⟨d, hd⟩ := hr q (by simp [hport])
      rw [hd] at hdec
      have accepted := exec_request_accepted (s := s.take q rest) hdec hb hexec
      have hq : (s.take q rest).panelPart := ⟨hp.left, hp.begun, hp.powerOn, hp.quiet, hp.rest⟩
      exact (accepted.panelPart hw hb hq fun hi => ((orderInv_done hi).mp order).1).firstEvent hfirst
  exact ⟨hparams ▸ hw, hinit', ht.bad hinit', ht.powerOn, ht.quiet, ht.rest⟩

end Sys2Proof.Machine

/-! PROOFS. Inputs the source does not describe poison the panel (O56): one lemma for what a session of one byte does, and one
for each kind of byte that poisons. -/

namespace Sys2Proof.Machine

/-! ### A session of one byte -/

/-- The end of a session poisons where its byte has, or where a half pixel is pending (R53). -/
theorem onEvent_desel_bad {p : Params} {P : Panel} (h : P.bad = true ∨ P.half ≠ none) :
    (P.onEvent p .desel).bad = true := by
  rcases h with h | h
  · exact Panel.onEvent_bad h
  · simp [Panel.onEvent, Option.isSome_iff_ne_none.mpr h]

/-- A session of one byte poisons where the byte does, or where it leaves a half pixel. -/
theorem replay_session_bad {p : Params} {P : Panel} {f : Framing} {b : Byte}
    (h : (((P.setSel true).setFrm f).framedByte p f b).bad = true ∨
      (((P.setSel true).setFrm f).framedByte p f b).half ≠ none) :
    (P.replay p true [.sel, .frm f, .byte b, .desel]).bad = true := by
  simp only [replay_cons_driven, replay_nil]
  exact onEvent_desel_bad h

/-! ### The bytes that poison -/

/-- Before the reset pulse has ended any byte poisons (R53). -/
theorem framedByte_before_pulse {p : Params} {P : Panel} {f : Framing} {b : Byte} (hp : P.pulse ≠ .released) :
    (P.framedByte p f b).bad = true := by
  unfold Panel.framedByte
  rw [if_pos hp, Panel.poison_bad]

/-- Before `P_READY` a byte that is not the next of the script poisons (R53). -/
theorem framedByte_out_of_script {p : Params} {P : Panel} {f : Framing} {b : Byte} (hp : P.pulse = .released)
    (hr : P.ready = false) (hb : (initBytes p)[P.initGot]? ≠ some (f, b)) : (P.framedByte p f b).bad = true := by
  unfold Panel.framedByte
  rw [if_neg (by simp [hp]), if_pos hr, Panel.initByte, if_neg hb, Panel.poison_bad]

theorem framedByte_command {p : Params} {P : Panel} {b : Byte} (hr : P.ready = true) (hp : P.pulse = .released) :
    P.framedByte p .C b = P.commandByte p b := by
  simp [Panel.framedByte, hr, hp]

theorem framedByte_data {p : Params} {P : Panel} {b : Byte} (hr : P.ready = true) (hp : P.pulse = .released) :
    P.framedByte p .D b = P.dataByte p b := by
  simp [Panel.framedByte, hr, hp]

/-- A pixel byte that no window waits for poisons (R55, R56). -/
theorem framedByte_without_window {p : Params} {P : Panel} {b : Byte} (hr : P.ready = true) (hp : P.pulse = .released)
    (hc : P.cmd = none) (ha : ∀ xs xe ys ye c r, P.addr ≠ .writing xs xe ys ye c r) :
    (P.framedByte p .D b).bad = true := by
  rw [framedByte_data hr hp]
  unfold Panel.dataByte
  split
  · next h => simp [hc] at h
  · split
    · next h => exact absurd h (ha _ _ _ _ _ _)
    · rfl

/-- The first byte of a pixel poisons, or it is kept as a half pixel (R56). -/
theorem framedByte_first_of_pixel {p : Params} {P : Panel} {b : Byte} (hr : P.ready = true) (hp : P.pulse = .released)
    (hc : P.cmd = none) (hh : P.half = none) :
    (P.framedByte p .D b).bad = true ∨ (P.framedByte p .D b).half ≠ none := by
  rw [framedByte_data hr hp]
  unfold Panel.dataByte
  split
  · next h => simp [hc] at h
  · split
    · exact .inr (by simp [Panel.pixelByte, hh])
    · exact .inl rfl

/-- A command outside the seven poisons (R54). -/
theorem framedByte_unknown_command {p : Params} {P : Panel} {op : Byte} (hr : P.ready = true) (hp : P.pulse = .released)
    (ho : op ∉ p.opcodes) : (P.framedByte p .C op).bad = true := by
  simp only [Params.opcodes, List.mem_cons, List.not_mem_nil, or_false, not_or] at ho
  obtain ⟨h1, h2, h3, h4, h5, h6, h7⟩ := ho
  rw [framedByte_command hr hp]
  simp [Panel.commandByte, Panel.command, h1, h2, h3, h4, h5, h6, h7]

/-- A byte outside a session, or with the framing never set, poisons (R53). -/
theorem onEvent_byte_unframed {p : Params} {P : Panel} {b : Byte} (h : P.sel = false ∨ P.frm = none) :
    (P.onEvent p (.byte b)).bad = true := by
  simp only [Panel.onEvent]
  split
  · next hs hf => simp [hs, hf] at h
  · rfl

/-! ### A command byte, whatever the panel was doing -/

theorem dropHalf_spec (P : Panel) : P.dropHalf.ready = P.ready ∧ P.dropHalf.pulse = P.pulse ∧ P.dropHalf.cmd = P.cmd ∧
    P.dropHalf.half = none := by
  unfold Panel.dropHalf
  split <;> simp

theorem endParameters_spec (p : Params) (P : Panel) : (P.endParameters p).ready = P.ready ∧
    (P.endParameters p).pulse = P.pulse ∧ (P.endParameters p).half = P.half := by
  unfold Panel.endParameters
  repeat' split
  all_goals simp

theorem command_spec (p : Params) (op : Byte) (P : Panel) : (P.command p op).ready = P.ready ∧
    (P.command p op).pulse = P.pulse ∧ (P.command p op).half = P.half := by
  unfold Panel.command
  repeat' split
  all_goals simp

theorem commandByte_spec (p : Params) (op : Byte) (P : Panel) : (P.commandByte p op).ready = P.ready ∧
    (P.commandByte p op).pulse = P.pulse ∧ (P.commandByte p op).half = none := by
  obtain ⟨hr, hp, -, hh⟩ := dropHalf_spec P
  obtain ⟨hr', hp', hh'⟩ := endParameters_spec p P.dropHalf
  obtain ⟨hr'', hp'', hh''⟩ := command_spec p op (P.dropHalf.endParameters p)
  exact ⟨hr''.trans (hr'.trans hr), hp''.trans (hp'.trans hp), hh''.trans (hh'.trans hh)⟩

/-- The row and the column opcode wait for their parameters (R54). -/
theorem command_range_cmd {p : Params} {op : Byte} (ho : op = p.opcRaset ∨ op = p.opcCaset) (P : Panel) :
    (P.command p op).cmd = some (op, []) := by
  unfold Panel.command
  split
  · rfl
  · rw [if_pos (ho.resolve_left ‹_›)]
    split <;> rfl

/-- A command byte while address parameters are missing poisons (U26; log 25). -/
theorem framedByte_missing_parameters {p : Params} {P : Panel} {a op : Byte} {bs : List Byte} (hr : P.ready = true)
    (hp : P.pulse = .released) (ha : a = p.opcRaset ∨ a = p.opcCaset) (hc : P.cmd = some (a, bs)) :
    (P.framedByte p .C op).bad = true := by
  obtain ⟨-, -, hcmd, -⟩ := dropHalf_spec P
  have poisoned : P.dropHalf.endParameters p = P.dropHalf.poison := by
    simp [Panel.endParameters, hcmd, hc, ha]
  rw [framedByte_command hr hp, Panel.commandByte, poisoned]
  exact Panel.command_bad (Panel.poison_bad _)

/-! ### Address parameters -/

/-- In the open data session of a command's parameters, of which `bs` have arrived. -/
structure Panel.Waiting (op : Byte) (bs : List Byte) (P : Panel) : Prop where
  ready : P.ready = true
  pulse : P.pulse = .released
  sel : P.sel = true
  frm : P.frm = some .D
  cmd : P.cmd = some (op, bs)
  half : P.half = none

/-- The end of a session without a half pixel. -/
theorem onEvent_desel {p : Params} {P : Panel} (h : P.half = none) : P.onEvent p .desel = P.setSel false := by
  simp [Panel.onEvent, h]

/-- The row or the column opcode leaves an idle panel that waits for its parameters, whatever the panel was doing (R54). -/
theorem replay_range_cmd {p : Params} {P : Panel} {op : Byte} (hr : P.ready = true) (hp : P.pulse = .released)
    (ho : op = p.opcRaset ∨ op = p.opcCaset) :
    (P.replay p true (cmdSession op)).Idle ∧ (P.replay p true (cmdSession op)).cmd = some (op, []) := by
  obtain ⟨hr', hp', hh'⟩ := commandByte_spec p op ((P.setSel true).setFrm .C)
  have byte : ((P.setSel true).setFrm .C).onEvent p (.byte op) = ((P.setSel true).setFrm .C).commandByte p op :=
    Panel.onEvent_byte (P := (P.setSel true).setFrm .C) (f := .C) hr rfl hp rfl
  have sent : P.replay p true (cmdSession op) = (((P.setSel true).setFrm .C).commandByte p op).setSel false := by
    rw [← onEvent_desel (p := p) hh', ← byte]
    simp only [cmdSession, replay_cons_driven, replay_nil]
    rfl
  rw [sent]
  exact ⟨⟨hr'.trans hr, rfl, hh', hp'.trans hp⟩, command_range_cmd ho _⟩

/-- An address parameter that does not complete the range (R55). -/
theorem Panel.Waiting.next {p : Params} {P : Panel} {op : Byte} {bs : List Byte} (h : P.Waiting op bs) (hw : p.wf = true)
    (ho : op = p.opcRaset ∨ op = p.opcCaset) (hl : bs.length ≠ 3) (b : Byte) :
    (P.onEvent p (.byte b)).Waiting op (bs ++ [b]) := by
  have distinct := Params.opcodes_ne hw
  have not_one_byte : ¬ ((op = p.opcColmod ∨ op = p.opcMadctl) ∧ bs = []) := by
    rcases ho with rfl | rfl <;> tauto
  rw [Panel.onEvent_parameter h.ready h.sel h.pulse h.frm h.cmd, Panel.parameterByte, if_neg fun hh => hl hh.2,
    if_neg fun hh => hl hh.2, if_neg not_one_byte]
  exact ⟨h.ready, h.pulse, h.sel, h.frm, rfl, h.half⟩

/-- Fewer than four address parameters leave the panel waiting. -/
theorem Panel.Waiting.replay {p : Params} {P : Panel} {op : Byte} {as bs : List Byte} (h : P.Waiting op as)
    (hw : p.wf = true) (ho : op = p.opcRaset ∨ op = p.opcCaset) (hl : as.length + bs.length < 4) :
    (P.replay p true (bs.map .byte)).Waiting op (as ++ bs) := by
  induction bs generalizing P as with
  | nil =>
    rw [List.append_nil]
    exact h
  | cons b bs ih =>
    rw [List.length_cons] at hl
    rw [List.map_cons, replay_cons_driven, List.append_cons]
    exact ih (h.next hw ho (by omega) b) (by simp; omega)

/-- A range command, fewer than four address parameters and another command (log 25). -/
theorem replay_missing_parameters {p : Params} {P : Panel} {a op : Byte} {bs : List Byte} (hw : p.wf = true)
    (hr : P.ready = true) (hp : P.pulse = .released) (ha : a = p.opcRaset ∨ a = p.opcCaset) (hl : bs.length < 4) :
    (P.replay p true (cmdSession a ++ dataSession bs ++ cmdSession op)).bad = true := by
  obtain ⟨hidle, hcmd⟩ := replay_range_cmd hr hp ha
  rw [replay_append_driven, replay_append_driven]
  generalize P.replay p true (cmdSession a) = Q at hidle hcmd
  have start : ((Q.setSel true).setFrm .D).Waiting a [] := ⟨hidle.ready, hidle.pulse, rfl, rfl, hcmd, hidle.half⟩
  have waiting := start.replay (bs := bs) hw ha (by simpa using hl)
  have sent : Q.replay p true (dataSession bs) =
      (((Q.setSel true).setFrm .D).replay p true (bs.map .byte)).setSel false := by
    rw [← onEvent_desel (p := p) waiting.half, dataSession, replay_append_driven, replay_append_driven]
    rfl
  rw [sent]
  exact replay_session_bad (.inl (framedByte_missing_parameters waiting.ready waiting.pulse ha waiting.cmd))

/-- A row range with its end before its start or outside the panel poisons (R55). -/
theorem replay_bad_rows {p : Params} {P : Panel} {a b : Coord} (hw : p.wf = true) (hr : P.ready = true)
    (hp : P.pulse = .released) (h : ¬ (a ≤ b ∧ b < p.height)) :
    (P.replay p true (cmdSession p.opcRaset ++ dataSession (addr4 a b))).bad = true := by
  obtain ⟨hidle, hcmd⟩ := replay_range_cmd hr hp (.inl rfl)
  obtain ⟨c, hx⟩ := replay_addr4 (a := a) (b := b) hw hidle (.inl rfl) hcmd
  rw [replay_append_driven, hx, if_pos rfl, Panel.setRows, if_neg h]
  rfl

theorem setCols_outside {p : Params} {P : Panel} {a b : Coord} (h : ¬ (a ≤ b ∧ b < p.width)) :
    P.setCols p a b = P.poison := by
  unfold Panel.setCols
  cases P.addr <;> simp [h]

/-- So does such a column range, whatever the address state is (R55; log 26). -/
theorem replay_bad_cols {p : Params} {P : Panel} {a b : Coord} (hw : p.wf = true) (hr : P.ready = true)
    (hp : P.pulse = .released) (h : ¬ (a ≤ b ∧ b < p.width)) :
    (P.replay p true (cmdSession p.opcCaset ++ dataSession (addr4 a b))).bad = true := by
  obtain ⟨hidle, hcmd⟩ := replay_range_cmd hr hp (.inr rfl)
  obtain ⟨c, hx⟩ := replay_addr4 (a := a) (b := b) hw hidle (.inr rfl) hcmd
  rw [replay_append_driven, hx, if_neg (Params.opcodes_ne hw).1, setCols_outside h]
  rfl

/-- Settles O56: clause by clause, the byte that poisons. -/
theorem strayPixelDataPoisonsThePanel : Obligations.StrayPixelDataPoisonsThePanel := by
  intro p P b op start stop bs
  refine ⟨fun hr hp hc => ⟨fun ha => ?_, fun hh => ?_⟩, fun hr hp ho => ?_, fun hp => ⟨?_, ?_⟩,
    fun hp hr => ⟨fun hb => ?_, fun hb => ?_⟩, fun hw hr hp => ⟨replay_bad_rows hw hr hp, replay_bad_cols hw hr hp,
    fun hl a ha => replay_missing_parameters hw hr hp (by simpa using ha) hl⟩, onEvent_byte_unframed⟩
  · exact replay_session_bad (.inl (framedByte_without_window hr hp hc ha))
  · exact replay_session_bad (framedByte_first_of_pixel hr hp hc hh)
  · exact replay_session_bad (.inl (framedByte_unknown_command hr hp ho))
  · exact replay_session_bad (.inl (framedByte_before_pulse hp))
  · exact replay_session_bad (.inl (framedByte_before_pulse hp))
  · exact replay_session_bad (.inl (framedByte_out_of_script hp hr hb))
  · exact replay_session_bad (.inl (framedByte_out_of_script hp hr hb))

end Sys2Proof.Machine

/-! PROOFS. Whole runs of INITIALIZE (O27) and of DRAW_BITMAP (O30), with the state each ends in. -/

namespace Sys2Proof.Machine

@[simp] theorem State.started_panel (plan : List PlanItem) (s : State) : (s.started plan).panel = s.panel := rfl

/-! ### INITIALIZE -/

theorem execInitPanel_twice {s : State} (hf : s.fault = none) (hb : s.busy = false) (hi : s.initState ≠ .notRun)
    (x y w h : Coord) (c : Pixel) : exec (.initPanel x y w h c) s = .fault .initTwice := by
  rw [exec, execInitPanel, whenReady_of_idle hb, if_pos hi, raise_eq, hf]
  rfl

/-- INITIALIZE accepted, before its first event. -/
def State.initializing (r : ReqRegs) (s : State) : State :=
  State.started ((initPlan s.params).map .ev) { s.latch r with initState := .running }

theorem initItems_ne_nil (p : Params) : (initPlan p).map PlanItem.ev ≠ [] :=
  List.ne_nil_of_length_pos (by simp)

theorem execInitPanel_accepts {s : State} (hb : s.busy = false) (hi : s.initState = .notRun) (x y w h : Coord)
    (c : Pixel) : exec (.initPanel x y w h c) s = .next (s.initializing (latched 0x0 x y w h c)) := by
  rw [exec, execInitPanel, whenReady_of_idle hb, if_neg (by simp [hi]), load_started (initItems_ne_nil _)]
  rfl

/-- INITIALIZE runs to its end in one step for each event of its script. -/
theorem runFor_initPanel {s : State} {x y w h : Coord} {c : Pixel} {src : List Pixel} {rest : List Presented}
    (hp : s.presents (.initPanel x y w h c) src rest) (hi : s.initState = .notRun) :
    runFor 33 s = .next (State.goto 33 (State.emitAll (initPlan s.params)
      ((s.take { word := encode s.params (.initPanel x y w h c), src := src } rest).initializing
        (latched 0x0 x y w h c)))).finish := by
  obtain ⟨hf, hb, hport⟩ := hp
  have hstep := step_presented hf hb hport (decode_encode_initPanel s.params x y w h c)
  rw [exec, execInitPanel, whenReady_of_idle (by simpa using hb), if_neg (by simp [hi]), thenDo_next] at hstep
  have run := runFor_accepted (initItems_ne_nil _) hstep (by simpa using hf) (runItems_ev _ _)
  rwa [List.length_map, initPlan_length] at run

/-- Settles O27: the script is emitted as a whole, and it brings a panel at power-on to its quiet state. -/
theorem initializeRunsItsScript : Obligations.InitializeRunsItsScript := by
  intro s x y w h c src rest hp
  have hrun := runFor_initPanel hp
  obtain ⟨hf, hb, -⟩ := hp
  refine ⟨fun hi => execInitPanel_twice hf hb hi x y w h c, fun hi => ⟨?_, _, hrun hi, ?_⟩⟩
  · exact ⟨_, execInitPanel_accepts hb hi x y w h c, ⟨rfl, rfl, rfl, rfl, rfl, rfl, rfl, rfl⟩, rfl, rfl, rfl⟩
  · refine ⟨?_, by simp [State.initializing], rfl, by simp [State.initializing], by simp [State.initializing],
      by simp [State.initializing, hf], by simp [State.initializing], by simp [State.initializing],
      by simp [initPlan_lines], fun hpower => ?_⟩
    · rw [State.finish_trace, State.goto_trace, emitAll_trace]
      rfl
    · obtain ⟨quiet, haddr, hgram⟩ := replay_initPlan s.params s.lines.dir
      rw [State.finish_panel, State.goto_panel, emitAll_panel]
      simp only [State.initializing, State.started_params, State.started_lines, State.started_panel, State.latch_params,
        State.latch_lines, State.latch_panel, State.take_params, State.take_lines, State.take_panel, hpower]
      exact ⟨quiet, haddr, fun c r => by rw [hgram, Gram.read_nil]⟩

/-! ### A drawing request -/

/-- R205: no drawing request before the initialization is done. -/
theorem startDrawing_uninitialized {s : State} (hf : s.fault = none) (hi : s.initState ≠ .done) (r : ReqRegs)
    (px : List PlanItem) : startDrawing px (s.latch r) = .fault .useBeforeInit := by
  rw [startDrawing, if_pos (by simpa using hi), raise_eq, State.latch_fault, hf]
  rfl

/-- R111, R239: a request that draws does not begin in a session that a direct SELECT has left open. -/
theorem startDrawing_open {s : State} {r : ReqRegs} (hf : s.fault = none) (hi : s.initState = .done)
    (hcs : s.lines.csSel = true) (hc : clip s.params r.rx r.ry r.rw r.rh ≠ .nothing) (px : List PlanItem) :
    startDrawing px (s.latch r) = .fault .nestedSession := by
  rw [startDrawing, if_neg (by simp [hi])]
  split
  · next h => exact absurd h hc
  · rw [if_pos (by simpa using hcs), raise_eq, State.latch_fault, hf]
    rfl

/-- The block `t` after a drawing request that it took in the state `s` and that sent the events `es`: the request is
complete, its operands and its source are still there, and the next words are presented. -/
structure State.drew (r : ReqRegs) (src : List Pixel) (rest : List Presented) (es : List Event) (s t : State) : Prop where
  trace : t.trace = s.trace ++ es
  busy : t.busy = false
  seq : t.seq = t.plan.length
  port : t.port = rest
  src : t.src = src
  fault : t.fault = none
  initState : t.initState = .done
  params : t.params = s.params
  req : t.req = r
  panel : t.panel = s.panel.replay s.params s.lines.dir es

section
variable {s : State} {q : Presented} {rest : List Presented} {r : ReqRegs} {px : List PlanItem} (hf : s.fault = none)
  (hi : s.initState = .done)
  (hstep : step s = thenDo (startDrawing px ((s.take q rest).latch r)) firstEvent)
include hf hi hstep

/-- A request that draws nothing completes in the step that takes it (R174). -/
theorem runFor_draws_nothing (hc : clip s.params r.rx r.ry r.rw r.rh = .nothing) :
    ∃ t, runFor 1 s = .next t ∧ State.drew r q.src rest [] s t ∧ t.lines = s.lines ∧ t.work = s.work := by
  rw [startDrawing_nothing (by simpa using hi) hc, thenDo_next, firstEvent_load_nil] at hstep
  have run : runFor 1 s = .next (State.load [] ((s.take q rest).latch r)) := by
    rw [← Nat.zero_add 1, runFor_succ, hstep, thenDo_next, runFor_zero]
  refine ⟨_, run, ⟨?_, ?_, ?_, ?_, ?_, ?_, ?_, ?_, ?_, ?_⟩, ?_, ?_⟩ <;>
    simp [State.load, State.settle_busy, State.settle_initState, hf, hi, replay_nil]

/-- A request that draws ends when its window sequence and its pixel session have been sent (R166, R170). -/
theorem runFor_draws_window {x y w h : Coord} {bs : List Byte} (hcs : s.lines.csSel = false)
    (hc : clip s.params r.rx r.ry r.rw r.rh = .window x y w h)
    (hpx : sendsPixels px (pixelCount w h) w ((s.take q rest).latch r) bs) :
    ∃ t, runFor (29 + pixelCount w h * px.length) s = .next t ∧
      State.drew r q.src rest (windowPlan s.params x y (x + w - 1) (y + h - 1) ++ dataSession bs) s t ∧
      t.lines = { s.lines with csSel := false, dcFrm := some .D, sessDirty := false } ∧
      t.work = { s.work.clipped x y w h with rem := 0, sidx := BitVec.ofNat 32 (pixelCount w h) } := by
  obtain ⟨pix, run⟩ := runFor_drawing hstep (by simpa using hf) (by simpa using hi) (by simpa using hcs) hc hpx
  rw [streamPlan_length] at run
  refine ⟨_, run, ⟨?_, ?_, ?_, ?_, ?_, ?_, ?_, ?_, ?_, ?_⟩, ?_, ?_⟩ <;>
    simp [State.drawing, hf, hi, streamPlan_length, afterAll_append, windowPlan_lines, dataSession_lines]

end

/-! ### DRAW_BITMAP -/

theorem exec_drawBitmap_of_idle {s : State} (hb : s.busy = false) (x y w h : Coord) (c : Pixel) :
    exec (.drawBitmap x y w h c) s = startDrawing bitmapPixel (s.latch (latched 0x3 x y w h c)) := by
  rw [exec, execDrawBitmap, whenReady_of_idle hb]

/-- The two bytes of each pixel. -/
theorem flatMap_pixelBytes_length (vs : List Pixel) : (vs.flatMap pixelBytes).length = vs.length * 2 := by
  simp [List.length_flatMap, pixelBytes]

theorem bitmapTrace_length {p : Params} {x y w h x' y' w' h' : Coord} (src : List Pixel)
    (hc : clip p x y w h = .window x' y' w' h') :
    (bitmapTrace p x y w h src).length = 29 + pixelCount w' h' * 2 := by
  rw [bitmapTrace_window src hc, List.length_append, windowPlan_length, dataSession_length, flatMap_pixelBytes_length,
    bitmapPixels_length, pixelCount]
  omega

/-- A source that holds every entry read sends the pixels of `BitmapPlan` (R171). -/
theorem sendsPixels_bitmapPixels {p : Params} {w w' h' : Coord} {src : List Pixel} {s : State}
    (hsrc : ∀ i ∈ entriesRead p w w' h', i < src.length) (hparams : s.params = p) (hreq : s.req.rw = w)
    (hs : s.src = src) :
    sendsPixels bitmapPixel (pixelCount w' h') w' s ((bitmapPixels p w w' h' src).flatMap pixelBytes) := by
  subst hparams hreq hs
  have sends := sendsPixels_bitmap (s := s) (w := w') (pixelCount_lt w' h') fun j hj =>
    hsrc _ (List.mem_map_of_mem (List.mem_range.mpr hj))
  simpa [bitmapPixels, entriesRead, List.flatMap_map, pixelCount] using sends

/-- Settles O30: the three ways a DRAW_BITMAP can go, by `INIT_STATE`, by `CS_SEL` and by what CLIP returns. -/
theorem drawBitmapStreamsTheEntries : Obligations.DrawBitmapStreamsTheEntries := by
  intro s x y w h c src rest ⟨hf, hb, hport⟩
  have hstep := step_presented hf hb hport (decode_encode_drawBitmap s.params x y w h c)
  rw [exec_drawBitmap_of_idle (by simpa using hb)] at hstep
  rw [exec_drawBitmap_of_idle hb]
  refine ⟨fun hi => startDrawing_uninitialized hf hi _ _,
    fun hi hcs hc => startDrawing_open hf hi hcs hc _, fun hi hcs hsrc => ⟨?_, ?_⟩⟩
  · obtain ⟨t, ht, -⟩ := startDrawing_accepts bitmapPixel (latched 0x3 x y w h c) hi hcs
    exact ⟨t, ht⟩
  · cases hc : clip s.params x y w h with
    | nothing =>
      have empty : bitmapTrace s.params x y w h src = [] := by simp [bitmapTrace, hc]
      obtain ⟨t, run, ended, hlines, hwork⟩ := runFor_draws_nothing hf hi hstep hc
      rw [empty]
      exact ⟨t, run, ended.trace, ended.busy, ended.seq, ended.port, ended.src, ended.fault, ended.initState,
        ended.params, ended.req, ended.panel, fun _ => ⟨hlines, hwork⟩, fun _ _ h => nomatch h⟩
    | window x' y' w' h' =>
      obtain ⟨rfl, rfl, -⟩ := clip_inside hc
      simp only [sourceSuffices, hc] at hsrc
      obtain ⟨t, run, ended, hlines, hwork⟩ :=
        runFor_draws_window hf hi hstep hcs hc (sendsPixels_bitmapPixels hsrc rfl rfl rfl)
      have hlen := bitmapTrace_length src hc
      rw [← bitmapTrace_window src hc] at ended
      refine ⟨t, ?_, ended.trace, ended.busy, ended.seq, ended.port, ended.src, ended.fault, ended.initState,
        ended.params, ended.req, ended.panel, fun h => (nomatch h), ?_⟩
      · rw [hlen, Nat.max_eq_right (by omega)]
        exact run
      · rintro _ _ ⟨⟩
        exact ⟨by rw [hlen, pixelCount]; omega, hlines, hwork⟩

end Sys2Proof.Machine

/-! PROOFS. Encoding (O3, O4, O5) and the refusal of a reserved request (O36): which words each decoder accepts is said once,
and the round trip is read off it in both directions. -/

namespace Sys2Proof

/-! ### Operand bytes -/

@[simp] theorem noOperands_eq_ok {j i : Instr} {ops : List Byte} : noOperands j ops = .ok i ↔ ops = [] ∧ j = i := by
  cases ops <;> simp [noOperands]

@[simp] theorem decodeAddr4_addr4 (mk : Coord → Coord → Instr) (s e : Coord) :
    decodeAddr4 mk (addr4 s e) = .ok (mk s e) := by
  simp [decodeAddr4, addr4]

/-- R84: the ADDR4 block is the only operand list of its command. -/
theorem decodeAddr4_eq_ok {mk : Coord → Coord → Instr} {ops : List Byte} {i : Instr} :
    decodeAddr4 mk ops = .ok i ↔ ∃ s e, ops = addr4 s e ∧ mk s e = i := by
  constructor
  · intro h
    unfold decodeAddr4 at h
    split at h
    · next a b c d => exact ⟨be16 a b, be16 c d, by simp [addr4], by simpa using h⟩
    · cases h
  · rintro ⟨s, e, rfl, rfl⟩
    exact decodeAddr4_addr4 mk s e

/-- Four operands are the bytes of two ADDR4 blocks. -/
theorem decodeFour_eq_ok {mk : Coord → Coord → Coord → Coord → Instr} {ops : List Byte} {i : Instr} :
    decodeFour mk ops = .ok i ↔ ∃ a b c d, ops = addr4 a b ++ addr4 c d ∧ mk a b c d = i := by
  constructor
  · intro h
    unfold decodeFour at h
    split at h
    · next a b c d e f g k =>
      exact ⟨be16 a b, be16 c d, be16 e f, be16 g k, by simp [addr4], by simpa using h⟩
    · cases h
  · rintro ⟨a, b, c, d, rfl, rfl⟩
    simp [decodeFour, addr4]

theorem decodeSendCmd_eq_ok {ops : List Byte} {i : Instr} :
    decodeSendCmd ops = .ok i ↔ ∃ b, ops = [b] ∧ .sendCmd b = i := by
  constructor
  · intro h
    unfold decodeSendCmd at h
    split at h
    · next b => exact ⟨b, rfl, by simpa using h⟩
    · cases h
  · rintro ⟨b, rfl, rfl⟩
    rfl

theorem decodeRstSet_eq_ok {ops : List Byte} {i : Instr} :
    decodeRstSet ops = .ok i ↔ ∃ l, ops = [rstLevelByte l] ∧ .rstSet l = i := by
  constructor
  · intro h
    unfold decodeRstSet at h
    split at h
    · split_ifs at h with h0 h1
      · exact ⟨.inactive, by simp [h0, rstLevelByte], by simpa using h⟩
      · exact ⟨.active, by simp [h1, rstLevelByte], by simpa using h⟩
    · cases h
  · rintro ⟨l, rfl, rfl⟩
    cases l <;> rfl

/-! ### The request descriptor -/

section
variable {d : Descriptor}

theorem decodeRequest_initialize (h : d.op = 0x0) : decodeRequest d = .ok (.initPanel d.x d.y d.w d.h d.color) := by
  simp [decodeRequest, h]

theorem decodeRequest_fillRect (h : d.op = 0x1) : decodeRequest d = .ok (.fillRect d.x d.y d.w d.h d.color) := by
  simp [decodeRequest, h]

theorem decodeRequest_fillScreen (h : d.op = 0x2) : decodeRequest d = .ok (.fillScreen d.x d.y d.w d.h d.color) := by
  simp [decodeRequest, h]

theorem decodeRequest_drawBitmap (h : d.op = 0x3) : decodeRequest d = .ok (.drawBitmap d.x d.y d.w d.h d.color) := by
  simp [decodeRequest, h]

/-- R91. -/
theorem decodeRequest_reserved (h : 3 < d.op.toNat) : decodeRequest d = .error (.reservedRequest d.op) := by
  unfold decodeRequest
  split
  case h_5 => rfl
  all_goals omega

end

/-- R89, R91: the four codes, and the reserved ones. -/
theorem Descriptor.op_cases (d : Descriptor) :
    d.op = 0x0 ∨ d.op = 0x1 ∨ d.op = 0x2 ∨ d.op = 0x3 ∨ 3 < d.op.toNat := by
  bv_omega

/-- Settles O5: an equation of the request decoder for each code. -/
theorem descriptorDecodesUnlessReserved : Obligations.DescriptorDecodesUnlessReserved := by
  intro p d
  refine ⟨decodeRequest_initialize, decodeRequest_fillRect, decodeRequest_fillScreen, decodeRequest_drawBitmap, ?_⟩
  intro h0 h1 h2 h3
  exact decodeRequest_reserved ((((d.op_cases.resolve_left h0).resolve_left h1).resolve_left h2).resolve_left h3)

/-! ### Wire commands -/

/-- A byte that a list holds once differs from every byte before the place where it stands. -/
theorem ne_of_mem_before {before after : List Byte} {b : Byte} (h : (before ++ b :: after).count b = 1) :
    ∀ a ∈ before, b ≠ a := by
  rintro a ha rfl
  have := List.count_pos_iff.mpr ha
  rw [List.count_append, List.count_cons_self] at h
  omega

/-- R7, R93: an opcode that stands once among the seven selects its command. -/
theorem decode_encode_of_wireOpcode {p : Params} {i : Instr} {b : Byte} (hb : i.wireOpcode p = some b)
    (once : p.opcodes.count b = 1) : decode p (encode p i) = .ok i := by
  cases i with
  | slpout =>
    cases hb
    simp [decode, encode, decodeWire]
  | dispon =>
    cases hb
    have other := ne_of_mem_before (before := [p.opcSlpout]) once
    simp [decode, encode, decodeWire, other]
  | caset x0 x1 =>
    cases hb
    have other := ne_of_mem_before (before := [p.opcSlpout, p.opcDispon]) once
    simp [decode, encode, decodeWire, other]
  | raset y0 y1 =>
    cases hb
    have other := ne_of_mem_before (before := [p.opcSlpout, p.opcDispon, p.opcCaset]) once
    simp [decode, encode, decodeWire, other]
  | ramwr =>
    cases hb
    have other := ne_of_mem_before (before := [p.opcSlpout, p.opcDispon, p.opcCaset, p.opcRaset]) once
    simp [decode, encode, decodeWire, other]
  | madctl =>
    cases hb
    have other := ne_of_mem_before (before := [p.opcSlpout, p.opcDispon, p.opcCaset, p.opcRaset, p.opcRamwr]) once
    simp [decode, encode, decodeWire, other]
  | colmod =>
    cases hb
    have other := ne_of_mem_before
      (before := [p.opcSlpout, p.opcDispon, p.opcCaset, p.opcRaset, p.opcRamwr, p.opcMadctl]) once
    simp [decode, encode, decodeWire, other]
  | _ => cases hb

/-! ### Decode of encode -/

/-- Settles O3: the operands of each kind of word survive, and a wire command's opcode is its own. -/
theorem decodeOfEncodeIsTheInstruction : Obligations.DecodeOfEncodeIsTheInstruction := by
  intro p i hi
  cases hb : i.wireOpcode p with
  | some b => exact decode_encode_of_wireOpcode hb (by simpa [Instr.wf, hb] using hi)
  | none =>
    cases i with
    | select | deselect | setCmdFraming | setDataFraming | write | cfgOut | blEnable | sendCmd | sendData => rfl
    | sleepMs d => simp [decode, encode, decodeInternal]
    | rstSet l => exact decodeRstSet_eq_ok.mpr ⟨l, rfl, rfl⟩
    | setWindow x0 y0 x1 y1 => exact decodeFour_eq_ok.mpr ⟨x0, y0, x1, y1, rfl, rfl⟩
    | clip x y w h => exact decodeFour_eq_ok.mpr ⟨x, y, w, h, rfl, rfl⟩
    | initPanel x y w h c => exact Machine.decode_encode_initPanel p x y w h c
    | fillRect x y w h c => simp [decode, encode, decodeRequest, Descriptor.make_fields]
    | fillScreen x y w h c => simp [decode, encode, decodeRequest, Descriptor.make_fields]
    | drawBitmap x y w h c => exact Machine.decode_encode_drawBitmap p x y w h c
    | slpout | dispon | caset | raset | ramwr | madctl | colmod => cases hb

/-! ### Encode of decode -/

section
variable {p : Params} {i : Instr} {ops : List Byte} {word : List Byte → PortWord}

theorem encode_of_noOperands {j : Instr} (h : noOperands j ops = .ok i) (hj : encode p j = word []) :
    encode p i = word ops := by
  obtain ⟨rfl, rfl⟩ := noOperands_eq_ok.mp h
  exact hj

theorem encode_of_decodeAddr4 {mk : Coord → Coord → Instr} (h : decodeAddr4 mk ops = .ok i)
    (hmk : ∀ s e, encode p (mk s e) = word (addr4 s e)) : encode p i = word ops := by
  obtain ⟨s, e, rfl, rfl⟩ := decodeAddr4_eq_ok.mp h
  exact hmk s e

theorem encode_of_decodeFour {mk : Coord → Coord → Coord → Coord → Instr} (h : decodeFour mk ops = .ok i)
    (hmk : ∀ a b c d, encode p (mk a b c d) = word (addr4 a b ++ addr4 c d)) : encode p i = word ops := by
  obtain ⟨a, b, c, d, rfl, rfl⟩ := decodeFour_eq_ok.mp h
  exact hmk a b c d

/-- R88: a descriptor has no bit outside its six fields. -/
theorem encode_of_decodeRequest {d : Descriptor} (h : decodeRequest d = .ok i) : encode p i = .request d := by
  have whole := d.make_self
  rcases d.op_cases with hop | hop | hop | hop | hop
  · cases (decodeRequest_initialize hop).symm.trans h
    rw [encode, ← hop, whole]
  · cases (decodeRequest_fillRect hop).symm.trans h
    rw [encode, ← hop, whole]
  · cases (decodeRequest_fillScreen hop).symm.trans h
    rw [encode, ← hop, whole]
  · cases (decodeRequest_drawBitmap hop).symm.trans h
    rw [encode, ← hop, whole]
  · cases (decodeRequest_reserved hop).symm.trans h

theorem encode_of_decodeInternal {code : BitVec 4} (h : decodeInternal code ops = .ok i) (hsleep : code ≠ 0x5) :
    encode p i = .internal code ops := by
  have code_eq (k : BitVec 4) (hk : code.toNat = k.toNat) : code = k := BitVec.eq_of_toNat_eq hk
  unfold decodeInternal at h
  split at h
  · next hc => cases code_eq 0x0 hc; exact encode_of_noOperands h rfl
  · next hc => cases code_eq 0x1 hc; exact encode_of_noOperands h rfl
  · next hc => cases code_eq 0x2 hc; exact encode_of_noOperands h rfl
  · next hc => cases code_eq 0x3 hc; exact encode_of_noOperands h rfl
  · next hc => cases code_eq 0x4 hc; cases h; rfl
  · next hc => exact absurd (code_eq 0x5 hc) hsleep
  · next hc => cases code_eq 0x6 hc; exact encode_of_noOperands h rfl
  · next hc =>
    cases code_eq 0x7 hc
    obtain ⟨l, rfl, rfl⟩ := decodeRstSet_eq_ok.mp h
    rfl
  · next hc => cases code_eq 0x8 hc; exact encode_of_noOperands h rfl
  · next hc =>
    cases code_eq 0x9 hc
    obtain ⟨b, rfl, rfl⟩ := decodeSendCmd_eq_ok.mp h
    rfl
  · next hc => cases code_eq 0xA hc; cases h; rfl
  · next hc => cases code_eq 0xB hc; exact encode_of_decodeFour h fun _ _ _ _ => rfl
  · next hc => cases code_eq 0xC hc; exact encode_of_decodeFour h fun _ _ _ _ => rfl
  · cases h

theorem encode_of_decodeWire {b : Byte} (h : decodeWire p b ops = .ok i) : encode p i = .wire b ops := by
  unfold decodeWire at h
  split_ifs at h with h1 h2 h3 h4 h5 h6 h7
  · exact h1 ▸ encode_of_noOperands h rfl
  · exact h2 ▸ encode_of_noOperands h rfl
  · exact h3 ▸ encode_of_decodeAddr4 h fun _ _ => rfl
  · exact h4 ▸ encode_of_decodeAddr4 h fun _ _ => rfl
  · exact h5 ▸ encode_of_noOperands h rfl
  · exact h6 ▸ encode_of_noOperands h rfl
  · exact h7 ▸ encode_of_noOperands h rfl

end

/-- Settles O4: by the three kinds of word. -/
theorem encodeOfDecodeIsTheWord : Obligations.EncodeOfDecodeIsTheWord := by
  intro p q i hsleep h
  cases q with
  | request d => exact encode_of_decodeRequest h
  | internal code ops =>
    refine encode_of_decodeInternal h ?_
    rintro rfl
    exact hsleep ops rfl
  | wire b ops => exact encode_of_decodeWire h

end Sys2Proof

namespace Sys2Proof.Machine

/-! ### A word that names no instruction -/

/-- R91, R203: an idle block refuses such a word by name. -/
theorem step_undecodable {s : State} {q : Presented} {rest : List Presented} {e : DecodeError} (hf : s.fault = none)
    (hb : s.busy = false) (hport : s.port = q :: rest) (hdec : decode s.params q.word = .error e) :
    step s = .refused (refusalOf e) := by
  simp [step, hf, hb, hport, hdec]

/-- Settles O36: the request decoder gives a reserved code no instruction. -/
theorem reservedRequestIsRefused : Obligations.ReservedRequestIsRefused := by
  intro s d src rest hf hb hport hop
  exact step_undecodable hf hb hport (decodeRequest_reserved hop)

end Sys2Proof.Machine

/-! PROOFS. The transport, timing and control line operations, one event each (O7 to O9, O11, O12), and WRITE (O10). -/

namespace Sys2Proof.Machine

/-! ### What the panel sees of one event -/

theorem emit_onlyBusChanged (e : Event) (s : State) : onlyBusChanged s (s.emit e) := emitAll_onlyBusChanged [e] s

/-- Through driven lines the panel sees an event as it is. -/
theorem see_driven (p : Params) (P : Panel) (e : Event) : P.see p true e = P.onEvent p e := by
  simp [Panel.see]

theorem emit_panel_driven {s : State} (hdir : s.lines.dir = true) (e : Event) :
    (s.emit e).panel = s.panel.onEvent s.params e := by
  rw [State.emit_panel, hdir, see_driven]

/-- An event through driven lines changes no cell where the panel keeps its memory. -/
theorem sameCells_emit {s : State} {e : Event} (hdir : s.lines.dir = true)
    (hgram : (s.panel.onEvent s.params e).gram = s.panel.gram) : sameCells s (s.emit e) := by
  intro c r
  rw [emit_panel_driven hdir, hgram]

/-- The panel's reference model does not see SLEEP, CFG_OUT and BL (R53). -/
theorem see_of_not_onPanelLine {e : Event} (h : e.onPanelLine = false) (p : Params) (d : Bool) (P : Panel) :
    P.see p d e = P := by
  cases e with
  | sleep _ | cfgOut | bl => simp [Panel.see, Event.onPanelLine, Panel.onEvent]
  | sel | desel | frm _ | byte _ | rst _ => cases h

/-! ### The transport primitives -/

theorem raise_of_no_fault {s : State} (hf : s.fault = none) (f : Fault) : raise f s = .fault f := by
  rw [raise_eq, hf]
  rfl

theorem deselectOp_open {s : State} (h : s.lines.csSel = true) : deselectOp s = .next (s.emit .desel) := by
  simp [deselectOp, h]

theorem deselectOp_closed {s : State} (h : s.lines.csSel = false) (hf : s.fault = none) :
    deselectOp s = .fault .unpairedDeselect := by
  simp [deselectOp, h, raise_of_no_fault hf]

theorem setFraming_allowed {s : State} {f : Framing}
    (h : ¬ (s.lines.csSel = true ∧ s.lines.sessDirty = true ∧ s.lines.dcFrm ≠ some f)) :
    setFraming f s = .next (s.emit (.frm f)) := by
  rw [setFraming, if_neg (by simpa [and_assoc] using h)]

theorem setFraming_after_byte {s : State} {f : Framing} (hf : s.fault = none)
    (h : s.lines.csSel = true ∧ s.lines.sessDirty = true ∧ s.lines.dcFrm ≠ some f) :
    setFraming f s = .fault .framingChangeInSession := by
  rw [setFraming, if_pos (by simpa [and_assoc] using h), raise_of_no_fault hf]

theorem writeOp_framed {s : State} (hcs : s.lines.csSel = true) (hfrm : s.lines.dcFrm ≠ none) (bs : List Byte) :
    writeOp bs s = .next (State.emitAll (bs.map .byte) s) := by
  rw [writeOp, if_neg (by simp [hcs, hfrm])]

theorem writeOp_outside {s : State} (hf : s.fault = none) (h : s.lines.csSel = false ∨ s.lines.dcFrm = none)
    (bs : List Byte) : writeOp bs s = .fault .writeOutsideSession := by
  rw [writeOp, if_pos (by simpa using h), raise_of_no_fault hf]

/-- Settles O7: with no session open SELECT is its event. -/
theorem selectOpensASession : Obligations.SelectOpensASession := fun s hf =>
  ⟨fun hcs => ⟨_, selectOp_closed hcs, rfl, rfl, emit_onlyBusChanged _ s, rfl, fun hdir => sameCells_emit hdir rfl⟩,
    fun hcs => selectOp_open hcs hf⟩

/-- Settles O8: with a session open DESELECT is its event, and the panel drops no half pixel. -/
theorem deselectClosesTheSession : Obligations.DeselectClosesTheSession := by
  intro s hf
  refine ⟨fun hcs => ⟨_, deselectOp_open hcs, rfl, rfl, emit_onlyBusChanged _ s, rfl, fun hdir hhalf => ?_⟩,
    fun hcs => deselectOp_closed hcs hf⟩
  exact sameCells_emit hdir (by rw [onEvent_desel hhalf, Panel.setSel_gram])

/-- Settles O9: the two operations are `setFraming` for the two framings. -/
theorem framingIsSetBeforeTheBytes : Obligations.FramingIsSetBeforeTheBytes := by
  intro s f i hf hi
  have hexec : exec i s = setFraming f s := by
    rcases hi with ⟨rfl, rfl⟩ | ⟨rfl, rfl⟩ <;> rfl
  rw [hexec]
  exact ⟨fun h => ⟨_, setFraming_allowed h, rfl, rfl, emit_onlyBusChanged _ s, rfl, fun hdir => sameCells_emit hdir rfl⟩,
    setFraming_after_byte hf⟩

/-- Settles O10: in a framed session WRITE is the events of its bytes. -/
theorem writeSendsEveryByteInOrder : Obligations.WriteSendsEveryByteInOrder := by
  intro s bs hf
  refine ⟨fun ⟨hcs, hfrm⟩ => ⟨_, writeOp_framed hcs hfrm bs, emitAll_trace _ s, ?_, emitAll_onlyBusChanged _ s,
    emitAll_panel _ s⟩, fun h => writeOp_outside hf h bs⟩
  rw [emitAll_lines, afterAll_bytes]

/-- Settles O11: each is one event that does not reach the panel. -/
theorem timingAndControlLinesLeaveThePanel : Obligations.TimingAndControlLinesLeaveThePanel := by
  intro s d
  have unseen {e : Event} (h : e.onPanelLine = false) : (s.emit e).panel = s.panel := see_of_not_onPanelLine h _ _ _
  exact ⟨⟨_, rfl, rfl, rfl, unseen rfl, emit_onlyBusChanged _ s⟩, ⟨_, rfl, rfl, rfl, unseen rfl, emit_onlyBusChanged _ s⟩,
    ⟨_, rfl, rfl, rfl, unseen rfl, emit_onlyBusChanged _ s⟩⟩

/-- Settles O12: RST_SET is its event, and the panel's own rule for it is R53's. -/
theorem resetLineResetsThePanelOnly : Obligations.ResetLineResetsThePanelOnly := by
  intro s l
  refine ⟨_, rfl, rfl, rfl, emit_onlyBusChanged _ s, fun hdir hl => ?_, fun hdir hl => ⟨?_, ?_⟩⟩ <;> subst hl
  · rw [emit_panel_driven hdir]
    exact ⟨rfl, rfl, rfl, rfl, rfl, rfl, rfl, rfl⟩
  · exact sameCells_emit hdir rfl
  · rw [emit_panel_driven hdir]
    exact ⟨rfl, rfl⟩

end Sys2Proof.Machine

/-! PROOFS. The wire commands (O15) and SET_WINDOW (O17): operations that are whole sessions one after another. -/

namespace Sys2Proof.Machine

/-- Under the parameters `p` the operation `op` is a list of whole sessions with the events `es`, the last one framed by `f`: it
begins with a SELECT, so it faults in an open session (R111). -/
structure SendsSessions (p : Params) (op : State → Result) (es : List Event) (f : Framing) : Prop where
  closed : ∀ {s : State}, s.params = p → s.lines.csSel = false → op s = .next (State.emitAll es s)
  opened : ∀ {s : State}, s.params = p → s.lines.csSel = true → s.fault = none → op s = .fault .nestedSession
  lines : ∀ l : Lines, Lines.afterAll es l = { l with csSel := false, dcFrm := some f, sessDirty := false }

/-- A command session whose opcode is a parameter (R131, R7). -/
theorem sendsSessions_cmd (p : Params) (opcode : Params → Byte) :
    SendsSessions p (fun s => sendCmdOp (opcode s.params) s) (cmdSession (opcode p)) .C where
  closed := by
    rintro s rfl hcs
    exact sendCmdOp_closed _ hcs
  opened _ hcs hf := sendCmdOp_open _ hcs hf
  lines := cmdSession_lines _

theorem sendsSessions_data (p : Params) (bs : List Byte) : SendsSessions p (sendDataOp bs) (dataSession bs) .D where
  closed _ hcs := sendDataOp_closed _ hcs
  opened _ hcs hf := sendDataOp_open _ hcs hf
  lines := dataSession_lines _

/-- Sessions are sent one after another. -/
theorem SendsSessions.andThen {p : Params} {op op' : State → Result} {es es' : List Event} {f f' : Framing}
    (h : SendsSessions p op es f) (h' : SendsSessions p op' es' f') :
    SendsSessions p (fun s => thenDo (op s) op') (es ++ es') f' where
  closed hp hcs := by
    rw [h.closed hp hcs, thenDo_next, h'.closed (by simpa using hp) (by simp [h.lines]), emitAll_append]
  opened hp hcs hf := by rw [h.opened hp hcs hf, thenDo_fault]
  lines l := by rw [afterAll_append, h.lines, h'.lines]

/-- Only states with the parameters `p` matter. -/
theorem SendsSessions.congr {p : Params} {op op' : State → Result} {es : List Event} {f : Framing}
    (h : SendsSessions p op es f) (heq : ∀ s : State, s.params = p → op' s = op s) : SendsSessions p op' es f where
  closed hp hcs := (heq _ hp).trans (h.closed hp hcs)
  opened hp hcs hf := (heq _ hp).trans (h.opened hp hcs hf)
  lines := h.lines

/-- What such an operation answers with no session open. -/
theorem SendsSessions.next {s : State} {op : State → Result} {es : List Event} {f : Framing}
    (h : SendsSessions s.params op es f) (hcs : s.lines.csSel = false) :
    ∃ t, op s = .next t ∧ t.trace = s.trace ++ es ∧
      t.lines = { s.lines with csSel := false, dcFrm := some f, sessDirty := false } ∧ onlyBusChanged s t ∧
      t.panel = s.panel.replay s.params s.lines.dir es :=
  ⟨_, h.closed rfl hcs, emitAll_trace _ _, by rw [emitAll_lines, h.lines], emitAll_onlyBusChanged _ s, emitAll_panel _ _⟩

/-- A wire command without parameters ends in a command session, one with parameters in a data session. -/
theorem sendsSessions_wire {p : Params} {a b : Coord} {i : Instr} {es : List Event}
    (h : (i, es) ∈ [
      (Instr.slpout, cmdSession p.opcSlpout),
      (.dispon, cmdSession p.opcDispon),
      (.caset a b, cmdSession p.opcCaset ++ dataSession (addr4 a b)),
      (.raset a b, cmdSession p.opcRaset ++ dataSession (addr4 a b)),
      (.ramwr, cmdSession p.opcRamwr),
      (.madctl, cmdSession p.opcMadctl ++ dataSession [p.parMadctlNorot]),
      (.colmod, cmdSession p.opcColmod ++ dataSession [p.parColmod16bpp])]) :
    SendsSessions p (exec i) es (if es.length = 4 then .C else .D) := by
  have one := sendsSessions_cmd p
  have two (opcode : Params → Byte) (bs : List Byte) := (sendsSessions_cmd p opcode).andThen (sendsSessions_data p bs)
  simp only [List.mem_cons, List.not_mem_nil, or_false, Prod.mk.injEq] at h
  rcases h with ⟨rfl, rfl⟩ | ⟨rfl, rfl⟩ | ⟨rfl, rfl⟩ | ⟨rfl, rfl⟩ | ⟨rfl, rfl⟩ | ⟨rfl, rfl⟩ | ⟨rfl, rfl⟩
  · exact one Params.opcSlpout
  · exact one Params.opcDispon
  · exact two Params.opcCaset (addr4 a b)
  · exact two Params.opcRaset (addr4 a b)
  · exact one Params.opcRamwr
  · exact (two Params.opcMadctl [p.parMadctlNorot]).congr fun s hp => by rw [← hp]; rfl
  · exact (two Params.opcColmod [p.parColmod16bpp]).congr fun s hp => by rw [← hp]; rfl

/-- Settles O15: each command is one session, or two where it has parameters. -/
theorem wireCommandsSendTheirSessions : Obligations.WireCommandsSendTheirSessions := by
  intro s a b i es hf hi
  have sends := sendsSessions_wire (p := s.params) hi
  refine ⟨fun hcs => ?_, fun hcs => sends.opened rfl hcs hf⟩
  obtain ⟨t, hexec, htrace, hlines, hbus, hpanel⟩ := sends.next hcs
  exact ⟨t, hexec, htrace, by simp [hlines], by simp [hlines], by simp [hlines], by simp [hlines], by simp [hlines],
    by simp [hlines], hbus, hpanel⟩

/-- R150 as the statements write it. -/
theorem windowInside_iff {p : Params} {x0 y0 x1 y1 : Coord} :
    windowInside p x0 y0 x1 y1 = true ↔ x0 ≤ x1 ∧ x1 < p.width ∧ y0 ≤ y1 ∧ y1 < p.height := by
  simp [windowInside, and_assoc]

/-- SET_WINDOW with a window inside the panel is the five sessions of `WindowPlan` (R151). -/
theorem sendsSessions_setWindow {p : Params} {x0 y0 x1 y1 : Coord} (h : windowInside p x0 y0 x1 y1 = true) :
    SendsSessions p (exec (.setWindow x0 y0 x1 y1)) (windowPlan p x0 y0 x1 y1) .C := by
  have range (opcode : Params → Byte) (a b : Coord) {op : State → Result} {es : List Event}
      (rest : SendsSessions p op es .C) := (sendsSessions_cmd p opcode).andThen
    ((sendsSessions_data p (addr4 a b)).andThen rest)
  have sends := range Params.opcRaset y0 y1 (range Params.opcCaset x0 x1 (sendsSessions_cmd p Params.opcRamwr))
  simp only [← List.append_assoc] at sends
  exact sends.congr fun s hp => if_pos (hp ▸ h)

/-- Settles O17: a window inside the panel is sent as its five sessions, any other raises BadWindow. -/
theorem setWindowSendsTheWholeSequence : Obligations.SetWindowSendsTheWholeSequence := by
  intro s x0 y0 x1 y1 hf
  simp only [← windowInside_iff]
  refine ⟨fun hin hcs => ?_, fun hin hcs => (sendsSessions_setWindow hin).opened rfl hcs hf, fun hout => ?_⟩
  · obtain ⟨t, hexec, htrace, hlines, hbus, hpanel⟩ := (sendsSessions_setWindow hin).next hcs
    exact ⟨t, hexec, htrace, by simp [htrace], hlines, hbus, hpanel⟩
  · exact (if_neg hout).trans (raise_of_no_fault hf _)

end Sys2Proof.Machine

/-! PROOFS. Whole runs of FILL_RECT (O28) and of FILL_SCREEN (O29), with the state each ends in. -/

namespace Sys2Proof.Machine

theorem exec_fillRect_of_idle {s : State} (hb : s.busy = false) (x y w h : Coord) (c : Pixel) :
    exec (.fillRect x y w h c) s = startDrawing (fillPixel c) (s.latch (latched 0x1 x y w h c)) := by
  rw [exec, execFillRect, whenReady_of_idle hb]

/-- R168: the rectangle registers hold the whole panel. -/
theorem exec_fillScreen_of_idle {s : State} (hb : s.busy = false) (x y w h : Coord) (c : Pixel) :
    exec (.fillScreen x y w h c) s =
      startDrawing (fillPixel c) (s.latch (latched 0x2 0 0 s.params.width s.params.height c)) := by
  rw [exec, execFillScreen, whenReady_of_idle hb]
  rfl

/-- The plan of a fill reads no bitmap entry, so the latch of the entry stays. -/
theorem runItems_fill_keeps_pix (p : Params) (x y w h : Coord) (c : Pixel) (s : State) :
    ∃ u, runItems (streamPlan p x y w h (fillPixel c)) s = some u ∧ u.pix = s.pix := by
  refine ⟨_, runItems_stream p x y w h _ _ s _ _ rfl (runItems_fill c _ _), ?_⟩
  rw [State.withStream_pix, State.withStream_pix]

section
variable {s : State} {q : Presented} {rest : List Presented} {r : ReqRegs} {c : Pixel} (hf : s.fault = none)
  (hi : s.initState = .done)
  (hstep : step s = thenDo (startDrawing (fillPixel c) ((s.take q rest).latch r)) firstEvent)
include hf hi hstep

/-- A fill that draws nothing leaves the latch of the bitmap entry too. -/
theorem runFor_fills_nothing (hc : clip s.params r.rx r.ry r.rw r.rh = .nothing) :
    ∃ t, runFor 1 s = .next t ∧ State.drew r q.src rest [] s t ∧ t.lines = s.lines ∧ t.work = s.work ∧
      t.pix = s.pix := by
  obtain ⟨t, run, ended, hlines, hwork⟩ := runFor_draws_nothing hf hi hstep hc
  refine ⟨t, run, ended, hlines, hwork, ?_⟩
  rw [startDrawing_nothing (by simpa using hi) hc, thenDo_next, firstEvent_load_nil] at hstep
  rw [← Nat.zero_add 1, runFor_succ, hstep, thenDo_next, runFor_zero] at run
  cases run
  simp [State.load]

/-- A fill that draws reads no bitmap entry: the latch keeps its value. -/
theorem runFor_fills_window {x y w h : Coord} (hcs : s.lines.csSel = false)
    (hc : clip s.params r.rx r.ry r.rw r.rh = .window x y w h) :
    ∃ t, runFor (29 + 2 * pixelCount w h) s = .next t ∧
      State.drew r q.src rest (windowPlan s.params x y (x + w - 1) (y + h - 1) ++
        dataSession (rep (pixelCount w h) (pixelBytes c))) s t ∧
      t.lines = { s.lines with csSel := false, dcFrm := some .D, sessDirty := false } ∧
      t.work = { s.work.clipped x y w h with rem := 0, sidx := BitVec.ofNat 32 (pixelCount w h) } ∧ t.pix = s.pix := by
  obtain ⟨t, run, ended, hlines, hwork⟩ := runFor_draws_window hf hi hstep hcs hc (sendsPixels_fill c _ w _)
  have hlen : (fillPixel c).length = 2 := rfl
  rw [hlen, Nat.mul_comm] at run
  refine ⟨t, run, ended, hlines, hwork, ?_⟩
  rw [startDrawing_window (by simpa using hi) (by simpa using hcs) hc, thenDo_next] at hstep
  obtain ⟨u, hitems, hpix⟩ := runItems_fill_keeps_pix s.params x y w h c (((s.take q rest).latch r).drawing x y w h _)
  have run' := runFor_accepted (streamPlan_ne_nil _ _ _ _ _ _) hstep (by simpa using hf) hitems
  rw [State.latch_params, State.take_params, streamPlan_length, hlen, Nat.mul_comm, run] at run'
  injection run' with ht
  rw [ht]
  exact hpix

end

/-- Settles O28: the three ways a FILL_RECT can go, by `INIT_STATE`, by `CS_SEL` and by what CLIP returns. -/
theorem fillRectEmitsFillPlan : Obligations.FillRectEmitsFillPlan := by
  intro s x y w h c src rest ⟨hf, hb, hport⟩
  have hstep := step_presented hf hb hport (decodeOfEncodeIsTheInstruction s.params (.fillRect x y w h c) rfl)
  rw [exec_fillRect_of_idle (by simpa using hb)] at hstep
  rw [exec_fillRect_of_idle hb]
  refine ⟨fun hi => startDrawing_uninitialized hf hi _ _,
    fun hi hcs hc => startDrawing_open hf hi hcs hc _, fun hi hcs => ⟨?_, ?_⟩⟩
  · obtain ⟨t, ht, -⟩ := startDrawing_accepts (fillPixel c) (latched 0x1 x y w h c) hi hcs
    exact ⟨t, ht⟩
  · cases hc : clip s.params x y w h with
    | nothing =>
      have empty : fillTrace s.params x y w h c = [] := by simp [fillTrace, hc]
      obtain ⟨t, run, ended, hlines, hwork, hpix⟩ := runFor_fills_nothing hf hi hstep hc
      rw [empty]
      exact ⟨t, run, ended.trace, ended.busy, ended.seq, ended.port, ended.src, ended.fault, ended.initState,
        ended.params, hpix, ended.req, ended.panel, fun _ => ⟨hlines, hwork⟩, fun _ _ h => nomatch h⟩
    | window x' y' w' h' =>
      obtain ⟨rfl, rfl, -⟩ := clip_inside hc
      obtain ⟨t, run, ended, hlines, hwork, hpix⟩ := runFor_fills_window hf hi hstep hcs hc
      have plan : fillTrace s.params x' y' w h c = windowPlan s.params x' y' (x' + w' - 1) (y' + h' - 1) ++
          dataSession (rep (pixelCount w' h') (pixelBytes c)) := by
        simp [fillTrace, hc, pixelCount]
      have hlen : (fillTrace s.params x' y' w h c).length = 29 + 2 * pixelCount w' h' := by
        simp [plan, pixelBytes]
        omega
      rw [← plan] at ended
      refine ⟨t, ?_, ended.trace, ended.busy, ended.seq, ended.port, ended.src, ended.fault, ended.initState,
        ended.params, hpix, ended.req, ended.panel, fun h => (nomatch h), ?_⟩
      · rw [hlen, Nat.max_eq_right (by omega)]
        exact run
      · rintro _ _ ⟨⟩
        exact ⟨hlen, hlines, hwork⟩

/-- Settles O29: a fill of the whole panel, which is not truncated. -/
theorem fillScreenFillsTheWholePanel : Obligations.FillScreenFillsTheWholePanel := by
  intro s x y w h c src rest ⟨hf, hb, hport⟩ hw
  have hc := clip_whole hw
  have hstep := step_presented hf hb hport (decodeOfEncodeIsTheInstruction s.params (.fillScreen x y w h c) rfl)
  rw [exec_fillScreen_of_idle (by simpa using hb)] at hstep
  rw [exec_fillScreen_of_idle hb]
  refine ⟨fun hi => startDrawing_uninitialized hf hi _ _,
    fun hi hcs => startDrawing_open hf hi hcs (hc ▸ nofun) _, fun hi hcs => ⟨?_, ?_⟩⟩
  · obtain ⟨t, ht, -⟩ := startDrawing_accepts (fillPixel c) (latched 0x2 0 0 s.params.width s.params.height c) hi hcs
    exact ⟨t, ht⟩
  · obtain ⟨t, run, ended, hlines, hwork, hpix⟩ := runFor_fills_window hf hi hstep hcs hc
    refine ⟨t, run, ?_, ended.busy, ended.seq, ended.port, ended.src, ended.fault, ended.initState, ended.params, hpix,
      ended.req, hlines, ?_⟩
    · simpa [pixelCount, pixelBytes] using ended.trace
    · simpa [WorkRegs.clipped, pixelCount] using hwork

end Sys2Proof.Machine

/-! PROOFS. SEND_CMD (O13) and SEND_DATA (O14): operations that are one whole session. -/

namespace Sys2Proof.Machine

/-- Settles O14: SEND_DATA is one data session, whose length is that of its bytes and the three events around them. -/
theorem sendDataIsOneDataSession : Obligations.SendDataIsOneDataSession := by
  intro s bs hf
  have sends : SendsSessions s.params (exec (.sendData bs)) (dataSession bs) .D := sendsSessions_data _ bs
  refine ⟨fun hcs => ?_, fun hcs => sends.opened rfl hcs hf⟩
  obtain ⟨t, hexec, htrace, hlines, hbus, hpanel⟩ := sends.next hcs
  have hlen : t.trace.length = s.trace.length + bs.length + 3 := by
    rw [htrace, List.length_append, dataSession_length, Nat.add_assoc]
  exact ⟨t, hexec, htrace, hlen, hlines, hbus, hpanel⟩

/-- Settles O13: SEND_CMD is one command session, whatever the byte. -/
theorem sendCmdIsOneCommandSession : Obligations.SendCmdIsOneCommandSession := by
  intro s op hf
  have sends : SendsSessions s.params (exec (.sendCmd op)) (cmdSession op) .C := sendsSessions_cmd _ fun _ => op
  exact ⟨sends.next, fun hcs => sends.opened rfl hcs hf⟩

end Sys2Proof.Machine

/-! PROOFS. CLIP (O19 to O22), the two clip modes (O33), and the drawing request that CLIP leaves nothing to
draw (O25). -/

namespace Sys2Proof.Machine

/-! ### What CLIP returns -/

/-- R161: the grounds on which nothing is left, over the naturals. -/
theorem clip_eq_nothing_iff {p : Params} {x y w h : Coord} : clip p x y w h = .nothing ↔
    x.toNat ≥ p.width.toNat ∨ y.toNat ≥ p.height.toNat ∨ w.toNat = 0 ∨ h.toNat = 0 := by
  rw [clip_eq]
  split <;> simp [*]

/-- A rectangle that meets the panel keeps its origin, and each extent is truncated by itself. -/
theorem clip_eq_window {p : Params} {x y w h : Coord} (hx : x.toNat < p.width.toNat) (hy : y.toNat < p.height.toNat)
    (hw : w.toNat ≠ 0) (hh : h.toNat ≠ 0) :
    clip p x y w h = .window x y (clipExtent x w p.width) (clipExtent y h p.height) := by
  rw [clip_eq, if_neg (by omega)]

/-- Settles O19: the two outcomes, and each extent as the naturals give it. -/
theorem clipTruncatesToThePanel : Obligations.ClipTruncatesToThePanel := by
  intro p x y w h
  refine ⟨clip_eq_nothing_iff.mpr, fun hx hy hw hh => ⟨_, _, clip_eq_window hx hy hw hh, ?_, ?_⟩⟩
  · exact clipExtent_toNat x w p.width hx
  · exact clipExtent_toNat y h p.height hy

/-- R162: a truncated extent is the smaller of what was asked for and what is left to the panel's edge. -/
theorem clipExtent_eq_min {origin extent size : Coord} (h : origin.toNat < size.toNat) :
    (clipExtent origin extent size).toNat = min extent.toNat (size.toNat - origin.toNat) := by
  rw [clipExtent_toNat _ _ _ h]
  split <;> omega

/-- The extents of the window CLIP returns. -/
theorem clip_extents {p : Params} {x y w h x' y' w' h' : Coord} (hc : clip p x y w h = .window x' y' w' h') :
    w'.toNat = min w.toNat (p.width.toNat - x.toNat) ∧ h'.toNat = min h.toNat (p.height.toNat - y.toNat) := by
  have drawn : clip p x y w h ≠ .nothing := hc ▸ nofun
  rw [Ne, clip_eq_nothing_iff] at drawn
  rw [clip_eq_window (by omega) (by omega) (by omega) (by omega)] at hc
  cases hc
  exact ⟨clipExtent_eq_min (by omega), clipExtent_eq_min (by omega)⟩

/-! ### A window inside the panel -/

/-- The last column and the last row of a window inside the panel do not wrap around. -/
theorem Win.inside.last {p : Params} {W : Win} (h : W.inside p) :
    (W.x + W.w - 1).toNat = W.x.toNat + W.w.toNat - 1 ∧ (W.y + W.h - 1).toNat = W.y.toNat + W.h.toNat - 1 := by
  obtain ⟨hw, hh, hx, hy⟩ := h.ok
  exact ⟨last_toNat hw hx, last_toNat hh hy⟩

/-- SET_WINDOW's precondition (R150) holds for a window inside the panel. -/
theorem Win.inside.windowInside {p : Params} {W : Win} (h : W.inside p) :
    windowInside p W.x W.y (W.x + W.w - 1) (W.y + W.h - 1) = true := by
  obtain ⟨hx, hy⟩ := h.last
  obtain ⟨hw, hh, hxw, hyh⟩ := h
  simp only [windowInside_iff, BitVec.le_def, BitVec.lt_def, hx, hy]
  omega

/-- Settles O20: the window is inside the panel, and its extents are the two minima. -/
theorem clippedWindowIsInsideThePanel : Obligations.ClippedWindowIsInsideThePanel := by
  intro p x y w h x' y' w' h' hc
  obtain ⟨rfl, rfl, inside⟩ := clip_inside hc
  obtain ⟨hw, hh⟩ := clip_extents hc
  obtain ⟨lastColumn, lastRow⟩ := inside.last
  exact ⟨rfl, rfl, inside.w_pos, by omega, inside.x_le, inside.h_pos, by omega, inside.y_le, hw, hh, lastColumn,
    lastRow, inside.windowInside⟩

/-- The pixel count of a window inside the panel is its number of columns times its number of rows. -/
theorem Win.inside.pixelCount_eq {p : Params} {W : Win} (h : W.inside p) : pixelCount W.w W.h =
    ((W.x + W.w - 1).toNat - W.x.toNat + 1) * ((W.y + W.h - 1).toNat - W.y.toNat + 1) := by
  obtain ⟨lastColumn, lastRow⟩ := h.last
  obtain ⟨hw, hh, -, -⟩ := h
  have columns : (W.x + W.w - 1).toNat - W.x.toNat + 1 = W.w.toNat := by omega
  have rows : (W.y + W.h - 1).toNat - W.y.toNat + 1 = W.h.toNat := by omega
  rw [columns, rows, pixelCount]

/-- Settles O21: a window inside the panel has a column and a row, and a pixel count always fits the counter. -/
theorem pixelCountIsTheWindowsSize : Obligations.PixelCountIsTheWindowsSize := by
  intro p x y w h w' h' hc
  obtain ⟨-, -, inside⟩ := clip_inside hc
  have fits : (BitVec.ofNat 32 (pixelCount w' h')).toNat = pixelCount w' h' := by
    rw [BitVec.toNat_ofNat, Nat.mod_eq_of_lt (pixelCount_lt w' h')]
  exact ⟨Nat.mul_pos inside.w_pos inside.h_pos, fits, inside.pixelCount_eq⟩

/-! ### The effect of CLIP -/

theorem execClip_nothing {s : State} {x y w h : Coord} (hc : clip s.params x y w h = .nothing) :
    execClip x y w h s = .next s := by
  simp [execClip, hc]

theorem execClip_window {s : State} {x y w h x' y' w' h' : Coord}
    (hc : clip s.params x y w h = .window x' y' w' h') :
    execClip x y w h s = .next { s with work := s.work.clipped x' y' w' h' } := by
  simp [execClip, hc]

/-- Settles O22: what CLIP does in each of its two outcomes. -/
theorem clipWritesTheWorkingRegisters : Obligations.ClipWritesTheWorkingRegisters := by
  intro s x y w h
  exact ⟨execClip_nothing, fun _ _ => execClip_window⟩

/-- Settles O33: without truncation position `i` takes entry `i` in either mode. -/
theorem clipModesAgreeWithoutTruncation : Obligations.ClipModesAgreeWithoutTruncation := by
  intro w i
  rw [bitmapIndex_whole, bitmapIndex_whole]

/-! ### A request that draws nothing -/

/-- R174: the step that takes such a request loads an empty plan, which completes it. -/
theorem step_draws_nothing {s : State} {q : Presented} {rest : List Presented} {r : ReqRegs} {px : List PlanItem}
    (hi : s.initState = .done) (hc : clip s.params r.rx r.ry r.rw r.rh = .nothing)
    (hstep : step s = thenDo (startDrawing px ((s.take q rest).latch r)) firstEvent) :
    step s = .next (State.load [] ((s.take q rest).latch r)) := by
  rw [hstep, startDrawing_nothing (by simpa using hi) hc, thenDo_next, firstEvent_load_nil]

/-- Settles O25: FILL_RECT and DRAW_BITMAP differ in the operands they latch. -/
theorem requestThatDrawsNothingEmitsNothing : Obligations.RequestThatDrawsNothingEmitsNothing := by
  intro s x y w h c i src rest hreq ⟨hf, hb, hport⟩ hi grounds
  have hc := clip_eq_nothing_iff.mpr grounds
  have idle (q : Presented) : (s.take q rest).busy = false := by simpa using hb
  obtain ⟨r, accepted⟩ : ∃ r, step s =
      .next (State.load [] ((s.take { word := encode s.params i, src := src } rest).latch r)) := by
    rcases hreq with rfl | rfl
    · have hstep := step_presented hf hb hport (decodeOfEncodeIsTheInstruction s.params (.fillRect x y w h c) rfl)
      rw [exec_fillRect_of_idle (idle _)] at hstep
      exact ⟨_, step_draws_nothing hi hc hstep⟩
    · have hstep := step_presented hf hb hport (decodeOfEncodeIsTheInstruction s.params (.drawBitmap x y w h c) rfl)
      rw [exec_drawBitmap_of_idle (idle _)] at hstep
      exact ⟨_, step_draws_nothing hi hc hstep⟩
  refine ⟨_, accepted, ?_⟩
  simp [State.load, State.settle_busy, State.settle_initState, hf, hi]

end Sys2Proof.Machine

/-! PROOFS. The initialization check of the drawing requests (O26, R205). -/

namespace Sys2Proof.Machine

/-- Settles O26: on an idle block each of the three requests starts drawing on its latched operands, and the
initialization check comes before the clipping. -/
theorem drawingBeforeInitializationFaults : Obligations.DrawingBeforeInitializationFaults := by
  intro s x y w h c hf hb hi i hreq
  simp only [List.mem_cons, List.not_mem_nil, or_false] at hreq
  rcases hreq with rfl | rfl | rfl
  · rw [exec_fillRect_of_idle hb, startDrawing_uninitialized hf hi]
  · rw [exec_fillScreen_of_idle hb, startDrawing_uninitialized hf hi]
  · rw [exec_drawBitmap_of_idle hb, startDrawing_uninitialized hf hi]

end Sys2Proof.Machine
